-- ==== Sys2Proof/Word.lean ====
section
/-! DEFINITION. The words of the TimerFive timer block: register and field widths (10_state.md section 2,
30_encoding.md R81), the three channels (00_scope.md R11, 30_encoding.md R84), the counting direction (R11, R25)
and the per-channel register files (10_state.md R22). -/

namespace Sys2Proof

/-- One byte of a serialized command word (20_memory.md R63). -/
abbrev Byte := BitVec 8

/-- A 16-bit register: `CNT`, `TOP`, `OCR[ch]` (10_state.md R24, R26, R29). -/
abbrev Half := BitVec 16

/-- A command word (30_encoding.md R80). -/
abbrev CmdWord := BitVec 64

/-- The microseconds operand `US` and the result of `READ`, 32 bits (30_encoding.md R87, 44_readback.md R203). -/
abbrev Micros := BitVec 32

/-- A duty fraction, 10 bits (30_encoding.md R85, 10_state.md R30). -/
abbrev DutyFraction := BitVec 10

/-- A callback handler id, 16 bits (30_encoding.md R88, 10_state.md R35). -/
abbrev HandlerId := BitVec 16

/-- A prescaler code: `PS_SEL`, `CS_ACTIVE` (10_state.md R27, R28). -/
abbrev PsCode := BitVec 3

/-- The three output-compare channels, channel indices 0, 1 and 2 (00_scope.md R11). -/
inductive Channel where
  | A
  | B
  | C
  deriving DecidableEq, Repr

/-- What the 2-bit channel code `CH` names: a channel (codes 0, 1, 2) or the unrecognized channel
(code 3) (30_encoding.md R84). -/
inductive ChanSel where
  | channel (c : Channel)
  | unrecognized
  deriving DecidableEq, Repr

/-- The counting direction (00_scope.md R11, 10_state.md R25). -/
inductive Dir where
  | up
  | down
  deriving DecidableEq, Repr

/-- A per-channel file: one entry for each of the channels A, B and C (10_state.md R22). -/
structure PerChannel (α : Type) where
  a : α
  b : α
  c : α
  deriving DecidableEq, Repr

end Sys2Proof
end

