-- ==== Sys2Proof/Config.lean ====
section
/-! DEFINITION. What stands outside the block and is fixed or free: the moves of the agents and the environment
(10_state.md R43, 60_exceptions.md R236), the OPEN parameters (00_scope.md R6) as plain data, and the free values,
each an opaque constant without a body. -/

namespace Sys2Proof

/-- One step of one agent (10_state.md R43) or of the environment (60_exceptions.md R236). The order in which moves
come is free (10_state.md R44): it is data of the state (log 1). -/
inductive Move where
  /-- The counter's step (42_run_state.md R160, R161). -/
  | tick
  /-- The sequencer's step in the top context (10_state.md R41, R42). -/
  | phase
  /-- The interrupt entry (60_exceptions.md R225, R226). -/
  | dispatch
  /-- The interrupt return (60_exceptions.md R229). -/
  | isrReturn
  /-- The environment issues a command word into the top context (10_state.md R41). -/
  | issue (w : CmdWord)
  /-- A transport delivers bytes, byte 0 first (20_memory.md R63, R64; log 16). -/
  | deliver (bytes : List Byte)
  /-- The environment sets the platform's global interrupt enable (60_exceptions.md R236). -/
  | setGie (v : Bool)
  /-- The environment ends the callback of the top context (60_exceptions.md R236). -/
  | cbDone
  deriving DecidableEq, Repr, Inhabited

/-- Which tick-to-microsecond conversion the implementation has (44_readback.md R202; log 9). -/
inductive Conversion where
  /-- The spec's default, `(ticks * p * 1_000_000) div f`. -/
  | exact
  /-- Some other function of `(ticks, p, f)`, of which nothing is known: `Config.ticksToUs`. -/
  | implementation
  deriving DecidableEq, Repr

/-- The OPEN parameters of 00_scope.md R6, as plain data that no step changes (log 8). `CALLBACK_ENV` is the
environment's choice of moves (log 1). -/
structure Params where
  /-- `CLOCK_HZ`, the peripheral clock frequency in Hz. -/
  clockHz : Nat
  /-- `PIN_MAP`, the physical pin identity of each channel (log 17). -/
  pinMap : PerChannel Nat
  /-- `TICKS_TO_US`. -/
  conversion : Conversion
  /-- `GIE_INIT`, the platform's global interrupt enable at launch. -/
  gieInit : Bool
  deriving DecidableEq, Repr

namespace Config

/-- FREE VALUE (log 2): the move that comes when the schedule names none. -/
opaque freeMove : Nat → Move

/-- FREE VALUE (log 10): the natural that `READ` draws for `ticks` when `s2 > 2 * TOP` (44_readback.md R201 (c)). -/
opaque freeTicks : Nat → Nat

/-- FREE VALUE (log 9): a conversion `TICKS_TO_US(ticks, p, CLOCK_HZ)` other than the default (44_readback.md R202). -/
opaque ticksToUs : Nat → Nat → Nat → Nat

/-- FREE VALUE (log 11): `ratio` of the prescaler codes 0, 6 and 7 (10_state.md R27, 93 U18). -/
opaque undefinedRatio : PsCode → Nat

end Config

/-- The parameters the reset state is written with (log 8): the clock of the spec's vectors (95_test_vectors.md),
a one-to-one pin table, the defaults of 00_scope.md R6 for the rest. DESIGN CHOICE: `CLOCK_HZ` and `PIN_MAP` have no
default in the spec; no statement rests on these two values. -/
def Params.vectors : Params where
  clockHz := 16000000
  pinMap := ⟨0, 1, 2⟩
  conversion := .exact
  gieInit := false

end Sys2Proof
end

