-- ==== Sys2Proof/Syntax.lean ====
section
/-! DEFINITION. The commands of the TimerFive-block command set 1 (30_encoding.md R89), one constructor per row of
spec/opcode_table.json. -/

namespace Sys2Proof

/-- A decoded command. An optional period operand is `some US` for `P = 1` and `none` for `P = 0`, whose `US` field
is ignored (30_encoding.md R82, R83; log 15). A callback operand is `none` for `CB = 0`, "no callable", and `some h`
for any other id (30_encoding.md R88; log 15). -/
inductive Instr where
  /-- `INITIALIZE us` (40_period.md R116). -/
  | init (us : Micros)
  /-- `SET_PERIOD us` (40_period.md R113). -/
  | setPeriod (us : Micros)
  /-- `SET_DUTY ch, duty` (41_duty_pwm.md R131). -/
  | setDuty (ch : ChanSel) (duty : DutyFraction)
  /-- `SET_DUTY_ALL duty` (41_duty_pwm.md R132). -/
  | setDutyAll (duty : DutyFraction)
  /-- `PWM ch, duty [, us]` (41_duty_pwm.md R133). -/
  | pwm (ch : ChanSel) (duty : DutyFraction) (period : Option Micros)
  /-- `PWM_ALL duty [, us]` (41_duty_pwm.md R134). -/
  | pwmAll (duty : DutyFraction) (period : Option Micros)
  /-- `DISABLE_PWM ch` (41_duty_pwm.md R135). -/
  | disablePwm (ch : ChanSel)
  /-- `ATTACH_INTERRUPT cb [, us]` (43_interrupt.md R190). -/
  | attachInterrupt (cb : Option HandlerId) (period : Option Micros)
  /-- `DETACH_INTERRUPT` (43_interrupt.md R191). -/
  | detachInterrupt
  /-- `START`, and `restart` (42_run_state.md R166, R169). -/
  | start
  /-- `STOP` (42_run_state.md R167). -/
  | stop
  /-- `RESUME` (42_run_state.md R168). -/
  | resume
  /-- `READ` (44_readback.md R200). -/
  | read
  deriving DecidableEq, Repr

end Sys2Proof
end

