-- ==== Sys2Proof/WellFormed.lean ====
section
/-! DEFINITION. Which terms mean something: decoded commands, the operands an assembler may be given
(30_encoding.md R92) and the parameters (00_scope.md R6). Every other bound is carried by the operand's type. -/

namespace Sys2Proof

/-- A callback operand is absent or an id other than 0 (30_encoding.md R88, 10_state.md R35). -/
def callbackOk (cb : Option HandlerId) : Bool :=
  cb != some 0

/-- A well-formed command. The widths of `US`, `DUTY` and `CH` are in the operands' types (30_encoding.md R84, R85,
R87), so the one check left is that a present handler id is not the id 0 that stands for "no callable". -/
def Instr.wellFormed : Instr → Bool
  | .init _ => true
  | .setPeriod _ => true
  | .setDuty _ _ => true
  | .setDutyAll _ => true
  | .pwm _ _ _ => true
  | .pwmAll _ _ => true
  | .disablePwm _ => true
  | .attachInterrupt cb _ => callbackOk cb
  | .detachInterrupt => true
  | .start => true
  | .stop => true
  | .resume => true
  | .read => true

/-- `<us>` is a number 0 to 4294967295 (30_encoding.md R92). -/
def microsInRange (us : Nat) : Bool := us < 4294967296

/-- `<duty>` is a number 0 to 1023 (30_encoding.md R92). -/
def dutyInRange (duty : Nat) : Bool := duty < 1024

/-- `<cb>` is a number 0 to 65535 (30_encoding.md R92). -/
def handlerInRange (cb : Nat) : Bool := cb < 65536

/-- `PIN_MAP` is one to one (00_scope.md R6). -/
def pinMapOneToOne (m : PerChannel Nat) : Bool :=
  m.a != m.b && m.a != m.c && m.b != m.c

/-- `CLOCK_HZ` is at least 1 and `PIN_MAP` is one to one (00_scope.md R6). -/
def Params.wellFormed (p : Params) : Bool :=
  decide (1 ≤ p.clockHz) && pinMapOneToOne p.pinMap

end Sys2Proof
end

