-- ==== Sys2Proof/Decode.lean ====
section
/-! DEFINITION. From command words to commands and back: the fields (30_encoding.md R81), the formats (R82), the
opcode map (R89), the decoding algorithm (R90), the encoder (R92) and the byte order of a serialized word
(20_memory.md R63). -/

namespace Sys2Proof

/-- Why the decoder refuses a command word (30_encoding.md R86). -/
inductive DecodeError where
  /-- `OPC` is not one of 0x01 to 0x0D. -/
  | reservedOpcode
  /-- A bit that the command's format reserves is 1. -/
  | reservedBitsNonzero
  deriving DecidableEq, Repr

/-- Why bytes that a transport delivered give no command. -/
inductive DeliveryError where
  /-- The bytes are not one whole 64-bit word (20_memory.md R64, 93 U20). -/
  | partialWord
  /-- The decoder refuses the word the bytes make. -/
  | refusedWord (e : DecodeError)
  deriving DecidableEq, Repr

/-- The command formats (30_encoding.md R82). -/
inductive Format where
  | N
  | T
  | C
  | CD
  | D
  | CDP
  | DP
  | HP
  deriving DecidableEq, Repr

/-- `OPC = w[63:56]` (30_encoding.md R81). -/
def opcOf (w : CmdWord) : BitVec 8 := w.extractLsb' 56 8

/-- `P = w[55]` (30_encoding.md R81). -/
def periodFlagOf (w : CmdWord) : BitVec 1 := w.extractLsb' 55 1

/-- `CH = w[49:48]` (30_encoding.md R81). -/
def chOf (w : CmdWord) : BitVec 2 := w.extractLsb' 48 2

/-- `CB = w[47:32]` (30_encoding.md R81). -/
def cbOf (w : CmdWord) : BitVec 16 := w.extractLsb' 32 16

/-- `DUTY = w[41:32]` (30_encoding.md R81). -/
def dutyOf (w : CmdWord) : DutyFraction := w.extractLsb' 32 10

/-- `US = w[31:0]` (30_encoding.md R81). -/
def usOf (w : CmdWord) : Micros := w.extractLsb' 0 32

/-- The channel codes 0, 1, 2 name A, B, C and code 3 is unrecognized (30_encoding.md R84). -/
def chanSelOfCode (code : BitVec 2) : ChanSel :=
  if code = 0 then .channel .A
  else if code = 1 then .channel .B
  else if code = 2 then .channel .C
  else .unrecognized

/-- The channel code of a selection (30_encoding.md R84). -/
def ChanSel.code : ChanSel → BitVec 2
  | .channel .A => 0
  | .channel .B => 1
  | .channel .C => 2
  | .unrecognized => 3

/-- `CB = 0` stands for "no callable" (30_encoding.md R88). -/
def callbackOfId (cb : HandlerId) : Option HandlerId :=
  if cb = 0 then none else some cb

/-- The `CB` field of a callback operand (30_encoding.md R88). -/
def idOfCallback : Option HandlerId → HandlerId
  | none => 0
  | some h => h

/-- The optional period operand: `US` when `P = 1`, absent when `P = 0` (30_encoding.md R82, R83). -/
def periodOperandOf (w : CmdWord) : Option Micros :=
  if periodFlagOf w = 1 then some (usOf w) else none

/-- The bits a format reserves: `RSVMASK` (30_encoding.md R90). -/
def reservedMask : Format → CmdWord
  | .N => 0x00FFFFFFFFFFFFFF
  | .T => 0x00FFFFFF00000000
  | .C => 0x00FCFFFFFFFFFFFF
  | .CD => 0x00FCFC00FFFFFFFF
  | .D => 0x00FFFC00FFFFFFFF
  | .CDP => 0x007CFC0000000000
  | .DP => 0x007FFC0000000000
  | .HP => 0x007F000000000000

/-- The opcode map (30_encoding.md R89): for an assigned opcode its format and its command, whose operands are the
fields of that format (R82); none for a reserved opcode (R86). -/
def opcodeRow (opc : BitVec 8) : Option (Format × (CmdWord → Instr)) :=
  if opc = 0x01 then some (.T, fun w => .init (usOf w))
  else if opc = 0x02 then some (.T, fun w => .setPeriod (usOf w))
  else if opc = 0x03 then some (.CD, fun w => .setDuty (chanSelOfCode (chOf w)) (dutyOf w))
  else if opc = 0x04 then some (.D, fun w => .setDutyAll (dutyOf w))
  else if opc = 0x05 then some (.CDP, fun w => .pwm (chanSelOfCode (chOf w)) (dutyOf w) (periodOperandOf w))
  else if opc = 0x06 then some (.DP, fun w => .pwmAll (dutyOf w) (periodOperandOf w))
  else if opc = 0x07 then some (.C, fun w => .disablePwm (chanSelOfCode (chOf w)))
  else if opc = 0x08 then some (.HP, fun w => .attachInterrupt (callbackOfId (cbOf w)) (periodOperandOf w))
  else if opc = 0x09 then some (.N, fun _ => .detachInterrupt)
  else if opc = 0x0A then some (.N, fun _ => .start)
  else if opc = 0x0B then some (.N, fun _ => .stop)
  else if opc = 0x0C then some (.N, fun _ => .resume)
  else if opc = 0x0D then some (.N, fun _ => .read)
  else none

/-- The decoding algorithm (30_encoding.md R90): total on every 64-bit word. -/
def decode (w : CmdWord) : Except DecodeError Instr :=
  match opcodeRow (opcOf w) with
  | none => .error .reservedOpcode
  | some (fmt, command) =>
    if w &&& reservedMask fmt = 0 then .ok (command w) else .error .reservedBitsNonzero

/-- The word that eight bytes carry, byte i in bits [8i+7:8i] (20_memory.md R63). Any other number of bytes is no
whole word (R64). -/
def wordOfBytes : List Byte → Option CmdWord
  | [b0, b1, b2, b3, b4, b5, b6, b7] => some (b7 ++ b6 ++ b5 ++ b4 ++ b3 ++ b2 ++ b1 ++ b0)
  | _ => none

/-- The eight bytes of a word, byte 0 first (20_memory.md R63). -/
def bytesOfWord (w : CmdWord) : List Byte :=
  [w.extractLsb' 0 8, w.extractLsb' 8 8, w.extractLsb' 16 8, w.extractLsb' 24 8,
   w.extractLsb' 32 8, w.extractLsb' 40 8, w.extractLsb' 48 8, w.extractLsb' 56 8]

/-- Decoding what a transport delivered: total on any bytes (20_memory.md R63, R64). -/
def decodeBytes (bs : List Byte) : Except DeliveryError Instr :=
  match wordOfBytes bs with
  | none => .error .partialWord
  | some w =>
    match decode w with
    | .ok i => .ok i
    | .error e => .error (.refusedWord e)

/-- The instruction the decoder reads from the table word `w` of `nbits` bits, laid out as the transport carries it
(20_memory.md R63). Bits above `nbits` are 0; a word with more than 64 bits is no command word. -/
def decodeTableWord (nbits w : Nat) : Option Instr :=
  let bits := w % 2 ^ nbits
  if bits < 2 ^ 64 then
    match decodeBytes (bytesOfWord (BitVec.ofNat 64 bits)) with
    | .ok i => some i
    | .error _ => none
  else none

/-- A word from its fields: `opc << 56 OR p << 55 OR ch << 48 OR mid << 32 OR us`, where `mid` is the 16 bits [47:32]
that `CB` and `DUTY` share (30_encoding.md R81, R92). -/
def packFields (opc : BitVec 8) (p : BitVec 1) (ch : BitVec 2) (mid : BitVec 16) (us : Micros) : CmdWord :=
  opc ++ p ++ (0 : BitVec 5) ++ ch ++ mid ++ us

/-- The `P` flag of an optional period operand (30_encoding.md R83). -/
def flagOfPeriod : Option Micros → BitVec 1
  | none => 0
  | some _ => 1

/-- The `US` field of an optional period operand: the assembler assembles the `P = 0` forms with `US = 0`
(30_encoding.md R92). -/
def usOfPeriod : Option Micros → Micros
  | none => 0
  | some us => us

/-- The word of a command (30_encoding.md R92). -/
def encode : Instr → CmdWord
  | .init us => packFields 0x01 0 0 0 us
  | .setPeriod us => packFields 0x02 0 0 0 us
  | .setDuty ch duty => packFields 0x03 0 ch.code (duty.zeroExtend 16) 0
  | .setDutyAll duty => packFields 0x04 0 0 (duty.zeroExtend 16) 0
  | .pwm ch duty period => packFields 0x05 (flagOfPeriod period) ch.code (duty.zeroExtend 16) (usOfPeriod period)
  | .pwmAll duty period => packFields 0x06 (flagOfPeriod period) 0 (duty.zeroExtend 16) (usOfPeriod period)
  | .disablePwm ch => packFields 0x07 0 ch.code 0 0
  | .attachInterrupt cb period => packFields 0x08 (flagOfPeriod period) 0 (idOfCallback cb) (usOfPeriod period)
  | .detachInterrupt => packFields 0x09 0 0 0 0
  | .start => packFields 0x0A 0 0 0 0
  | .stop => packFields 0x0B 0 0 0 0
  | .resume => packFields 0x0C 0 0 0 0
  | .read => packFields 0x0D 0 0 0 0

end Sys2Proof
end

