-- ==== Sys2Proof/Machine/State.lean ====
section
/-! DEFINITION. The state of the block as plain data (10_state.md sections 2 and 3), the reasons a step can stop
(60_exceptions.md R221) and the reset state (70_reset_and_hazards.md R250, R251). -/

namespace Sys2Proof.Machine

/-- What the earlier phases of a command computed: the samples of `READ` (10_state.md R37, 44_readback.md R200). -/
structure Locals where
  s1 : Option Half
  s2 : Option Half
  deriving DecidableEq, Repr

/-- The locals of a command that has just been issued: none (10_state.md R41). -/
def Locals.empty : Locals := ⟨none, none⟩

/-- A command in progress, `Some (cmd, k, locals)` with `k` the index of its next phase (10_state.md R37). -/
structure Busy where
  cmd : Instr
  k : Nat
  locals : Locals
  deriving DecidableEq, Repr

/-- An interrupt context (10_state.md R37). -/
structure IsrContext where
  busy : Option Busy
  savedGie : Bool
  handler : Option HandlerId
  cbDone : Bool
  deriving DecidableEq, Repr

/-- The context stack (10_state.md R37): the main context's `busy` at the bottom, the interrupt contexts above it,
the top one first (log 14). -/
structure ContextStack where
  main : Option Busy
  isrs : List IsrContext
  deriving DecidableEq, Repr

/-- The name of a context in the history: the main context, or the interrupt context at a depth, 1 for the one just
above main (log 12). -/
inductive CtxId where
  | main
  | interrupt (depth : Nat)
  deriving DecidableEq, Repr

/-- The entries of the event history (10_state.md R38). -/
inductive Event where
  /-- The environment issues a command. -/
  | issue (ctx : CtxId) (cmd : Instr)
  /-- The command's last phase has run. -/
  | complete (ctx : CtxId) (cmd : Instr)
  /-- `READ` delivers its result. -/
  | result (ctx : CtxId) (v : Micros)
  /-- The pulse of `START` to every counter that shares the prescaler. -/
  | prescalerReset
  /-- A bottom event of the counter. -/
  | bottom
  /-- An interrupt entry. -/
  | dispatch (h : Option HandlerId)
  /-- Invocation of a handler. -/
  | call (h : HandlerId)
  /-- Return from an interrupt context. -/
  | isrReturn
  deriving DecidableEq, Repr

/-- The state of the machine. The registers are those of 10_state.md section 2, under the spec's names. -/
structure State where
  /-- The OPEN parameters (00_scope.md R6); no step writes them (log 8). -/
  params : Params
  /-- `CNT` (10_state.md R24). -/
  cnt : Half
  /-- `DIR` (R25). -/
  dir : Dir
  /-- `TOP` (R26). -/
  top : Half
  /-- `PS_SEL` (R27). -/
  psSel : PsCode
  /-- `CS_ACTIVE` (R28). -/
  csActive : PsCode
  /-- `OCR[ch]` (R29). -/
  ocr : PerChannel Half
  /-- `DUTY[ch]` (R30). -/
  duty : PerChannel DutyFraction
  /-- `COM_EN[ch]` (R31). -/
  comEn : PerChannel Bool
  /-- `PINDIR[ch]`, true for output (R32). -/
  pinDir : PerChannel Bool
  /-- `IE` (R33). -/
  ie : Bool
  /-- `EVT_PENDING` (R34). -/
  evtPending : Bool
  /-- `SLOT` (R35). -/
  slot : Option HandlerId
  /-- `GIE`, the platform's (R36). -/
  gie : Bool
  /-- The context stack (R37). -/
  stack : ContextStack
  /-- The event history (R38), newest entry first (log 13). -/
  history : List Event
  /-- The model's own: the moves still to come, the next one first (R44; log 1). -/
  schedule : List Move
  /-- The model's own: how many free values were drawn (log 10). -/
  draws : Nat
  deriving DecidableEq, Repr

/-- The faults: none. "The model has no fault outcome: the block has no trap" (60_exceptions.md R221; log 7). -/
inductive Fault where
  deriving DecidableEq, Repr

/-- The reasons a step is refused (60_exceptions.md R221; log 6). -/
inductive Refusal where
  /-- An arm of `exec` without a meaning; no arm raises it. Safe. -/
  | notModelled (mnemonic : String)
  /-- The environment issued a word whose `OPC` is reserved (30_encoding.md R86). Raised by the moves `issue` and
  `deliver`. Safe: the machine stops, as the spec says. -/
  | reservedOpcode
  /-- The environment issued a word with a reserved bit set (30_encoding.md R86). Raised by the moves `issue` and
  `deliver`. Safe: the machine stops, as the spec says. -/
  | reservedBitsNonzero
  deriving DecidableEq, Repr

/-- The reset state under the parameters `p` (70_reset_and_hazards.md R250, R251). -/
def State.resetWith (p : Params) : State where
  params := p
  cnt := 0
  dir := .up
  top := 0
  psSel := 0
  csActive := 0
  ocr := ⟨0, 0, 0⟩
  duty := ⟨0, 0, 0⟩
  comEn := ⟨false, false, false⟩
  pinDir := ⟨false, false, false⟩
  ie := false
  evtPending := false
  slot := none
  gie := p.gieInit
  stack := ⟨none, []⟩
  history := []
  schedule := []
  draws := 0

/-- The machine right after reset, under the parameters of the spec's vectors (log 8). -/
def State.reset : State := State.resetWith Params.vectors

end Sys2Proof.Machine
end

