-- ==== Sys2Proof/Machine/Operands.lean ====
section
/-! DEFINITION. Operands and the values computed from them: the per-channel files, the period calculator
(40_period.md R110 to R112), the duty mapper (41_duty_pwm.md R130) and the readback arithmetic
(44_readback.md R200 to R203). All arithmetic is on naturals, with truncating division (00_scope.md R8, R9). -/

namespace Sys2Proof

/-- `FILE[ch]` (00_scope.md R10). -/
def PerChannel.get {α : Type} (f : PerChannel α) : Channel → α
  | .A => f.a
  | .B => f.b
  | .C => f.c

/-- `FILE[ch] <- v` (00_scope.md R10). -/
def PerChannel.set {α : Type} (f : PerChannel α) (ch : Channel) (v : α) : PerChannel α :=
  match ch with
  | .A => { f with a := v }
  | .B => { f with b := v }
  | .C => { f with c := v }

/-- `FILE[0..2] <- v`: every entry takes the value. -/
def PerChannel.fill {α : Type} (v : α) : PerChannel α := ⟨v, v, v⟩

/-- `DIR` as a bit: `UP` is 0 and `DOWN` is 1 (00_scope.md R11). -/
def Dir.code : Dir → BitVec 1
  | .up => 0
  | .down => 1

namespace Machine

/-- `cycles = (CLOCK_HZ div 2_000_000) * us` (40_period.md R111). -/
def rawCycles (clockHz us : Nat) : Nat := clockHz / 2000000 * us

/-- `PRESCALERS` with their codes, in order (00_scope.md R6, 10_state.md R27, 40_period.md R110). -/
def prescalers : List (PsCode × Nat) := [(1, 1), (2, 8), (3, 64), (4, 256), (5, 1024)]

/-- The first prescaler of the list that brings the tick count under `RESOLUTION`, and the tick count; where there is
none, the saturated pair (40_period.md R112). -/
def selectPrescaler (cycles : Nat) : List (PsCode × Nat) → Nat × PsCode
  | [] => (65535, 5)
  | (code, p) :: rest => if cycles / p < 65536 then (cycles / p, code) else selectPrescaler cycles rest

/-- `PeriodCalc(us)` (40_period.md R110). -/
def periodCalc (clockHz us : Nat) : Nat × PsCode := selectPrescaler (rawCycles clockHz us) prescalers

/-- `ratio(code)` (10_state.md R27). Codes 0, 6 and 7 have none: a free value (log 11). -/
def ratio (code : PsCode) : Nat :=
  if code = 1 then 1
  else if code = 2 then 8
  else if code = 3 then 64
  else if code = 4 then 256
  else if code = 5 then 1024
  else Config.undefinedRatio code

/-- `DutyCompare(top, duty) = (top * duty) >> 10` (41_duty_pwm.md R130). -/
def dutyCompare (top duty : Nat) : Nat := top * duty / 2 ^ 10

/-- The realized period in peripheral clocks, `2 * TOP * ratio` (40_period.md R115). -/
def realizedClocks (top : Nat) (code : PsCode) : Nat := 2 * top * ratio code

/-- The default `TICKS_TO_US(ticks, p, f)` (44_readback.md R202). -/
def ticksToUsExact (ticks p clockHz : Nat) : Nat := ticks * p * 1000000 / clockHz

/-- `TICKS_TO_US` of the machine's parameters (44_readback.md R202; log 9). -/
def ticksToUs (par : Params) (ticks p : Nat) : Nat :=
  match par.conversion with
  | .exact => ticksToUsExact ticks p par.clockHz
  | .implementation => Config.ticksToUs ticks p par.clockHz

/-- The elapsed ticks of `READ` from its samples and the top value, none where the source gives no value
(44_readback.md R200, R201 (c)). -/
def elapsedTicks (s1 s2 top : Nat) : Option Nat :=
  if s2 > s1 then some s1
  else if s2 ≤ 2 * top then some (2 * top - s2)
  else none

/-- The delivered result: the conversion modulo 2^32 (44_readback.md R203). -/
def readResult (par : Params) (ticks p : Nat) : Micros := BitVec.ofNat 32 (ticksToUs par ticks p)

end Machine

end Sys2Proof
end

