-- ==== Sys2Proof/Machine/Flags.lean ====
section
/-! DEFINITION. The derived signals, pure functions of the state that no step writes (10_state.md R39): the interrupt
request, the run state, the channel output levels and the pins (41_duty_pwm.md R137, R138). -/

namespace Sys2Proof.Machine

/-- The two run states (42_run_state.md R165). -/
inductive RunState where
  | stopped
  | running
  deriving DecidableEq, Repr

/-- The state of a pin (41_duty_pwm.md R138). `portDriven` shows the platform port's value, which is outside the
block (log 17). -/
inductive PinState where
  | input
  | drive (level : Bool)
  | portDriven
  deriving DecidableEq, Repr

/-- `IRQ = EVT_PENDING ∧ IE` (60_exceptions.md R224). -/
def State.irq (s : State) : Bool := s.evtPending && s.ie

/-- `RunState`: Stopped if `CS_ACTIVE = 0`, else Running (10_state.md R28). -/
def State.runState (s : State) : RunState := if s.csActive = 0 then .stopped else .running

/-- `OC_LEVEL[ch] = 1` if `CNT < OCR[ch]`, else 0 (41_duty_pwm.md R137). -/
def State.ocLevel (s : State) (ch : Channel) : Bool := decide (s.cnt.toNat < (s.ocr.get ch).toNat)

/-- `PIN[ch]` (41_duty_pwm.md R138). -/
def State.pin (s : State) (ch : Channel) : PinState :=
  if s.pinDir.get ch = false then .input
  else if s.comEn.get ch = true then .drive (s.ocLevel ch)
  else .portDriven

/-- The state of the physical pin `p`: that of the channel `PIN_MAP` maps to it, none for a pin that is no
channel's (00_scope.md R6). -/
def State.physicalPin (s : State) (p : Nat) : Option PinState :=
  if s.params.pinMap.a = p then some (s.pin .A)
  else if s.params.pinMap.b = p then some (s.pin .B)
  else if s.params.pinMap.c = p then some (s.pin .C)
  else none

end Sys2Proof.Machine
end

