-- ==== Sys2Proof/Machine/Ops.lean ====
section
/-! DEFINITION. The operations the meanings share: the context stack (10_state.md R37), the history (R38), issuing a
command and running its next phase (R40, R41, R42), the interrupt entry (60_exceptions.md R226) and the interrupt
return (R229). -/

namespace Sys2Proof.Machine

/-! ### The context stack -/

/-- `busy` of the top context (10_state.md R37). -/
def ContextStack.topBusy (c : ContextStack) : Option Busy :=
  match c.isrs with
  | [] => c.main
  | top :: _ => top.busy

/-- The stack with the top context's `busy` replaced. -/
def ContextStack.setTopBusy (c : ContextStack) (b : Option Busy) : ContextStack :=
  match c.isrs with
  | [] => { c with main := b }
  | top :: below => { c with isrs := { top with busy := b } :: below }

/-- The name of the top context (log 12). -/
def ContextStack.topId (c : ContextStack) : CtxId :=
  match c.isrs with
  | [] => .main
  | _ :: below => .interrupt (below.length + 1)

/-- The top context is idle and, if it is an interrupt context, its callback is not done. -/
def ContextStack.topOpen (c : ContextStack) : Bool :=
  match c.isrs with
  | [] => c.main.isNone
  | top :: _ => top.busy.isNone && !top.cbDone

/-- Where the environment may issue a command (60_exceptions.md R236): the top context is idle, and an interrupt
context has a handler and its callback is not done. -/
def ContextStack.accepts (c : ContextStack) : Bool :=
  match c.isrs with
  | [] => c.main.isNone
  | top :: _ => top.busy.isNone && top.handler.isSome && !top.cbDone

/-- `busy` of the top context of the state. -/
def State.topBusy (s : State) : Option Busy := s.stack.topBusy

/-- The state with the top context's `busy` replaced. -/
def State.setTopBusy (s : State) (b : Option Busy) : State := { s with stack := s.stack.setTopBusy b }

/-- `emit e` (00_scope.md R10, 10_state.md R38). -/
def State.emit (s : State) (e : Event) : State := { s with history := e :: s.history }

/-- The move `ISSUE` is enabled (60_exceptions.md R236). -/
def State.issueEnabled (s : State) : Bool := s.stack.accepts

/-! ### Issuing a command and running its phases -/

/-- Issuing: `Issue(ctx, cmd)` is recorded and the context becomes busy at the command's first phase
(10_state.md R41). -/
def State.issue (s : State) (i : Instr) : State :=
  (s.emit (.issue s.stack.topId i)).setTopBusy (some ⟨i, 0, Locals.empty⟩)

/-- The end of a command: `Complete(ctx, cmd)` is recorded and the context becomes idle (10_state.md R41). -/
def State.complete (s : State) (i : Instr) : State :=
  (s.emit (.complete s.stack.topId i)).setTopBusy none

/-- An atomic phase (10_state.md R40): `ready` is the condition of its `hold until` (R42), `run` its reads and writes,
landing together. -/
structure Phase where
  ready : Locals → State → Bool
  run : Locals → State → Locals × State

/-- A phase without a `hold until` and without locals. -/
def Phase.plain (f : State → State) : Phase := ⟨fun _ _ => true, fun l s => (l, f s)⟩

/-- After the phase at index `b.k`, which left the locals `l`: the context goes on at the next phase, or the command
is complete (10_state.md R41). -/
def State.advance (s : State) (i : Instr) (b : Busy) (l : Locals) (n : Nat) : State :=
  if b.k + 1 < n then s.setTopBusy (some ⟨b.cmd, b.k + 1, l⟩) else s.complete i

/-- One sequencer step of the command `b` in the top context (10_state.md R41, R42). A phase whose `hold until` is
false is not enabled and changes nothing (log 3). With no phase left, which is the zero-phase commands of
41_duty_pwm.md R136, the command completes and nothing else changes (log 22). -/
def State.runPhase (s : State) (i : Instr) (phases : List Phase) (b : Busy) : State :=
  match phases[b.k]? with
  | none => s.complete i
  | some p =>
    if p.ready b.locals s then
      ((p.run b.locals s).2).advance i b (p.run b.locals s).1 phases.length
    else s

/-- The next step that the command `i`, with the phases `phases`, makes in the top context (log 4): into a context
that accepts it, it is issued (10_state.md R41, 60_exceptions.md R236); in a context that is busy with it, its next
phase runs. In any other context it makes no step (log 3). -/
def runCommand (i : Instr) (phases : List Phase) (s : State) : Host.Outcome State Fault Refusal :=
  match s.topBusy with
  | none => if s.issueEnabled then .next (s.issue i) else .next s
  | some b => if b.cmd = i then .next (s.runPhase i phases b) else .next s

/-! ### The interrupt entry and the interrupt return -/

/-- `DISPATCH` is enabled exactly when `IRQ = 1` and `GIE = 1` (60_exceptions.md R225). -/
def State.dispatchEnabled (s : State) : Bool := s.irq && s.gie

/-- The interrupt context that a dispatch pushes (60_exceptions.md R226). -/
def State.newIsr (s : State) : IsrContext :=
  { busy := none, savedGie := s.gie, handler := s.slot, cbDone := s.slot.isNone }

/-- The history entries of a dispatch, newest first: `Dispatch(h)`, then `Call(x)` if `h = Some x`
(60_exceptions.md R226, R227). -/
def dispatchEvents : Option HandlerId → List Event
  | none => [.dispatch none]
  | some x => [.call x, .dispatch (some x)]

/-- Trap entry, one atomic step (60_exceptions.md R226). -/
def State.dispatch (s : State) : State :=
  { s with
    evtPending := false
    stack := { s.stack with isrs := s.newIsr :: s.stack.isrs }
    gie := false
    history := dispatchEvents s.slot ++ s.history }

/-- The top context may return: it is an interrupt context, idle, and its callback is done
(60_exceptions.md R229). -/
def IsrContext.mayReturn (c : IsrContext) : Bool := c.busy.isNone && c.cbDone

/-- `ISR_RETURN` is enabled (60_exceptions.md R229). -/
def State.isrReturnEnabled (s : State) : Bool :=
  match s.stack.isrs with
  | [] => false
  | top :: _ => top.mayReturn

/-- Trap return, one atomic step (60_exceptions.md R229): the context is popped and its saved `GIE` restored. Without
an interrupt context there is nothing to pop. -/
def State.isrReturn (s : State) : State :=
  match s.stack.isrs with
  | [] => s
  | top :: below =>
    { s with
      stack := { s.stack with isrs := below }
      gie := top.savedGie
      history := .isrReturn :: s.history }

end Sys2Proof.Machine
end

