-- ==== Sys2Proof/Machine/Counter.lean ====
section
/-! DEFINITION. The counter agent (42_run_state.md R160 to R164). -/

namespace Sys2Proof.Machine

/-- `TICK` is enabled exactly when `CS_ACTIVE ≠ 0` (42_run_state.md R160). -/
def State.tickEnabled (s : State) : Bool := s.csActive != 0

/-- `bottom()`: `emit Bottom; EVT_PENDING <- 1` (42_run_state.md R161, R162). -/
def State.bottom (s : State) : State := { s with evtPending := true, history := .bottom :: s.history }

/-- One tick, one atomic step (42_run_state.md R161). -/
def State.tick (s : State) : State :=
  if s.dir = .up ∧ s.cnt.toNat < s.top.toNat then { s with cnt := s.cnt + 1 }
  else if s.cnt = 0 then s.bottom
  else if s.cnt - 1 = 0 then { s.bottom with cnt := s.cnt - 1, dir := .up }
  else { s with cnt := s.cnt - 1, dir := .down }

end Sys2Proof.Machine
end

