-- ==== Sys2Proof/Machine/Period.lean ====
section
/-! DEFINITION. The period family: `INITIALIZE` and `SET_PERIOD` (40_period.md R113, R114, R116). -/

namespace Sys2Proof.Machine

/-- SP1: `TOP` and `PS_SEL` take the period's top value and prescaler, as one atomic unit (40_period.md R113). -/
def phaseSP1 (us : Micros) (s : State) : State :=
  { s with
    top := BitVec.ofNat 16 (periodCalc s.params.clockHz us.toNat).1
    psSel := (periodCalc s.params.clockHz us.toNat).2 }

/-- SP2: `CS_ACTIVE <- PS_SEL` (40_period.md R113). -/
def phaseSP2 (s : State) : State := { s with csActive := s.psSel }

/-- IN1: `CS_ACTIVE <- 0` and every `COM_EN[ch] <- 0` (40_period.md R116). -/
def phaseIN1 (s : State) : State := { s with csActive := 0, comEn := PerChannel.fill false }

/-- `SET_PERIOD_PHASES(us)` (40_period.md R113). -/
def setPeriodPhases (us : Micros) : List Phase := [.plain (phaseSP1 us), .plain phaseSP2]

/-- The period phases of an optional period operand: none for `P = 0` (30_encoding.md R83). -/
def optionalPeriodPhases : Option Micros → List Phase
  | none => []
  | some us => setPeriodPhases us

/-- The phases of `INITIALIZE us` (40_period.md R116). -/
def initPhases (us : Micros) : List Phase := .plain phaseIN1 :: setPeriodPhases us

/-- `INITIALIZE us` (40_period.md R116). -/
def execInit (us : Micros) (s : State) : Host.Outcome State Fault Refusal :=
  runCommand (.init us) (initPhases us) s

/-- `SET_PERIOD us` (40_period.md R113). -/
def execSetPeriod (us : Micros) (s : State) : Host.Outcome State Fault Refusal :=
  runCommand (.setPeriod us) (setPeriodPhases us) s

end Sys2Proof.Machine
end

