-- ==== Sys2Proof/Machine/Duty.lean ====
section
/-! DEFINITION. The duty and PWM family: `SET_DUTY`, `SET_DUTY_ALL`, `PWM`, `PWM_ALL`, `DISABLE_PWM`
(41_duty_pwm.md R131 to R136). -/

namespace Sys2Proof.Machine

/-- The compare value of a duty under the current `TOP` (41_duty_pwm.md R130). -/
def State.compareOf (s : State) (duty : DutyFraction) : Half :=
  BitVec.ofNat 16 (dutyCompare s.top.toNat duty.toNat)

/-- SD1: the compare value and the duty copy of the channel (41_duty_pwm.md R131). -/
def phaseSD1 (ch : Channel) (d : DutyFraction) (s : State) : State :=
  { s with ocr := s.ocr.set ch (s.compareOf d), duty := s.duty.set ch d }

/-- SD2, and PW1 which writes the same: `PINDIR[ch] <- 1; COM_EN[ch] <- 1` (41_duty_pwm.md R131, R133). -/
def phaseEnable (ch : Channel) (s : State) : State :=
  { s with pinDir := s.pinDir.set ch true, comEn := s.comEn.set ch true }

/-- SA1: the three compare values and duty copies, one atomic unit (41_duty_pwm.md R132). -/
def phaseSA1 (d : DutyFraction) (s : State) : State :=
  { s with ocr := PerChannel.fill (s.compareOf d), duty := PerChannel.fill d }

/-- SA2, and PA1 which writes the same: every `PINDIR[ch] <- 1` and `COM_EN[ch] <- 1`
(41_duty_pwm.md R132, R134). -/
def phaseEnableAll (s : State) : State :=
  { s with pinDir := PerChannel.fill true, comEn := PerChannel.fill true }

/-- PW2 and PA2: `CS_ACTIVE <- PS_SEL` (41_duty_pwm.md R133, R134). -/
def phaseReconnect (s : State) : State := { s with csActive := s.psSel }

/-- DP1: `COM_EN[ch] <- 0` (41_duty_pwm.md R135). -/
def phaseDP1 (ch : Channel) (s : State) : State := { s with comEn := s.comEn.set ch false }

/-- `SET_DUTY_PHASES(ch, duty)`, none for the unrecognized channel (41_duty_pwm.md R131, R136). -/
def setDutyPhases (ch : ChanSel) (d : DutyFraction) : List Phase :=
  match ch with
  | .unrecognized => []
  | .channel c => [.plain (phaseSD1 c d), .plain (phaseEnable c)]

/-- `SET_DUTY_ALL_PHASES(duty)` (41_duty_pwm.md R132). -/
def setDutyAllPhases (d : DutyFraction) : List Phase := [.plain (phaseSA1 d), .plain phaseEnableAll]

/-- The phases of `PWM` (41_duty_pwm.md R133): for the unrecognized channel none at all, the period and the resume
included (R136). -/
def pwmPhases (ch : ChanSel) (d : DutyFraction) (period : Option Micros) : List Phase :=
  match ch with
  | .unrecognized => []
  | .channel c =>
    optionalPeriodPhases period ++ [.plain (phaseEnable c)] ++ setDutyPhases (.channel c) d ++ [.plain phaseReconnect]

/-- The phases of `PWM_ALL` (41_duty_pwm.md R134). -/
def pwmAllPhases (d : DutyFraction) (period : Option Micros) : List Phase :=
  optionalPeriodPhases period ++ [.plain phaseEnableAll] ++ setDutyAllPhases d ++ [.plain phaseReconnect]

/-- The phases of `DISABLE_PWM` (41_duty_pwm.md R135, R136). -/
def disablePwmPhases (ch : ChanSel) : List Phase :=
  match ch with
  | .unrecognized => []
  | .channel c => [.plain (phaseDP1 c)]

/-- `SET_DUTY ch, duty` (41_duty_pwm.md R131). -/
def execSetDuty (ch : ChanSel) (d : DutyFraction) (s : State) : Host.Outcome State Fault Refusal :=
  runCommand (.setDuty ch d) (setDutyPhases ch d) s

/-- `SET_DUTY_ALL duty` (41_duty_pwm.md R132). -/
def execSetDutyAll (d : DutyFraction) (s : State) : Host.Outcome State Fault Refusal :=
  runCommand (.setDutyAll d) (setDutyAllPhases d) s

/-- `PWM ch, duty [, us]` (41_duty_pwm.md R133). -/
def execPwm (ch : ChanSel) (d : DutyFraction) (period : Option Micros) (s : State) :
    Host.Outcome State Fault Refusal :=
  runCommand (.pwm ch d period) (pwmPhases ch d period) s

/-- `PWM_ALL duty [, us]` (41_duty_pwm.md R134). -/
def execPwmAll (d : DutyFraction) (period : Option Micros) (s : State) : Host.Outcome State Fault Refusal :=
  runCommand (.pwmAll d period) (pwmAllPhases d period) s

/-- `DISABLE_PWM ch` (41_duty_pwm.md R135). -/
def execDisablePwm (ch : ChanSel) (s : State) : Host.Outcome State Fault Refusal :=
  runCommand (.disablePwm ch) (disablePwmPhases ch) s

end Sys2Proof.Machine
end

