-- ==== Sys2Proof/Machine/Interrupt.lean ====
section
/-! DEFINITION. The interrupt family: `ATTACH_INTERRUPT` and `DETACH_INTERRUPT` (43_interrupt.md R190 to R192). The
entry and the return are in Machine/Ops.lean. -/

namespace Sys2Proof.Machine

/-- AT1: `SLOT` takes the callback, None for `CB = 0` (43_interrupt.md R190; log 15). -/
def phaseAT1 (cb : Option HandlerId) (s : State) : State := { s with slot := cb }

/-- AT2: `IE <- 1` (43_interrupt.md R190). -/
def phaseAT2 (s : State) : State := { s with ie := true }

/-- DT1: `IE <- 0` (43_interrupt.md R191). -/
def phaseDT1 (s : State) : State := { s with ie := false }

/-- The phases of `ATTACH_INTERRUPT` (43_interrupt.md R190). -/
def attachPhases (cb : Option HandlerId) (period : Option Micros) : List Phase :=
  optionalPeriodPhases period ++ [.plain (phaseAT1 cb), .plain phaseAT2]

/-- The phases of `DETACH_INTERRUPT` (43_interrupt.md R191). -/
def detachPhases : List Phase := [.plain phaseDT1]

/-- `ATTACH_INTERRUPT cb [, us]` (43_interrupt.md R190). -/
def execAttachInterrupt (cb : Option HandlerId) (period : Option Micros) (s : State) :
    Host.Outcome State Fault Refusal :=
  runCommand (.attachInterrupt cb period) (attachPhases cb period) s

/-- `DETACH_INTERRUPT` (43_interrupt.md R191). -/
def execDetachInterrupt (s : State) : Host.Outcome State Fault Refusal :=
  runCommand .detachInterrupt detachPhases s

end Sys2Proof.Machine
end

