-- ==== Sys2Proof/Machine/Readback.lean ====
section
/-! DEFINITION. `READ` (44_readback.md R200 to R205). -/

namespace Sys2Proof.Machine

/-- RD1: `s1 <- CNT` (44_readback.md R200). -/
def phaseRD1 : Phase := ⟨fun _ _ => true, fun l s => ({ l with s1 := some s.cnt }, s)⟩

/-- RD2: `hold until CNT != s1; s2 <- CNT` (44_readback.md R200). Without a first sample there is nothing to compare
and the phase is not enabled (log 22). -/
def phaseRD2 : Phase :=
  ⟨fun l s => match l.s1 with
    | some v => s.cnt != v
    | none => false,
   fun l s => ({ l with s2 := some s.cnt }, s)⟩

/-- RD3's `ticks` and the state after it is taken: where the source gives no value, a free natural
(44_readback.md R200, R201 (c); log 10). -/
def State.takeTicks (s : State) (s1 s2 : Half) : Nat × State :=
  match elapsedTicks s1.toNat s2.toNat s.top.toNat with
  | some ticks => (ticks, s)
  | none => (Config.freeTicks s.draws, { s with draws := s.draws + 1 })

/-- RD3 with both samples: the result is delivered to the context that issued the command (44_readback.md R200,
10_state.md R41). -/
def State.deliverResult (s : State) (s1 s2 : Half) : State :=
  (s.takeTicks s1 s2).2.emit
    (.result s.stack.topId (readResult s.params (s.takeTicks s1 s2).1 (ratio s.psSel)))

/-- RD3 (44_readback.md R200). Without both samples the phase is not enabled (log 22). -/
def phaseRD3 : Phase :=
  ⟨fun l _ => l.s1.isSome && l.s2.isSome,
   fun l s => match l.s1, l.s2 with
    | some s1, some s2 => (l, s.deliverResult s1 s2)
    | _, _ => (l, s)⟩

/-- The phases of `READ` (44_readback.md R200). -/
def readPhases : List Phase := [phaseRD1, phaseRD2, phaseRD3]

/-- `READ` (44_readback.md R200). -/
def execRead (s : State) : Host.Outcome State Fault Refusal := runCommand .read readPhases s

end Sys2Proof.Machine
end

