-- ==== Sys2Proof/Machine/RunState.lean ====
section
/-! DEFINITION. The run-state family: `START`, `STOP`, `RESUME` (42_run_state.md R165 to R169, R172). -/

namespace Sys2Proof.Machine

/-- ST1: `IE <- 0` (42_run_state.md R166). -/
def phaseST1 (s : State) : State := { s with ie := false }

/-- ST2: `emit PrescalerReset` (42_run_state.md R166, R172). -/
def phaseST2 (s : State) : State := s.emit .prescalerReset

/-- ST3: `CNT <- 0; DIR <- UP`; no tick and no bottom event (42_run_state.md R162, R166). -/
def phaseST3 (s : State) : State := { s with cnt := 0, dir := .up }

/-- ST4: `CS_ACTIVE <- PS_SEL` (42_run_state.md R166). -/
def phaseST4 (s : State) : State := { s with csActive := s.psSel }

/-- ST5: `hold until CNT != 0`, and nothing else (42_run_state.md R166). -/
def phaseST5 : Phase := ⟨fun _ s => s.cnt != 0, fun l s => (l, s)⟩

/-- SO1: `CS_ACTIVE <- 0` (42_run_state.md R167). -/
def phaseSO1 (s : State) : State := { s with csActive := 0 }

/-- RS1: `CS_ACTIVE <- PS_SEL` (42_run_state.md R168). -/
def phaseRS1 (s : State) : State := { s with csActive := s.psSel }

/-- The phases of `START` (42_run_state.md R166). -/
def startPhases : List Phase :=
  [.plain phaseST1, .plain phaseST2, .plain phaseST3, .plain phaseST4, phaseST5]

/-- The phases of `STOP` (42_run_state.md R167). -/
def stopPhases : List Phase := [.plain phaseSO1]

/-- The phases of `RESUME` (42_run_state.md R168). -/
def resumePhases : List Phase := [.plain phaseRS1]

/-- `START` (42_run_state.md R166). -/
def execStart (s : State) : Host.Outcome State Fault Refusal := runCommand .start startPhases s

/-- `STOP` (42_run_state.md R167). -/
def execStop (s : State) : Host.Outcome State Fault Refusal := runCommand .stop stopPhases s

/-- `RESUME` (42_run_state.md R168). -/
def execResume (s : State) : Host.Outcome State Fault Refusal := runCommand .resume resumePhases s

end Sys2Proof.Machine
end

