-- ==== Sys2Proof/Machine/Dispatch.lean ====
section
/-! DEFINITION. The dispatch: one arm per constructor of Instr. -/

namespace Sys2Proof.Machine

def exec (i : Instr) (s : State) : Host.Outcome State Fault Refusal :=
  match i with
  | .init us => Sys2Proof.Machine.execInit us s
  | .setPeriod us => Sys2Proof.Machine.execSetPeriod us s
  | .setDuty ch duty => Sys2Proof.Machine.execSetDuty ch duty s
  | .setDutyAll duty => Sys2Proof.Machine.execSetDutyAll duty s
  | .pwm ch duty period => Sys2Proof.Machine.execPwm ch duty period s
  | .pwmAll duty period => Sys2Proof.Machine.execPwmAll duty period s
  | .disablePwm ch => Sys2Proof.Machine.execDisablePwm ch s
  | .attachInterrupt cb period => Sys2Proof.Machine.execAttachInterrupt cb period s
  | .detachInterrupt => Sys2Proof.Machine.execDetachInterrupt s
  | .start => Sys2Proof.Machine.execStart s
  | .stop => Sys2Proof.Machine.execStop s
  | .resume => Sys2Proof.Machine.execResume s
  | .read => Sys2Proof.Machine.execRead s

end Sys2Proof.Machine
end

