-- ==== Sys2Proof/Machine/Environment.lean ====
section
/-! DEFINITION. The environment's own moves: `SET_GIE` and `CB_DONE` (60_exceptions.md R236). `ISSUE` is in
Machine/Moves.lean. -/

namespace Sys2Proof.Machine

/-- `SET_GIE` is enabled: the top context is idle and, if it is an interrupt context, its callback is not done
(60_exceptions.md R236). -/
def State.setGieEnabled (s : State) : Bool := s.stack.topOpen

/-- `SET_GIE(v)` (60_exceptions.md R236). -/
def State.setGie (s : State) (v : Bool) : State := { s with gie := v }

/-- An interrupt context whose callback the environment may end: idle, with `cb_done = false`
(60_exceptions.md R236). -/
def IsrContext.mayEndCallback (c : IsrContext) : Bool := c.busy.isNone && !c.cbDone

/-- `CB_DONE` is enabled (60_exceptions.md R236). -/
def State.cbDoneEnabled (s : State) : Bool :=
  match s.stack.isrs with
  | [] => false
  | top :: _ => top.mayEndCallback

/-- `CB_DONE`: `cb_done <- true` in the top context (60_exceptions.md R236). -/
def State.endCallback (s : State) : State :=
  match s.stack.isrs with
  | [] => s
  | top :: below => { s with stack := { s.stack with isrs := { top with cbDone := true } :: below } }

end Sys2Proof.Machine
end

