-- ==== Sys2Proof/Machine/Moves.lean ====
section
/-! DEFINITION. One move of one agent (10_state.md R43, 60_exceptions.md R236). A move that is not enabled is no step
of the block: it leaves the state as it is (log 3). -/

namespace Sys2Proof.Machine

/-- The refusal of a word the decoder refuses (60_exceptions.md R221). -/
def refusalOf : DecodeError → Refusal
  | .reservedOpcode => .reservedOpcode
  | .reservedBitsNonzero => .reservedBitsNonzero

/-- `ISSUE(w)` (10_state.md R41): the word is decoded; a command makes its first step in the top context, which is
that it is issued; a refused word marks the run refused (60_exceptions.md R221). -/
def issueMove (w : CmdWord) (s : State) : Host.Outcome State Fault Refusal :=
  if s.issueEnabled then
    match decode w with
    | .ok i => exec i s
    | .error e => .refused (refusalOf e)
  else .next s

/-- A delivery of bytes: `ISSUE` of the word they make, or, for a partial word, no command at all
(20_memory.md R63, R64; log 16). -/
def deliverMove (bytes : List Byte) (s : State) : Host.Outcome State Fault Refusal :=
  match wordOfBytes bytes with
  | some w => issueMove w s
  | none => .next s

/-- The sequencer's step: the next phase of the top context's command (10_state.md R41). -/
def phaseMove (s : State) : Host.Outcome State Fault Refusal :=
  match s.topBusy with
  | some b => exec b.cmd s
  | none => .next s

/-- One move. -/
def takeMove (m : Move) (s : State) : Host.Outcome State Fault Refusal :=
  match m with
  | .tick => .next (if s.tickEnabled then s.tick else s)
  | .phase => phaseMove s
  | .dispatch => .next (if s.dispatchEnabled then s.dispatch else s)
  | .isrReturn => .next (if s.isrReturnEnabled then s.isrReturn else s)
  | .issue w => issueMove w s
  | .deliver bytes => deliverMove bytes s
  | .setGie v => .next (if s.setGieEnabled then s.setGie v else s)
  | .cbDone => .next (if s.cbDoneEnabled then s.endCallback else s)

/-- The next move and the state without it: the schedule's first, or, where the schedule names none, a free one
(10_state.md R44; log 1, log 2). -/
def State.nextMove (s : State) : Move × State :=
  match s.schedule with
  | m :: rest => (m, { s with schedule := rest })
  | [] => (Config.freeMove s.draws, { s with draws := s.draws + 1 })

/-- A command word of `nbits` bits as the port carries it; the bits above are 0 (30_encoding.md R80). -/
def portWord (nbits w : Nat) : CmdWord := BitVec.ofNat 64 (w % 2 ^ nbits)

/-- A state in which `ISSUE` is enabled: the state itself where it is, else with an idle main context alone. -/
def State.readyForIssue (s : State) : State :=
  if s.issueEnabled then s else { s with stack := ⟨none, []⟩ }

end Sys2Proof.Machine
end

