-- ==== Sys2Proof/Machine/Step.lean ====
section
/-! DEFINITION. One step of the machine: the next move of the schedule (10_state.md R44; log 1). -/

namespace Sys2Proof.Machine

/-- One step: one move of one agent (10_state.md R43). -/
def step (s : State) : Host.Outcome State Fault Refusal :=
  takeMove s.nextMove.1 s.nextMove.2

/-- The state in which the very next step is that the command word `w` comes on the command port and its instruction
makes its first step: the word's `ISSUE` stands first in the schedule, and the top context takes it
(30_encoding.md R80, 60_exceptions.md R236; log 5). -/
def State.withFetchWord (s : State) (nbits w : Nat) : State :=
  { s.readyForIssue with schedule := .issue (portWord nbits w) :: s.schedule }

end Sys2Proof.Machine
end

