-- ==== Sys2Proof/Safety.lean ====
section
/-! DEFINITION. What claims speak of: sequences of moves, the invariants of reachable states (10_state.md R46 and the
rules it rests on), blocking (70_reset_and_hazards.md R258), infinite runs and fairness (10_state.md R44). -/

namespace Sys2Proof.Machine

/-! ### Sequences of moves -/

/-- The outcome of the moves of a list, one after the other. -/
def runMoves : List Move → State → Host.Outcome State Fault Refusal
  | [], s => .next s
  | m :: ms, s =>
    match takeMove m s with
    | .next s' => runMoves ms s'
    | .fault r => .fault r
    | .refused r => .refused r

/-- `n` steps of the command `i` in a row, with no move of another agent between them. -/
def execChain : Nat → Instr → State → Host.Outcome State Fault Refusal
  | 0, _, s => .next s
  | n + 1, i, s =>
    match exec i s with
    | .next s' => execChain n i s'
    | .fault r => .fault r
    | .refused r => .refused r

/-- `n` ticks in a row. -/
def State.ticks : Nat → State → State
  | 0, s => s
  | n + 1, s => State.ticks n s.tick

/-- The phases of a command (40_period.md to 44_readback.md). -/
def phasesOf : Instr → List Phase
  | .init us => initPhases us
  | .setPeriod us => setPeriodPhases us
  | .setDuty ch d => setDutyPhases ch d
  | .setDutyAll d => setDutyAllPhases d
  | .pwm ch d period => pwmPhases ch d period
  | .pwmAll d period => pwmAllPhases d period
  | .disablePwm ch => disablePwmPhases ch
  | .attachInterrupt cb period => attachPhases cb period
  | .detachInterrupt => detachPhases
  | .start => startPhases
  | .stop => stopPhases
  | .resume => resumePhases
  | .read => readPhases

/-- The commands that block (70_reset_and_hazards.md R258). -/
def isBlocking (i : Instr) : Bool := i = .start ∨ i = .read

/-- The period phase SP1 of a command that has one: its index among the command's phases and its period operand
(40_period.md R113, R116, 41_duty_pwm.md R133, R134, 43_interrupt.md R190). -/
def periodPhaseOf : Instr → Option (Nat × Micros)
  | .init us => some (1, us)
  | .setPeriod us => some (0, us)
  | .setDuty _ _ => none
  | .setDutyAll _ => none
  | .pwm (.channel _) _ period => period.map fun us => (0, us)
  | .pwm .unrecognized _ _ => none
  | .pwmAll _ period => period.map fun us => (0, us)
  | .disablePwm _ => none
  | .attachInterrupt _ period => period.map fun us => (0, us)
  | .detachInterrupt => none
  | .start => none
  | .stop => none
  | .resume => none
  | .read => none

/-! ### Enabled moves -/

/-- The sequencer's step is enabled: the top context is busy and its next phase is not held (10_state.md R42, R43). -/
def State.phaseEnabled (s : State) : Bool :=
  match s.topBusy with
  | none => false
  | some b =>
    match (phasesOf b.cmd)[b.k]? with
    | none => true
    | some p => p.ready b.locals s

/-- Which moves are enabled (10_state.md R43, 60_exceptions.md R236). -/
def enabled (m : Move) (s : State) : Bool :=
  match m with
  | .tick => s.tickEnabled
  | .phase => s.phaseEnabled
  | .dispatch => s.dispatchEnabled
  | .isrReturn => s.isrReturnEnabled
  | .issue _ => s.issueEnabled
  | .deliver bytes => (wordOfBytes bytes).isSome && s.issueEnabled
  | .setGie _ => s.setGieEnabled
  | .cbDone => s.cbDoneEnabled

/-- The top context is busy with `i` and its next phase has index `k`. -/
def State.atPhase (s : State) (i : Instr) (k : Nat) : Prop := ∃ l, s.topBusy = some ⟨i, k, l⟩

/-! ### Invariants -/

/-- The commands in progress, the top context's first. -/
def ContextStack.busies (c : ContextStack) : List (Option Busy) := c.isrs.map IsrContext.busy ++ [c.main]

/-- The commands in progress in suspended contexts (10_state.md R37). -/
def ContextStack.suspended (c : ContextStack) : List (Option Busy) := c.busies.tail

/-- 10_state.md R46, 1: `DIR = DOWN ⇒ CNT ≥ 1`. -/
def CounterInv (s : State) : Prop := s.dir = .down → s.cnt ≠ 0

/-- 10_state.md R46, 2 and 3: the prescaler codes are 0 to 5, and a connected clock has a selected prescaler. -/
def ClockInv (s : State) : Prop :=
  s.psSel.toNat ≤ 5 ∧ s.csActive.toNat ≤ 5 ∧ (s.csActive ≠ 0 → s.psSel ≠ 0)

/-- 10_state.md R46, 4: `OCR[ch] ≤ 65471` and `DUTY[ch] ≤ 1023`. -/
def ChannelInv (s : State) : Prop :=
  ∀ ch, (s.ocr.get ch).toNat ≤ 65471 ∧ (s.duty.get ch).toNat ≤ 1023

/-- The registers hold legal values (10_state.md R46, 1 to 4). -/
structure RegisterInv (s : State) : Prop where
  counter : CounterInv s
  clock : ClockInv s
  channels : ChannelInv s

/-- `SLOT`, the handlers and the operands of commands in progress hold no handler id 0 (10_state.md R35). -/
structure HandlerInv (s : State) : Prop where
  slot : s.slot ≠ some 0
  handlers : ∀ c ∈ s.stack.isrs, c.handler ≠ some 0
  commands : ∀ b, some b ∈ s.stack.busies → b.cmd.wellFormed = true

/-- What an interrupt context holds (60_exceptions.md R226, R229, R236): the saved `GIE` is 1, a context without a
handler has nothing to run, and a context whose callback is done is idle. -/
structure IsrContext.Legal (c : IsrContext) : Prop where
  saved : c.savedGie = true
  noHandler : c.handler = none → c.cbDone = true
  done : c.cbDone = true → c.busy = none

/-- Every interrupt context is legal, and every phase pointer names a phase of its command, or is 0 where the command
has no phases (10_state.md R23, R41). -/
structure ContextInv (s : State) : Prop where
  legal : ∀ c ∈ s.stack.isrs, c.Legal
  pointers : ∀ b, some b ∈ s.stack.busies →
    b.k < (phasesOf b.cmd).length ∨ (phasesOf b.cmd = [] ∧ b.k = 0)

/-- From ST1 on `START` masks the interrupt, and it stays on top (42_run_state.md R171, 70_reset_and_hazards.md
R260). -/
structure StartInv (s : State) : Prop where
  masked : ∀ b, s.topBusy = some b → b.cmd = .start → 1 ≤ b.k → s.ie = false
  onTop : ∀ b, some b ∈ s.stack.suspended → b.cmd = .start → b.k = 0

/-- A `READ` in progress has the samples its next phase needs, and the prescaler is selected when the result is
computed (44_readback.md R200, R205). -/
structure ReadInv (s : State) : Prop where
  sampled : ∀ b, some b ∈ s.stack.busies → b.cmd = .read → 1 ≤ b.k → b.locals.s1.isSome = true
  changed : ∀ b, some b ∈ s.stack.busies → b.cmd = .read → 2 ≤ b.k →
    b.locals.s2.isSome = true ∧ b.locals.s1 ≠ b.locals.s2
  stillZero : s.psSel = 0 → s.cnt = 0
  noPrescaler : s.psSel = 0 → ∀ b, some b ∈ s.stack.busies → b.cmd = .read → 1 ≤ b.k →
    b.k < 2 ∧ b.locals.s1 = some 0

/-- Everything the rules promise of a reachable state. -/
structure Inv (s : State) : Prop where
  registers : RegisterInv s
  handlers : HandlerInv s
  contexts : ContextInv s
  start : StartInv s
  read : ReadInv s

/-! ### The environment's values of `GIE` -/

/-- The last value the environment gave `GIE` after the move `m` from `s`, where it was `v` before: an enabled
`SET_GIE` gives one, if it comes where `counts` holds (10_state.md R46, 5; log 20). -/
def givenGie (counts : State → Bool) (m : Move) (s : State) (v : Bool) : Bool :=
  match m with
  | .setGie w => if s.setGieEnabled && counts s then w else v
  | _ => v

/-- The last value the environment gave `GIE` in the moves of a list, or `v` if it gave none. -/
def lastGivenGie (counts : State → Bool) : List Move → State → Bool → Bool
  | [], _, v => v
  | m :: ms, s, v =>
    match takeMove m s with
    | .next s' => lastGivenGie counts ms s' (givenGie counts m s v)
    | .fault _ => v
    | .refused _ => v

/-- No interrupt context is on the stack. -/
def State.mainOnTop (s : State) : Bool := s.stack.isrs.isEmpty

/-- 10_state.md R46, 5, with `v` the last value the environment gave `GIE` while the main context was on top, or
`GIE_INIT`: without an interrupt context `GIE` is `v`; with interrupt contexts the lowest one has `v` saved, which its
return restores (60_exceptions.md R229; log 20). -/
structure GieInv (v : Bool) (s : State) : Prop where
  onMain : s.stack.isrs = [] → s.gie = v
  saved : ∀ c, s.stack.isrs.getLast? = some c → c.savedGie = v

/-! ### Blocking, runs and fairness -/

/-- The context on top waits in a `hold until` (10_state.md R42, 60_exceptions.md R221). -/
def State.waits (s : State) : Prop := s.topBusy ≠ none ∧ s.phaseEnabled = false

/-- An infinite run: the states and the moves between them. -/
structure Run where
  state : Nat → State
  move : Nat → Move
  follows : ∀ n, takeMove (move n) (state n) = .next (state (n + 1))

/-- Weak fairness of a move: one that stays enabled is eventually taken (10_state.md R44). -/
def Run.weaklyFair (r : Run) (m : Move) : Prop :=
  ∀ n, (∀ j, n ≤ j → enabled m (r.state j) = true) → ∃ j, n ≤ j ∧ r.move j = m

/-- A fair run (10_state.md R44): weak fairness of `TICK`, `PHASE`, `DISPATCH` and `ISR_RETURN`. -/
structure Run.Fair (r : Run) : Prop where
  tick : r.weaklyFair .tick
  phase : r.weaklyFair .phase
  dispatch : r.weaklyFair .dispatch
  isrReturn : r.weaklyFair .isrReturn

/-- At the time `j` the environment ends the callback of the interrupt context at the depth `d`, 1 for the one just
above main: `CB_DONE` is taken, and is enabled, with that context on top (60_exceptions.md R236). -/
def Run.endsCallbackAt (r : Run) (j d : Nat) : Prop :=
  r.move j = .cbDone ∧ (r.state j).cbDoneEnabled = true ∧ (r.state j).stack.isrs.length = d

/-- The environment does its duty (60_exceptions.md R236, 92 D31, 93 U12): `CB_DONE` "must come eventually" for every
interrupt context whose callback is not done, whatever it issues before and whatever contexts are pushed above it. A
context is popped only once its callback is done, so the first such time ends that very callback (log 25). -/
def Run.endsCallbacks (r : Run) : Prop :=
  ∀ (n : Nat) (above : List IsrContext) (c : IsrContext) (below : List IsrContext),
    (r.state n).stack.isrs = above ++ c :: below → c.cbDone = false →
      ∃ j, n ≤ j ∧ r.endsCallbackAt j (below.length + 1)

end Sys2Proof.Machine
end

