-- ==== Sys2Proof/Certificates/Slice0/Obligations.lean ====
section
/-! DEFINITION. The statements for the provers, from the numbered rules of spec/. Each docstring names the rule. Where
a statement rests on a choice of the model, it names the log entry. -/

open Sys2Proof Sys2Proof.Machine

/-! ### Encoding -/

/-- 30_encoding.md R82, R89, R90, R92 and 20_memory.md R63: the decoder reads back every well-formed command from its
word, and from the eight bytes of its word. The operand types are log 15. -/
def Obligations.DecodeReadsBackEveryEncodedCommand : Prop :=
  ∀ i : Instr, i.wellFormed = true →
    decode (encode i) = .ok i ∧ decodeBytes (bytesOfWord (encode i)) = .ok i

/-- 30_encoding.md R82, R83, R90: a decoded command is well-formed, and its word is the word it was decoded from, but
for the `US` bits of a word of format CDP, DP or HP with `P = 0`: those are ignored, and every value of them decodes to
the same command. -/
def Obligations.EncodeGivesBackEveryDecodedWord : Prop :=
  (∀ (w : CmdWord) (i : Instr), decode w = .ok i →
    i.wellFormed = true ∧
      (encode i = w ∨
        ((opcOf w = 0x05 ∨ opcOf w = 0x06 ∨ opcOf w = 0x08) ∧ periodFlagOf w = 0 ∧
          encode i = w &&& 0xFFFFFFFF00000000))) ∧
  (∀ (w : CmdWord) (us : Micros),
    (opcOf w = 0x05 ∨ opcOf w = 0x06 ∨ opcOf w = 0x08) → periodFlagOf w = 0 →
      decode ((w &&& 0xFFFFFFFF00000000) ||| us.zeroExtend 64) = decode w)

/-- 30_encoding.md R86: the decoder refuses exactly the words with a reserved opcode and, of the others, those with a
reserved bit of their format set; issuing a refused word is refused by that name, and a refused word is no command. -/
def Obligations.DecoderRefusesExactlyTheReservedWords : Prop :=
  ∀ w : CmdWord,
    (decode w = .error .reservedOpcode ↔ ((opcOf w).toNat = 0 ∨ 0x0E ≤ (opcOf w).toNat)) ∧
    (decode w = .error .reservedBitsNonzero ↔
      ((((opcOf w).toNat = 1 ∨ (opcOf w).toNat = 2) ∧ w &&& 0x00FFFFFF00000000 ≠ 0) ∨
       ((opcOf w).toNat = 3 ∧ w &&& 0x00FCFC00FFFFFFFF ≠ 0) ∨
       ((opcOf w).toNat = 4 ∧ w &&& 0x00FFFC00FFFFFFFF ≠ 0) ∨
       ((opcOf w).toNat = 5 ∧ w &&& 0x007CFC0000000000 ≠ 0) ∨
       ((opcOf w).toNat = 6 ∧ w &&& 0x007FFC0000000000 ≠ 0) ∨
       ((opcOf w).toNat = 7 ∧ w &&& 0x00FCFFFFFFFFFFFF ≠ 0) ∨
       ((opcOf w).toNat = 8 ∧ w &&& 0x007F000000000000 ≠ 0) ∨
       (9 ≤ (opcOf w).toNat ∧ (opcOf w).toNat ≤ 13 ∧ w &&& 0x00FFFFFFFFFFFFFF ≠ 0))) ∧
    (∀ s : State, s.issueEnabled = true →
      (decode w = .error .reservedOpcode → takeMove (.issue w) s = .refused .reservedOpcode) ∧
      (decode w = .error .reservedBitsNonzero → takeMove (.issue w) s = .refused .reservedBitsNonzero))

/-- 95_test_vectors.md section 2: words written out from the encoding, one for each command. -/
def Obligations.WordsOfTheSpecDecodeToTheirCommands : Prop :=
  decode 0x01000000000003E8 = .ok (.init 1000) ∧
  decode 0x02000000FFFFFFFF = .ok (.setPeriod 4294967295) ∧
  decode 0x0300020000000000 = .ok (.setDuty (.channel .A) 512) ∧
  decode 0x030303FF00000000 = .ok (.setDuty .unrecognized 1023) ∧
  decode 0x040003FF00000000 = .ok (.setDutyAll 1023) ∧
  decode 0x0581010000004E20 = .ok (.pwm (.channel .B) 256 (some 20000)) ∧
  decode 0x0501010000004E20 = .ok (.pwm (.channel .B) 256 none) ∧
  decode 0x0600010000001234 = .ok (.pwmAll 256 none) ∧
  decode 0x0702000000000000 = .ok (.disablePwm (.channel .C)) ∧
  decode 0x0880FFFF00000000 = .ok (.attachInterrupt (some 0xFFFF) (some 0)) ∧
  decode 0x0800000000001234 = .ok (.attachInterrupt none none) ∧
  decode 0x0900000000000000 = .ok .detachInterrupt ∧
  decode 0x0A00000000000000 = .ok .start ∧
  decode 0x0B00000000000000 = .ok .stop ∧
  decode 0x0C00000000000000 = .ok .resume ∧
  decode 0x0D00000000000000 = .ok .read ∧
  decode 0x0E00000000000000 = .error .reservedOpcode ∧
  decode 0x0A80000000000000 = .error .reservedBitsNonzero

/-! ### Steps -/

/-- 10_state.md R41, R43 (the schedule is log 1, the free move log 2, the word port log 5): a step runs the decoded
instruction. Where the schedule's next move is the `ISSUE` of a word that decodes to `i` and the environment may issue
it, or the delivery of that word's bytes, the step is `exec i`; where it is `PHASE`, the step is `exec` of the top
context's command; where the schedule is empty, the move is a free one; and `withFetchWord` brings the first case
about. -/
def Obligations.StepRunsTheDecodedInstruction : Prop :=
  (∀ (s : State) (w : CmdWord) (i : Instr) (rest : List Move),
    s.schedule = .issue w :: rest → s.issueEnabled = true → decode w = .ok i →
      step s = exec i { s with schedule := rest }) ∧
  (∀ (s : State) (bytes : List Byte) (w : CmdWord) (i : Instr) (rest : List Move),
    s.schedule = .deliver bytes :: rest → wordOfBytes bytes = some w → s.issueEnabled = true → decode w = .ok i →
      step s = exec i { s with schedule := rest }) ∧
  (∀ (s : State) (b : Busy) (rest : List Move),
    s.schedule = .phase :: rest → s.topBusy = some b → step s = exec b.cmd { s with schedule := rest }) ∧
  (∀ s : State, s.schedule = [] → step s = takeMove (Config.freeMove s.draws) { s with draws := s.draws + 1 }) ∧
  (∀ (s : State) (i : Instr), i.wellFormed = true →
    step (s.withFetchWord 64 (encode i).toNat) = exec i { s.readyForIssue with schedule := s.schedule })

/-- 10_state.md R44 (log 1): a run of steps takes the moves of the schedule in their order, one a step, and no move
reads or writes the schedule. -/
def Obligations.StepsTakeTheMovesInScheduleOrder : Prop :=
  ∀ (ms rest : List Move) (s : State),
    Sys2Proof.core.run ms.length { s with schedule := ms ++ rest } = runMoves ms { s with schedule := rest }

/-- 60_exceptions.md R220, R221 (the outcomes are log 6 and log 7): a step never faults, a command never stops the
machine, and a step is refused only for an issued word that the decoder refuses. Where the command has no step (a hold,
a context that does not accept it) the answered next state is the unchanged one, which is the model's choice (log 3). -/
def Obligations.OnlyARefusedWordStopsTheMachine : Prop :=
  (∀ (i : Instr) (s : State), ∃ t, exec i s = .next t) ∧
  (∀ (s : State) (r : Fault), step s ≠ .fault r) ∧
  (∀ (s : State) (r : Refusal), step s = .refused r →
    ∃ (w : CmdWord) (e : DecodeError), decode w = .error e ∧ r = refusalOf e ∧
      (s.nextMove.1 = .issue w ∨ ∃ bytes, s.nextMove.1 = .deliver bytes ∧ wordOfBytes bytes = some w))

/-- 10_state.md R41, 60_exceptions.md R236, 20_memory.md R63, R64: issuing. Into a context that accepts it, every
command is issued the same way: `Issue(ctx, cmd)` is recorded, the context becomes busy at the command's first phase
without locals, and nothing else changes. The main context accepts it when idle, an interrupt context when idle with a
handler whose callback is not done. Into any other context there is no `ISSUE` (that the move then changes nothing is
log 3). A word delivered as its eight bytes is issued as the word; bytes that are no whole word deliver no command
(log 16). -/
def Obligations.IssuedCommandWaitsAtItsFirstPhase : Prop :=
  (∀ (i : Instr) (s : State), s.issueEnabled = true →
    exec i s = .next { s with
      history := .issue s.stack.topId i :: s.history
      stack := s.stack.setTopBusy (some ⟨i, 0, ⟨none, none⟩⟩) }) ∧
  (∀ s : State, s.stack.isrs = [] → (s.issueEnabled = true ↔ s.stack.main = none)) ∧
  (∀ (s : State) (c : IsrContext) (below : List IsrContext), s.stack.isrs = c :: below →
    (s.issueEnabled = true ↔ c.busy = none ∧ c.handler ≠ none ∧ c.cbDone = false)) ∧
  (∀ (w : CmdWord) (s : State), s.issueEnabled = false → takeMove (.issue w) s = .next s) ∧
  (∀ (w : CmdWord) (s : State), takeMove (.deliver (bytesOfWord w)) s = takeMove (.issue w) s) ∧
  (∀ (bytes : List Byte) (s : State), bytes.length ≠ 8 → takeMove (.deliver bytes) s = .next s)

/-! ### The period family -/

/-- 40_period.md R112: the smallest prescaler whose tick count is under `RESOLUTION`, the tick count `cycles div p`,
truncating and exact division agreeing, and saturation to `(65535, 5)` from 67,108,864 cycles on. -/
def Obligations.PeriodCalcSelectsTheSmallestPrescaler : Prop :=
  ∀ clockHz us : Nat,
    (67108864 ≤ rawCycles clockHz us → periodCalc clockHz us = (65535, 5)) ∧
    (rawCycles clockHz us < 67108864 →
      ∃ k p, (k, p) ∈ [((1 : PsCode), 1), (2, 8), (3, 64), (4, 256), (5, 1024)] ∧
        periodCalc clockHz us = (rawCycles clockHz us / p, k) ∧ rawCycles clockHz us / p < 65536 ∧
        ∀ k' p', (k', p') ∈ [((1 : PsCode), 1), (2, 8), (3, 64), (4, 256), (5, 1024)] → p' < p →
          ¬ rawCycles clockHz us / p' < 65536) ∧
    (∀ p, p ∈ [1, 8, 64, 256, 1024] →
      (rawCycles clockHz us / p < 65536 ↔ rawCycles clockHz us < 65536 * p))

/-- 40_period.md R117, R118: the prescaler code grows with the request, and within one code so does the top value.
With `K = CLOCK_HZ div 2_000_000 ≥ 1` the requests up to `ceil(67_108_864 / K) − 1` are those that do not saturate, and
every larger one gives `(65535, 5)`; with `K = 0` every request gives `(0, 1)`. -/
def Obligations.PrescalerGrowsWithTheRequestUpToSaturation : Prop :=
  (∀ clockHz us us' : Nat, us ≤ us' →
    (periodCalc clockHz us).2.toNat ≤ (periodCalc clockHz us').2.toNat ∧
    ((periodCalc clockHz us).2 = (periodCalc clockHz us').2 →
      (periodCalc clockHz us).1 ≤ (periodCalc clockHz us').1)) ∧
  (∀ clockHz us : Nat, 1 ≤ clockHz / 2000000 →
    (rawCycles clockHz us < 67108864 ↔
      us ≤ (67108864 + clockHz / 2000000 - 1) / (clockHz / 2000000) - 1) ∧
    ((67108864 + clockHz / 2000000 - 1) / (clockHz / 2000000) - 1 < us →
      periodCalc clockHz us = (65535, 5))) ∧
  (∀ clockHz us : Nat, clockHz / 2000000 = 0 → periodCalc clockHz us = (0, 1))

/-- 40_period.md R115: for a clock that is a multiple of 2 MHz and a request that does not saturate, the requested
period is `2 * cycles` clocks, and the realized one is shorter by `2 * (cycles mod p)`, at most `2 * (p − 1)`. -/
def Obligations.RealizedPeriodFallsShortByTheRemainder : Prop :=
  ∀ clockHz us : Nat, clockHz % 2000000 = 0 → rawCycles clockHz us < 67108864 →
    2 * rawCycles clockHz us * 1000000 = us * clockHz ∧
    2 * rawCycles clockHz us =
      realizedClocks (periodCalc clockHz us).1 (periodCalc clockHz us).2 +
        2 * (rawCycles clockHz us % ratio (periodCalc clockHz us).2) ∧
    2 * (rawCycles clockHz us % ratio (periodCalc clockHz us).2) ≤ 2 * (ratio (periodCalc clockHz us).2 - 1)

/-- 40_period.md R113, R114, R116: the phases of `SET_PERIOD` and of `INITIALIZE`, each with all it writes, in
whatever state the moves of other agents left. The top value fits its register. -/
def Obligations.PeriodPhasesWriteTopPrescalerAndClock : Prop :=
  ∀ (us : Micros) (s : State) (l : Locals),
    (s.topBusy = some ⟨.setPeriod us, 0, l⟩ →
      exec (.setPeriod us) s = .next ({ s with
        top := BitVec.ofNat 16 (periodCalc s.params.clockHz us.toNat).1
        psSel := (periodCalc s.params.clockHz us.toNat).2 }.setTopBusy (some ⟨.setPeriod us, 1, l⟩))) ∧
    (s.topBusy = some ⟨.setPeriod us, 1, l⟩ →
      exec (.setPeriod us) s = .next ({ s with csActive := s.psSel }.complete (.setPeriod us))) ∧
    (s.topBusy = some ⟨.init us, 0, l⟩ →
      exec (.init us) s = .next ({ s with
        csActive := 0
        comEn := ⟨false, false, false⟩ }.setTopBusy (some ⟨.init us, 1, l⟩))) ∧
    (s.topBusy = some ⟨.init us, 1, l⟩ →
      exec (.init us) s = .next ({ s with
        top := BitVec.ofNat 16 (periodCalc s.params.clockHz us.toNat).1
        psSel := (periodCalc s.params.clockHz us.toNat).2 }.setTopBusy (some ⟨.init us, 2, l⟩))) ∧
    (s.topBusy = some ⟨.init us, 2, l⟩ →
      exec (.init us) s = .next ({ s with csActive := s.psSel }.complete (.init us))) ∧
    (periodCalc s.params.clockHz us.toNat).1 < 65536

/-- 40_period.md R113, R116, 70_reset_and_hazards.md R256: issued into a context that accepts it and run with no other
move between, `SET_PERIOD` and `INITIALIZE` end with the new top value and prescaler and the clock connected (a
code from 1 to 5), `INITIALIZE` with the outputs disabled, and nothing else is changed but the history. -/
def Obligations.PeriodCommandsEndWithTheNewPeriodRunning : Prop :=
  ∀ (us : Micros) (s : State), s.issueEnabled = true →
    execChain 3 (.setPeriod us) s = .next { s with
      top := BitVec.ofNat 16 (periodCalc s.params.clockHz us.toNat).1
      psSel := (periodCalc s.params.clockHz us.toNat).2
      csActive := (periodCalc s.params.clockHz us.toNat).2
      history := .complete s.stack.topId (.setPeriod us) :: .issue s.stack.topId (.setPeriod us) :: s.history } ∧
    execChain 4 (.init us) s = .next { s with
      top := BitVec.ofNat 16 (periodCalc s.params.clockHz us.toNat).1
      psSel := (periodCalc s.params.clockHz us.toNat).2
      csActive := (periodCalc s.params.clockHz us.toNat).2
      comEn := ⟨false, false, false⟩
      history := .complete s.stack.topId (.init us) :: .issue s.stack.topId (.init us) :: s.history } ∧
    1 ≤ (periodCalc s.params.clockHz us.toNat).2.toNat ∧ (periodCalc s.params.clockHz us.toNat).2.toNat ≤ 5

/-! ### The duty and PWM family -/

/-- 41_duty_pwm.md R130: the mapping and its bounds. -/
def Obligations.DutyCompareStaysBelowTheTop : Prop :=
  ∀ top duty : Nat, top < 65536 → duty < 1024 →
    dutyCompare top duty = (top * duty) >>> 10 ∧ dutyCompare top 0 = 0 ∧
    dutyCompare top duty ≤ top ∧ (1 ≤ top → dutyCompare top duty < top) ∧
    dutyCompare top 1023 = top - (top + 1023) / 1024 ∧ dutyCompare top duty ≤ 65471 ∧
    dutyCompare 65535 1023 = 65471 ∧ (top ≤ 1 → dutyCompare top duty = 0)

/-- 41_duty_pwm.md R131, R132, 20_memory.md R65: the phases of `SET_DUTY` on a channel and of `SET_DUTY_ALL`, each with
all it writes; the three compare values of `SET_DUTY_ALL` change in one step. -/
def Obligations.DutyPhasesWriteTheCompareThenEnable : Prop :=
  ∀ (ch : Channel) (d : DutyFraction) (s : State) (l : Locals),
    (s.topBusy = some ⟨.setDuty (.channel ch) d, 0, l⟩ →
      exec (.setDuty (.channel ch) d) s = .next ({ s with
        ocr := s.ocr.set ch (BitVec.ofNat 16 (s.top.toNat * d.toNat / 1024))
        duty := s.duty.set ch d }.setTopBusy (some ⟨.setDuty (.channel ch) d, 1, l⟩))) ∧
    (s.topBusy = some ⟨.setDuty (.channel ch) d, 1, l⟩ →
      exec (.setDuty (.channel ch) d) s = .next ({ s with
        pinDir := s.pinDir.set ch true
        comEn := s.comEn.set ch true }.complete (.setDuty (.channel ch) d))) ∧
    (s.topBusy = some ⟨.setDutyAll d, 0, l⟩ →
      exec (.setDutyAll d) s = .next ({ s with
        ocr := ⟨BitVec.ofNat 16 (s.top.toNat * d.toNat / 1024), BitVec.ofNat 16 (s.top.toNat * d.toNat / 1024),
          BitVec.ofNat 16 (s.top.toNat * d.toNat / 1024)⟩
        duty := ⟨d, d, d⟩ }.setTopBusy (some ⟨.setDutyAll d, 1, l⟩))) ∧
    (s.topBusy = some ⟨.setDutyAll d, 1, l⟩ →
      exec (.setDutyAll d) s = .next ({ s with
        pinDir := ⟨true, true, true⟩
        comEn := ⟨true, true, true⟩ }.complete (.setDutyAll d)))

/-- 41_duty_pwm.md R133, R134: issued into a context that accepts it and run with no other move between, `PWM` on a channel
enables the channel, sets its compare value under the period's top value (the new one when a period is given) and
reconnects the clock, and changes nothing else but the history. `PWM_ALL` does the same for the three channels. -/
def Obligations.PwmEndsWithTheChannelDrivenAndTheClockConnected : Prop :=
  ∀ (ch : Channel) (d : DutyFraction) (us : Micros) (s : State), s.issueEnabled = true →
    execChain 5 (.pwm (.channel ch) d none) s = .next { s with
      csActive := s.psSel
      ocr := s.ocr.set ch (BitVec.ofNat 16 (s.top.toNat * d.toNat / 1024))
      duty := s.duty.set ch d
      pinDir := s.pinDir.set ch true
      comEn := s.comEn.set ch true
      history := .complete s.stack.topId (.pwm (.channel ch) d none) ::
        .issue s.stack.topId (.pwm (.channel ch) d none) :: s.history } ∧
    execChain 7 (.pwm (.channel ch) d (some us)) s = .next { s with
      top := BitVec.ofNat 16 (periodCalc s.params.clockHz us.toNat).1
      psSel := (periodCalc s.params.clockHz us.toNat).2
      csActive := (periodCalc s.params.clockHz us.toNat).2
      ocr := s.ocr.set ch (BitVec.ofNat 16 ((periodCalc s.params.clockHz us.toNat).1 * d.toNat / 1024))
      duty := s.duty.set ch d
      pinDir := s.pinDir.set ch true
      comEn := s.comEn.set ch true
      history := .complete s.stack.topId (.pwm (.channel ch) d (some us)) ::
        .issue s.stack.topId (.pwm (.channel ch) d (some us)) :: s.history } ∧
    execChain 5 (.pwmAll d none) s = .next { s with
      csActive := s.psSel
      ocr := ⟨BitVec.ofNat 16 (s.top.toNat * d.toNat / 1024), BitVec.ofNat 16 (s.top.toNat * d.toNat / 1024),
        BitVec.ofNat 16 (s.top.toNat * d.toNat / 1024)⟩
      duty := ⟨d, d, d⟩
      pinDir := ⟨true, true, true⟩
      comEn := ⟨true, true, true⟩
      history := .complete s.stack.topId (.pwmAll d none) :: .issue s.stack.topId (.pwmAll d none) :: s.history } ∧
    execChain 7 (.pwmAll d (some us)) s = .next { s with
      top := BitVec.ofNat 16 (periodCalc s.params.clockHz us.toNat).1
      psSel := (periodCalc s.params.clockHz us.toNat).2
      csActive := (periodCalc s.params.clockHz us.toNat).2
      ocr := ⟨BitVec.ofNat 16 ((periodCalc s.params.clockHz us.toNat).1 * d.toNat / 1024),
        BitVec.ofNat 16 ((periodCalc s.params.clockHz us.toNat).1 * d.toNat / 1024),
        BitVec.ofNat 16 ((periodCalc s.params.clockHz us.toNat).1 * d.toNat / 1024)⟩
      duty := ⟨d, d, d⟩
      pinDir := ⟨true, true, true⟩
      comEn := ⟨true, true, true⟩
      history := .complete s.stack.topId (.pwmAll d (some us)) ::
        .issue s.stack.topId (.pwmAll d (some us)) :: s.history }

/-- 41_duty_pwm.md R133, R134: each phase of `PWM` and `PWM_ALL` in the order the rules give, with all it writes, in
whatever state the moves of other agents left. -/
def Obligations.PwmPhasesComeInTheirOrder : Prop :=
  ∀ (ch : Channel) (d : DutyFraction) (s : State) (l : Locals),
    (∀ us : Micros,
      (s.topBusy = some ⟨.pwm (.channel ch) d (some us), 0, l⟩ →
        exec (.pwm (.channel ch) d (some us)) s = .next ({ s with
          top := BitVec.ofNat 16 (periodCalc s.params.clockHz us.toNat).1
          psSel := (periodCalc s.params.clockHz us.toNat).2 }.setTopBusy
            (some ⟨.pwm (.channel ch) d (some us), 1, l⟩))) ∧
      (s.topBusy = some ⟨.pwm (.channel ch) d (some us), 1, l⟩ →
        exec (.pwm (.channel ch) d (some us)) s = .next ({ s with csActive := s.psSel }.setTopBusy
          (some ⟨.pwm (.channel ch) d (some us), 2, l⟩))) ∧
      (s.topBusy = some ⟨.pwmAll d (some us), 0, l⟩ →
        exec (.pwmAll d (some us)) s = .next ({ s with
          top := BitVec.ofNat 16 (periodCalc s.params.clockHz us.toNat).1
          psSel := (periodCalc s.params.clockHz us.toNat).2 }.setTopBusy (some ⟨.pwmAll d (some us), 1, l⟩))) ∧
      (s.topBusy = some ⟨.pwmAll d (some us), 1, l⟩ →
        exec (.pwmAll d (some us)) s = .next ({ s with csActive := s.psSel }.setTopBusy
          (some ⟨.pwmAll d (some us), 2, l⟩)))) ∧
    (∀ (period : Option Micros) (k : Nat), k = (if period = none then 0 else 2) →
      (s.topBusy = some ⟨.pwm (.channel ch) d period, k, l⟩ →
        exec (.pwm (.channel ch) d period) s = .next ({ s with
          pinDir := s.pinDir.set ch true
          comEn := s.comEn.set ch true }.setTopBusy (some ⟨.pwm (.channel ch) d period, k + 1, l⟩))) ∧
      (s.topBusy = some ⟨.pwm (.channel ch) d period, k + 1, l⟩ →
        exec (.pwm (.channel ch) d period) s = .next ({ s with
          ocr := s.ocr.set ch (BitVec.ofNat 16 (s.top.toNat * d.toNat / 1024))
          duty := s.duty.set ch d }.setTopBusy (some ⟨.pwm (.channel ch) d period, k + 2, l⟩))) ∧
      (s.topBusy = some ⟨.pwm (.channel ch) d period, k + 2, l⟩ →
        exec (.pwm (.channel ch) d period) s = .next ({ s with
          pinDir := s.pinDir.set ch true
          comEn := s.comEn.set ch true }.setTopBusy (some ⟨.pwm (.channel ch) d period, k + 3, l⟩))) ∧
      (s.topBusy = some ⟨.pwm (.channel ch) d period, k + 3, l⟩ →
        exec (.pwm (.channel ch) d period) s =
          .next ({ s with csActive := s.psSel }.complete (.pwm (.channel ch) d period))) ∧
      (s.topBusy = some ⟨.pwmAll d period, k, l⟩ →
        exec (.pwmAll d period) s = .next ({ s with
          pinDir := ⟨true, true, true⟩
          comEn := ⟨true, true, true⟩ }.setTopBusy (some ⟨.pwmAll d period, k + 1, l⟩))) ∧
      (s.topBusy = some ⟨.pwmAll d period, k + 1, l⟩ →
        exec (.pwmAll d period) s = .next ({ s with
          ocr := ⟨BitVec.ofNat 16 (s.top.toNat * d.toNat / 1024), BitVec.ofNat 16 (s.top.toNat * d.toNat / 1024),
            BitVec.ofNat 16 (s.top.toNat * d.toNat / 1024)⟩
          duty := ⟨d, d, d⟩ }.setTopBusy (some ⟨.pwmAll d period, k + 2, l⟩))) ∧
      (s.topBusy = some ⟨.pwmAll d period, k + 2, l⟩ →
        exec (.pwmAll d period) s = .next ({ s with
          pinDir := ⟨true, true, true⟩
          comEn := ⟨true, true, true⟩ }.setTopBusy (some ⟨.pwmAll d period, k + 3, l⟩))) ∧
      (s.topBusy = some ⟨.pwmAll d period, k + 3, l⟩ →
        exec (.pwmAll d period) s = .next ({ s with csActive := s.psSel }.complete (.pwmAll d period))))

/-- 41_duty_pwm.md R135: `DISABLE_PWM` on a channel has the word of its rule, clears the channel's `COM_EN` alone, is
idempotent, and leaves the pin to the port where it is an output; on the unrecognized channel it writes nothing. -/
def Obligations.DisablePwmClearsOnlyTheOutputEnable : Prop :=
  (∀ ch : ChanSel,
    decode (0x0700000000000000 ||| (ch.code.zeroExtend 64 <<< 48)) = .ok (.disablePwm ch)) ∧
  (∀ (ch : Channel) (s : State) (l : Locals), s.topBusy = some ⟨.disablePwm (.channel ch), 0, l⟩ →
    exec (.disablePwm (.channel ch)) s =
      .next ({ s with comEn := s.comEn.set ch false }.complete (.disablePwm (.channel ch)))) ∧
  (∀ (s : State) (l : Locals), s.topBusy = some ⟨.disablePwm .unrecognized, 0, l⟩ →
    exec (.disablePwm .unrecognized) s = .next (s.complete (.disablePwm .unrecognized))) ∧
  (∀ (ch : Channel) (s t u : State), s.issueEnabled = true →
    execChain 2 (.disablePwm (.channel ch)) s = .next t → execChain 2 (.disablePwm (.channel ch)) t = .next u →
      u = { t with history := u.history } ∧ t.pin ch = (if s.pinDir.get ch then .portDriven else .input))

/-- 41_duty_pwm.md R136: a duty, PWM or disable command for the unrecognized channel completes in one sequencer step
that writes nothing but the context's `busy` (and records `Complete`), whatever its other operands are. -/
def Obligations.UnrecognizedChannelIsANoOp : Prop :=
  ∀ (i : Instr) (d : DutyFraction) (period : Option Micros) (s : State) (l : Locals),
    (i = .setDuty .unrecognized d ∨ i = .pwm .unrecognized d period ∨ i = .disablePwm .unrecognized) →
      s.topBusy = some ⟨i, 0, l⟩ →
        exec i s = .next { s with
          history := .complete s.stack.topId i :: s.history
          stack := s.stack.setTopBusy none }

/-- 41_duty_pwm.md R137, R138: `OC_LEVEL[ch]` is 1 exactly while `CNT < OCR[ch]`, and a tick toggles it exactly at the
compare match: it falls on the ascending tick where `CNT` reaches `OCR[ch]` and rises on the descending tick where
`CNT` falls below `OCR[ch]`. The pin shows it where the channel is an output with its compare output enabled; it is an
input where it is no output, and the port drives it where the compare output is disabled. The physical pin of
`PIN_MAP` (00_scope.md R6; log 17) shows the pin of its channel. -/
def Obligations.OutputLevelTogglesAtTheMatchAndDrivesThePin : Prop :=
  ∀ (s : State) (ch : Channel),
    (s.ocLevel ch = true ↔ s.cnt.toNat < (s.ocr.get ch).toNat) ∧
    ((s.ocLevel ch = true ∧ s.tick.ocLevel ch = false) ↔
      (s.tick.cnt.toNat = s.cnt.toNat + 1 ∧ s.tick.cnt = s.ocr.get ch)) ∧
    ((s.ocLevel ch = false ∧ s.tick.ocLevel ch = true) ↔
      (s.tick.cnt.toNat + 1 = s.cnt.toNat ∧ s.cnt = s.ocr.get ch)) ∧
    (s.pinDir.get ch = false → s.pin ch = .input) ∧
    (s.pinDir.get ch = true → s.comEn.get ch = true → s.pin ch = .drive (s.ocLevel ch)) ∧
    (s.pinDir.get ch = true → s.comEn.get ch = false → s.pin ch = .portDriven) ∧
    (s.params.wellFormed = true → s.physicalPin (s.params.pinMap.get ch) = some (s.pin ch))

/-- 41_duty_pwm.md R140: over one full cycle from the bottom with `TOP = T ≥ 1` and `OCR[ch] = C ≤ T`, the level is 1
in `2C − 1` of the `2T` states, and in none when `C = 0`. -/
def Obligations.RealisedDutyOverOneCycle : Prop :=
  ∀ (s : State) (ch : Channel), s.cnt = 0 → s.dir = .up → 1 ≤ s.top.toNat →
    (s.ocr.get ch).toNat ≤ s.top.toNat →
      ((List.range (2 * s.top.toNat)).filter fun k => (s.ticks k).ocLevel ch).length =
        2 * (s.ocr.get ch).toNat - 1

/-! ### The counter -/

/-- 42_run_state.md R161: `TICK` is enabled exactly when `CS_ACTIVE ≠ 0`; what one tick does, case by case, with all it
leaves unchanged. -/
def Obligations.TickCountsUpReversesAndCountsDown : Prop :=
  ∀ s : State,
    (enabled .tick s = true ↔ s.csActive ≠ 0) ∧
    (s.csActive ≠ 0 → s.dir = .up ∧ s.cnt.toNat < s.top.toNat →
      takeMove .tick s = .next { s with cnt := s.cnt + 1 } ∧ (s.cnt + 1).toNat = s.cnt.toNat + 1) ∧
    (s.csActive ≠ 0 → ¬(s.dir = .up ∧ s.cnt.toNat < s.top.toNat) → s.cnt.toNat = 0 →
      takeMove .tick s = .next { s with evtPending := true, history := .bottom :: s.history }) ∧
    (s.csActive ≠ 0 → ¬(s.dir = .up ∧ s.cnt.toNat < s.top.toNat) → s.cnt.toNat = 1 →
      takeMove .tick s =
        .next { s with cnt := 0, dir := .up, evtPending := true, history := .bottom :: s.history }) ∧
    (s.csActive ≠ 0 → ¬(s.dir = .up ∧ s.cnt.toNat < s.top.toNat) → 2 ≤ s.cnt.toNat →
      takeMove .tick s = .next { s with cnt := s.cnt - 1, dir := .down } ∧
        (s.cnt - 1).toNat = s.cnt.toNat - 1)

/-- 42_run_state.md R170, R162: from the bottom with constant `TOP = T ≥ 1`, after `k` ticks with `m = k mod 2T` the
counter is `m` on the way up and `2T − m` on the way down, and one bottom event has come for each full cycle; nothing
but the counter, the direction, the event flag and the history has changed. -/
def Obligations.CounterIsATriangleWithOneBottomEventACycle : Prop :=
  ∀ (s : State) (k : Nat), s.csActive ≠ 0 → s.cnt = 0 → s.dir = .up → 1 ≤ s.top.toNat →
    ∃ t, runMoves (List.replicate k .tick) s = .next t ∧ t = s.ticks k ∧
      t.cnt.toNat = (if k % (2 * s.top.toNat) ≤ s.top.toNat then k % (2 * s.top.toNat)
        else 2 * s.top.toNat - k % (2 * s.top.toNat)) ∧
      t.history = List.replicate (k / (2 * s.top.toNat)) .bottom ++ s.history ∧
      t.evtPending = (s.evtPending || decide (2 * s.top.toNat ≤ k)) ∧
      t = { s with cnt := t.cnt, dir := t.dir, evtPending := t.evtPending, history := t.history }

/-- 42_run_state.md R163, R164: with `TOP = 0` the counter stays at 0 counting up, and every tick is a bottom event. A
counter above a lowered `TOP` reverses on its next ascending tick and descends one a tick; its bottom event comes on
the tick whose number is the counter's old value. -/
def Obligations.TopZeroAndOvershootReachTheBottom : Prop :=
  ∀ (s : State) (k : Nat), s.csActive ≠ 0 →
    (s.cnt = 0 → s.dir = .up → s.top = 0 →
      runMoves (List.replicate (k + 1) .tick) s =
        .next { s with evtPending := true, history := List.replicate (k + 1) .bottom ++ s.history }) ∧
    (s.top.toNat < s.cnt.toNat → 1 ≤ k → k < s.cnt.toNat →
      ∃ t, runMoves (List.replicate k .tick) s = .next t ∧ t.cnt.toNat = s.cnt.toNat - k ∧ t.dir = .down ∧
        t.history = s.history ∧ t.evtPending = s.evtPending) ∧
    (s.top.toNat < s.cnt.toNat → k = s.cnt.toNat →
      ∃ t, runMoves (List.replicate k .tick) s = .next t ∧ t.cnt = 0 ∧ t.dir = .up ∧
        t.history = .bottom :: s.history ∧ t.evtPending = true)

/-! ### The run state -/

/-- 42_run_state.md R166: the phases of `START`, each with all it writes; the last is enabled only while
`CNT ≠ 0`, and completes then with nothing else written. While `CNT = 0` the context makes no step (that the move
changes nothing is log 3). -/
def Obligations.StartPhasesRestartTheCounter : Prop :=
  ∀ (s : State) (l : Locals),
    (s.topBusy = some ⟨.start, 0, l⟩ →
      exec .start s = .next ({ s with ie := false }.setTopBusy (some ⟨.start, 1, l⟩))) ∧
    (s.topBusy = some ⟨.start, 1, l⟩ →
      exec .start s = .next ({ s with history := .prescalerReset :: s.history }.setTopBusy
        (some ⟨.start, 2, l⟩))) ∧
    (s.topBusy = some ⟨.start, 2, l⟩ →
      exec .start s = .next ({ s with cnt := 0, dir := .up }.setTopBusy (some ⟨.start, 3, l⟩))) ∧
    (s.topBusy = some ⟨.start, 3, l⟩ →
      exec .start s = .next ({ s with csActive := s.psSel }.setTopBusy (some ⟨.start, 4, l⟩))) ∧
    (s.topBusy = some ⟨.start, 4, l⟩ → s.cnt ≠ 0 → exec .start s = .next (s.complete .start)) ∧
    (s.topBusy = some ⟨.start, 4, l⟩ → s.cnt = 0 → enabled .phase s = false ∧ takeMove .phase s = .next s)

/-- 42_run_state.md R171, R166: from any state with `TOP ≥ 1` and a selected prescaler, `START` with one tick in its
wait completes with `CNT = 1`, counting up, the clock connected, `IE = 0` and one `PrescalerReset`; the event flag is
not cleared and nothing else is changed. -/
def Obligations.StartCompletesAfterOneTickWithANonzeroCounter : Prop :=
  ∀ s : State, s.issueEnabled = true → 1 ≤ s.top.toNat → s.psSel ≠ 0 →
    runMoves [.issue (encode .start), .phase, .phase, .phase, .phase, .tick, .phase] s = .next { s with
      ie := false
      cnt := 1
      dir := .up
      csActive := s.psSel
      history := .complete s.stack.topId .start :: .prescalerReset :: .issue s.stack.topId .start :: s.history }

/-- 42_run_state.md R171, 70_reset_and_hazards.md R258: `START` in its wait with `IE = 0` and `CNT = 0` never
completes when `TOP = 0` or no clock is connected, whatever moves come. -/
def Obligations.StartNeverCompletesWithoutACountingClock : Prop :=
  ∀ (s t : State) (l : Locals) (ms : List Move),
    s.topBusy = some ⟨.start, 4, l⟩ → s.ie = false → s.cnt = 0 → (s.top = 0 ∨ s.csActive = 0) →
      runMoves ms s = .next t →
        t.topBusy = some ⟨.start, 4, l⟩ ∧ t.cnt = 0 ∧ t.waits

/-- 42_run_state.md R167: `STOP` has the word of its rule, disconnects the clock and writes nothing else, so the
counter keeps its value and direction, the outputs keep their level and no tick is enabled; on a stopped counter it
leaves every register as it was; `RESUME` after it connects the selected prescaler at the same value and direction. -/
def Obligations.StopFreezesTheCounter : Prop :=
  decode 0x0B00000000000000 = .ok .stop ∧
  (∀ (s : State) (l : Locals), s.topBusy = some ⟨.stop, 0, l⟩ →
    exec .stop s = .next ({ s with csActive := 0 }.complete .stop)) ∧
  (∀ s t : State, s.issueEnabled = true → execChain 2 .stop s = .next t →
    t = { s with csActive := 0, history := t.history } ∧ enabled .tick t = false ∧
    (∀ ch, t.ocLevel ch = s.ocLevel ch) ∧ (s.csActive = 0 → t = { s with history := t.history }) ∧
    (∀ u, execChain 2 .resume t = .next u → u.csActive = s.psSel ∧ u.cnt = s.cnt ∧ u.dir = s.dir))

/-- 42_run_state.md R168: `RESUME` has the word of its rule, connects the selected prescaler and writes nothing else;
with none selected the counter stays Stopped, and when Running it changes nothing but the history where `CS_ACTIVE` is
the selected prescaler already. After `STOP` and `RESUME` the counter goes on from where it stood. -/
def Obligations.ResumeReconnectsTheSelectedPrescaler : Prop :=
  decode 0x0C00000000000000 = .ok .resume ∧
  (∀ (s : State) (l : Locals), s.topBusy = some ⟨.resume, 0, l⟩ →
    exec .resume s = .next ({ s with csActive := s.psSel }.complete .resume)) ∧
  (∀ s t : State, s.issueEnabled = true → execChain 2 .resume s = .next t →
    t = { s with csActive := s.psSel, history := t.history } ∧
    (t.runState = .running ↔ s.psSel ≠ 0) ∧ (s.csActive = s.psSel → t = { s with history := t.history })) ∧
  (∀ s t u : State, s.issueEnabled = true → execChain 2 .stop s = .next t → execChain 2 .resume t = .next u →
    u.cnt = s.cnt ∧ u.dir = s.dir ∧ u.ie = s.ie ∧ u.evtPending = s.evtPending ∧ u.csActive = s.psSel)

/-! ### The interrupt -/

/-- 43_interrupt.md R190: the phases of `ATTACH_INTERRUPT`: the period phases when a period is given, then the slot,
then the enable bit, each with all it writes; neither `GIE` nor `EVT_PENDING` is among them, and a flag left from
before makes `IRQ` 1 at once. -/
def Obligations.AttachStoresTheCallbackThenEnables : Prop :=
  ∀ (cb : Option HandlerId) (s : State) (l : Locals),
    (∀ us : Micros,
      (s.topBusy = some ⟨.attachInterrupt cb (some us), 0, l⟩ →
        exec (.attachInterrupt cb (some us)) s = .next ({ s with
          top := BitVec.ofNat 16 (periodCalc s.params.clockHz us.toNat).1
          psSel := (periodCalc s.params.clockHz us.toNat).2 }.setTopBusy
            (some ⟨.attachInterrupt cb (some us), 1, l⟩))) ∧
      (s.topBusy = some ⟨.attachInterrupt cb (some us), 1, l⟩ →
        exec (.attachInterrupt cb (some us)) s = .next ({ s with csActive := s.psSel }.setTopBusy
          (some ⟨.attachInterrupt cb (some us), 2, l⟩)))) ∧
    (∀ (period : Option Micros) (k : Nat), k = (if period = none then 0 else 2) →
      (s.topBusy = some ⟨.attachInterrupt cb period, k, l⟩ →
        exec (.attachInterrupt cb period) s = .next ({ s with slot := cb }.setTopBusy
          (some ⟨.attachInterrupt cb period, k + 1, l⟩))) ∧
      (s.topBusy = some ⟨.attachInterrupt cb period, k + 1, l⟩ →
        exec (.attachInterrupt cb period) s =
          .next ({ s with ie := true }.complete (.attachInterrupt cb period)) ∧
        ({ s with ie := true }.complete (.attachInterrupt cb period)).irq = s.evtPending))

/-- 43_interrupt.md R191: `DETACH_INTERRUPT` has the word of its rule, clears `IE` and writes nothing else (the slot,
the clock and the event flag are kept), is idempotent, and after it the counter runs on and bottom events are latched as
without it while no dispatch is enabled, until `ATTACH_INTERRUPT` makes a latched event a request. -/
def Obligations.DetachStopsOnlyTheNotification : Prop :=
  decode 0x0900000000000000 = .ok .detachInterrupt ∧
  (∀ (s : State) (l : Locals), s.topBusy = some ⟨.detachInterrupt, 0, l⟩ →
    exec .detachInterrupt s = .next ({ s with ie := false }.complete .detachInterrupt)) ∧
  (∀ s t : State, s.issueEnabled = true → execChain 2 .detachInterrupt s = .next t →
    t = { s with ie := false, history := t.history } ∧
    (∀ u, execChain 2 .detachInterrupt t = .next u → u = { t with history := u.history }) ∧
    (∀ n, (t.ticks n).ie = false ∧ (t.ticks n).slot = s.slot ∧ enabled .dispatch (t.ticks n) = false ∧
      (t.ticks n).cnt = (s.ticks n).cnt ∧ (t.ticks n).evtPending = (s.ticks n).evtPending ∧
      (∀ cb u, execChain 3 (.attachInterrupt cb none) (t.ticks n) = .next u → u.irq = (t.ticks n).evtPending)))

/-- 60_exceptions.md R224, R225, R226: `IRQ` is `EVT_PENDING ∧ IE`; the interrupt entry is enabled exactly when
`IRQ = 1` and `GIE = 1`, whatever the contexts are doing; it clears the flag, masks `GIE`, pushes an idle context with
the handler and the saved `GIE`, and records `Dispatch(h)` and `Call(x)`. The suspended contexts and every other piece
of state are as they were. -/
def Obligations.InterruptEntrySavesMasksAndCalls : Prop :=
  ∀ s : State,
    (s.irq = true ↔ s.evtPending = true ∧ s.ie = true) ∧
    (enabled .dispatch s = true ↔ s.irq = true ∧ s.gie = true) ∧
    (s.irq = true → s.gie = true →
      (s.slot = none → takeMove .dispatch s = .next { s with
        evtPending := false
        gie := false
        stack := { s.stack with isrs := ⟨none, true, none, true⟩ :: s.stack.isrs }
        history := .dispatch none :: s.history }) ∧
      (∀ x, s.slot = some x → takeMove .dispatch s = .next { s with
        evtPending := false
        gie := false
        stack := { s.stack with isrs := ⟨none, true, some x, false⟩ :: s.stack.isrs }
        history := .call x :: .dispatch (some x) :: s.history }))

/-- 60_exceptions.md R229: the interrupt return is enabled exactly when the top context is an interrupt context,
idle, with its callback done; it pops the context, restores its saved `GIE` (which is 1 where every context is legal,
as every step keeps it) and records `IsrReturn`; everything else, a pending event too, stays, and such an event can
then be dispatched. -/
def Obligations.InterruptReturnPopsAndRestoresGie : Prop :=
  ∀ s : State,
    (enabled .isrReturn s = true ↔
      ∃ c below, s.stack.isrs = c :: below ∧ c.busy = none ∧ c.cbDone = true) ∧
    (∀ (c : IsrContext) (below : List IsrContext),
      s.stack.isrs = c :: below → c.busy = none → c.cbDone = true →
        ∃ t, takeMove .isrReturn s = .next t ∧
          t = { s with
            gie := c.savedGie
            stack := { s.stack with isrs := below }
            history := .isrReturn :: s.history } ∧
          (ContextInv s → t.gie = true ∧ (s.irq = true → enabled .dispatch t = true)))

/-- 60_exceptions.md R226, R227, R229 (vector I1): from a state with the interrupt requested and enabled and a handler
stored, entry, the end of the callback and return come back to the same state, with the event flag cleared and exactly
one `Call` of the handler recorded; a suspended command is where it stood. -/
def Obligations.EntryAndReturnResumeTheSuspendedContext : Prop :=
  ∀ (s : State) (x : HandlerId), s.irq = true → s.gie = true → s.slot = some x →
    runMoves [.dispatch, .cbDone, .isrReturn] s = .next { s with
      evtPending := false
      history := .isrReturn :: .call x :: .dispatch (some x) :: s.history }

/-- 60_exceptions.md R223 (vector I4): bottom events coalesce. However many come before the dispatch, one dispatch
answers them all, and after it and its return no dispatch is enabled until the next bottom event: the `DISPATCH` that
ends the list changes nothing (that a move that is not enabled changes nothing is log 3). -/
def Obligations.BottomEventsCoalesceIntoOneDispatch : Prop :=
  ∀ (s : State) (x : HandlerId) (n : Nat), s.csActive ≠ 0 → s.ie = true → s.gie = true → s.slot = some x →
    (s.ticks n).evtPending = true →
      ∃ t, runMoves (List.replicate n .tick ++ [.dispatch, .cbDone, .isrReturn, .dispatch]) s = .next t ∧
        t.history = .isrReturn :: .call x :: .dispatch (some x) :: (s.ticks n).history ∧
        t.stack = s.stack ∧ t.evtPending = false ∧ t.gie = true

/-- 60_exceptions.md R230 (vector I8): a second entry inside an interrupt context happens once the callback has set
`GIE = 1` and a new event is requested, and it pushes one more context. -/
def Obligations.NestedEntryNeedsTheCallbackToEnableGie : Prop :=
  ∀ (s : State) (c : IsrContext) (below : List IsrContext),
    s.stack.isrs = c :: below → c.busy = none → c.cbDone = false → s.irq = true → s.gie = false →
      enabled .dispatch s = false ∧
      ∃ t, runMoves [.setGie true, .dispatch] s = .next t ∧
        t.stack.isrs = ⟨none, true, s.slot, s.slot.isNone⟩ :: c :: below ∧ t.gie = false ∧ t.evtPending = false

/-- 60_exceptions.md R236: when the environment may set `GIE` or end a callback, and what each does. That a move of any
agent changes nothing where it is not enabled is the model's choice (log 3). -/
def Obligations.EnvironmentMovesChangeOnlyGieAndTheCallback : Prop :=
  ∀ s : State,
    (∀ v, enabled (.setGie v) s = true → takeMove (.setGie v) s = .next { s with gie := v }) ∧
    (∀ m, enabled m s = false → takeMove m s = .next s) ∧
    (∀ v, s.stack.isrs = [] → (enabled (.setGie v) s = true ↔ s.stack.main = none)) ∧
    (s.stack.isrs = [] → enabled .cbDone s = false) ∧
    (∀ (c : IsrContext) (below : List IsrContext), s.stack.isrs = c :: below →
      (∀ v, enabled (.setGie v) s = true ↔ c.busy = none ∧ c.cbDone = false) ∧
      (enabled .cbDone s = true ↔ c.busy = none ∧ c.cbDone = false) ∧
      (enabled .cbDone s = true → takeMove .cbDone s =
        .next { s with stack := { s.stack with isrs := { c with cbDone := true } :: below } }))

/-- 43_interrupt.md R192, 10_state.md R36: no command reads or writes `GIE`: with another value of `GIE` every step of
every command is the same but for that value. It may be issued into an interrupt context as into the main one, and
with `GIE = 0` no dispatch is enabled. -/
def Obligations.NoCommandReadsOrWritesGie : Prop :=
  (∀ (i : Instr) (s t : State) (v : Bool), exec i s = .next t →
    t.gie = s.gie ∧ exec i { s with gie := v } = .next { t with gie := v }) ∧
  (∀ (i : Instr) (s : State), s.stack.isrs = [] → s.stack.main = none →
    exec i s = .next (s.issue i)) ∧
  (∀ (i : Instr) (s : State) (c : IsrContext) (below : List IsrContext),
    s.stack.isrs = c :: below → c.busy = none → c.handler ≠ none → c.cbDone = false →
      exec i s = .next (s.issue i)) ∧
  (∀ s : State, s.gie = false → enabled .dispatch s = false)

/-- 70_reset_and_hazards.md R262 (vectors I2, I3): a bottom event that comes while `IE = 0` stays pending through
`START`'s phases and makes `IRQ` 1 once `ATTACH_INTERRUPT` has run. -/
def Obligations.StaleEventIsRequestedAfterAttach : Prop :=
  ∀ (s : State) (cb : Option HandlerId), s.issueEnabled = true → s.evtPending = true →
    1 ≤ s.top.toNat → s.psSel ≠ 0 → cb ≠ some 0 →
      ∃ t, runMoves [.issue (encode .start), .phase, .phase, .phase, .phase, .tick, .phase,
          .issue (encode (.attachInterrupt cb none)), .phase, .phase] s = .next t ∧
        t.irq = true ∧ t.slot = cb ∧ (s.gie = true → enabled .dispatch t = true)

/-- 70_reset_and_hazards.md R260: a `STOP` that a callback issues between SP1 and SP2 of a `SET_PERIOD` it preempted
is undone by SP2, and the period command completes as if it had not come. -/
def Obligations.StopInsideAPeriodCommandIsUndone : Prop :=
  ∀ (s : State) (us : Micros) (l : Locals) (x : HandlerId),
    s.topBusy = some ⟨.setPeriod us, 1, l⟩ → s.irq = true → s.gie = true → s.slot = some x →
      ∃ t u, runMoves [.dispatch, .issue (encode .stop), .phase, .cbDone, .isrReturn] s = .next t ∧
        t.csActive = 0 ∧ t.topBusy = some ⟨.setPeriod us, 1, l⟩ ∧
        runMoves [.phase] t = .next u ∧ u.csActive = s.psSel ∧ u.topBusy = none

/-! ### Readback -/

/-- 44_readback.md R200, R201: the phases of `READ`: the first sample, the second once the counter has changed, and
the result. The ticks are the first sample when ascending and `2 * TOP − s2` when descending; where `s2 > 2 * TOP`
they are a free natural (the free value is log 10). No register is written. While the counter has not changed the
context makes no step (that the move changes nothing is log 3). -/
def Obligations.ReadSamplesTwiceAndDeliversTheElapsedTime : Prop :=
  ∀ (s : State) (l : Locals) (s1 s2 : Half),
    (s.topBusy = some ⟨.read, 0, l⟩ →
      exec .read s = .next (s.setTopBusy (some ⟨.read, 1, ⟨some s.cnt, l.s2⟩⟩))) ∧
    (s.topBusy = some ⟨.read, 1, ⟨some s1, l.s2⟩⟩ → s.cnt ≠ s1 →
      exec .read s = .next (s.setTopBusy (some ⟨.read, 2, ⟨some s1, some s.cnt⟩⟩))) ∧
    (s.topBusy = some ⟨.read, 1, ⟨some s1, l.s2⟩⟩ → s.cnt = s1 →
      enabled .phase s = false ∧ takeMove .phase s = .next s) ∧
    (s.topBusy = some ⟨.read, 2, ⟨some s1, some s2⟩⟩ → s1.toNat < s2.toNat →
      exec .read s = .next ({ s with
        history := .result s.stack.topId (BitVec.ofNat 32 (ticksToUs s.params s1.toNat (ratio s.psSel))) ::
          s.history }.complete .read)) ∧
    (s.topBusy = some ⟨.read, 2, ⟨some s1, some s2⟩⟩ → s2.toNat ≤ s1.toNat → s2.toNat ≤ 2 * s.top.toNat →
      exec .read s = .next ({ s with
        history := .result s.stack.topId
          (BitVec.ofNat 32 (ticksToUs s.params (2 * s.top.toNat - s2.toNat) (ratio s.psSel))) ::
          s.history }.complete .read)) ∧
    (s.topBusy = some ⟨.read, 2, ⟨some s1, some s2⟩⟩ → s2.toNat ≤ s1.toNat → 2 * s.top.toNat < s2.toNat →
      exec .read s = .next ({ s with
        draws := s.draws + 1
        history := .result s.stack.topId
          (BitVec.ofNat 32 (ticksToUs s.params (Config.freeTicks s.draws) (ratio s.psSel))) ::
          s.history }.complete .read))

/-- 44_readback.md R204: over one full cycle from the bottom, with one tick between the samples, the ticks of
successive readbacks are `0, 1, …, T−1, T+1, …, 2T`, and so they grow through the cycle. -/
def Obligations.ReadTicksGrowThroughTheCycle : Prop :=
  ∀ (s : State) (k : Nat), s.cnt = 0 → s.dir = .up → 1 ≤ s.top.toNat →
    elapsedTicks (s.ticks k).cnt.toNat (s.ticks (k + 1)).cnt.toNat s.top.toNat =
      some (if k % (2 * s.top.toNat) < s.top.toNat then k % (2 * s.top.toNat)
        else k % (2 * s.top.toNat) + 1)

/-- 44_readback.md R202, R203: under the default conversion and a clock of at least 31,250 Hz the 32-bit result is the
exact truncated value `(ticks * p * 1_000_000) div CLOCK_HZ`, for every pair of samples with defined ticks and every
selected prescaler. -/
def Obligations.ReadResultDoesNotWrap : Prop :=
  ∀ (par : Params) (s1 s2 top : Half) (code : PsCode) (n : Nat),
    par.conversion = .exact → 31250 ≤ par.clockHz → 1 ≤ code.toNat → code.toNat ≤ 5 →
      elapsedTicks s1.toNat s2.toNat top.toNat = some n →
        (readResult par n (ratio code)).toNat = n * ratio code * 1000000 / par.clockHz

/-- 44_readback.md R205, 70_reset_and_hazards.md R258: `READ` between its samples, with no dispatch possible, never
completes when the counter is stopped or stays at 0 with `TOP = 0`, whatever moves come. -/
def Obligations.ReadNeverCompletesOnAStandingCounter : Prop :=
  ∀ (s t : State) (l : Locals) (ms : List Move),
    s.topBusy = some ⟨.read, 1, l⟩ → l.s1 = some s.cnt → (s.ie = false ∨ s.gie = false) →
      (s.csActive = 0 ∨ (s.top = 0 ∧ s.cnt = 0)) → runMoves ms s = .next t →
        t.topBusy = some ⟨.read, 1, l⟩ ∧ t.cnt = s.cnt ∧ t.waits

/-! ### Who writes what -/

/-- 10_state.md R24, R25: only a tick and the zeroing phase of `START` write `CNT` and `DIR`. -/
def Obligations.OnlyTicksAndStartWriteTheCounter : Prop :=
  ∀ (m : Move) (s t : State), takeMove m s = .next t → (t.cnt ≠ s.cnt ∨ t.dir ≠ s.dir) →
    (m = .tick ∧ s.csActive ≠ 0) ∨ (m = .phase ∧ s.atPhase .start 2 ∧ t.cnt = 0 ∧ t.dir = .up)

/-- 10_state.md R26, R27, R28: only a period phase SP1 writes `TOP` and `PS_SEL`, both together, and `PS_SEL` never
becomes 0; only command phases write `CS_ACTIVE`, with `PS_SEL` or with 0. -/
def Obligations.OnlyPeriodPhasesWriteTopAndPrescaler : Prop :=
  ∀ (m : Move) (s t : State), takeMove m s = .next t →
    ((t.top ≠ s.top ∨ t.psSel ≠ s.psSel) →
      m = .phase ∧ (∃ b us, s.topBusy = some b ∧ periodPhaseOf b.cmd = some (b.k, us) ∧
        t.top = BitVec.ofNat 16 (periodCalc s.params.clockHz us.toNat).1 ∧
        t.psSel = (periodCalc s.params.clockHz us.toNat).2) ∧ 1 ≤ t.psSel.toNat ∧ t.psSel.toNat ≤ 5) ∧
    (t.csActive ≠ s.csActive →
      m = .phase ∧ ((t.csActive = s.psSel ∧ t.psSel = s.psSel) ∨
        (t.csActive = 0 ∧ ∃ b, s.topBusy = some b ∧ (b.cmd = .stop ∨ ∃ us, b.cmd = .init us))))

/-- 10_state.md R29 to R32: only phases of duty and PWM commands write `OCR` and `DUTY`, with `DutyCompare` of the
current `TOP`; `PINDIR` is never cleared; `COM_EN` is cleared only by `DISABLE_PWM` and `INITIALIZE`. -/
def Obligations.OnlyDutyCommandsWriteTheChannels : Prop :=
  ∀ (m : Move) (s t : State) (ch : Channel), takeMove m s = .next t →
    ((t.ocr.get ch ≠ s.ocr.get ch ∨ t.duty.get ch ≠ s.duty.get ch) →
      m = .phase ∧ ∃ b d, s.topBusy = some b ∧ t.duty.get ch = d ∧
        t.ocr.get ch = BitVec.ofNat 16 (s.top.toNat * d.toNat / 1024) ∧
        (b.cmd = .setDuty (.channel ch) d ∨ b.cmd = .setDutyAll d ∨
          (∃ p, b.cmd = .pwm (.channel ch) d p) ∨ ∃ p, b.cmd = .pwmAll d p)) ∧
    (s.pinDir.get ch = true → t.pinDir.get ch = true) ∧
    (s.comEn.get ch = true → t.comEn.get ch = false →
      m = .phase ∧ ∃ b, s.topBusy = some b ∧ (b.cmd = .disablePwm (.channel ch) ∨ ∃ us, b.cmd = .init us))

/-- 10_state.md R33 to R36: `EVT_PENDING` is set only by a tick and cleared only by the dispatch; `IE` is set only by
`ATTACH_INTERRUPT` and cleared only by `DETACH_INTERRUPT` and `START`; `SLOT` is written only by `ATTACH_INTERRUPT`;
`GIE` only by the environment, the dispatch and the return. -/
def Obligations.WhoWritesTheInterruptState : Prop :=
  ∀ (m : Move) (s t : State), takeMove m s = .next t →
    (t.evtPending ≠ s.evtPending →
      (m = .tick ∧ t.evtPending = true) ∨ (m = .dispatch ∧ t.evtPending = false)) ∧
    (t.ie ≠ s.ie → m = .phase ∧ ∃ b, s.topBusy = some b ∧
      (if t.ie then ∃ cb p, b.cmd = .attachInterrupt cb p
        else b.cmd = .detachInterrupt ∨ (b.cmd = .start ∧ b.k = 0))) ∧
    (t.slot ≠ s.slot → m = .phase ∧ ∃ b cb p, s.topBusy = some b ∧ b.cmd = .attachInterrupt cb p ∧ t.slot = cb) ∧
    (t.gie ≠ s.gie →
      (∃ v, m = .setGie v ∧ t.gie = v) ∨ (m = .dispatch ∧ t.gie = false) ∨ m = .isrReturn)

/-- 10_state.md R38, 00_scope.md R6 (that the parameters are state is log 8, the schedule log 1): the history only
grows, the parameters never change, and a move leaves the schedule alone. -/
def Obligations.HistoryOnlyGrowsAndParametersStay : Prop :=
  ∀ (m : Move) (s t : State), takeMove m s = .next t →
    (∃ es, t.history = es ++ s.history ∧ es.length ≤ 2) ∧ t.params = s.params ∧ t.schedule = s.schedule

/-- 10_state.md R37, R40: a move touches at most the top context. It leaves the stack's shape, pushes one context or
pops one, and every suspended context keeps its command, its phase, its locals, its saved `GIE` and its handler. -/
def Obligations.SuspendedContextsAreLeftAlone : Prop :=
  ∀ (m : Move) (s t : State), takeMove m s = .next t →
    (t.stack.suspended = s.stack.suspended ∧ t.stack.isrs.tail = s.stack.isrs.tail ∧
      t.stack.isrs.length = s.stack.isrs.length) ∨
    (m = .dispatch ∧ t.stack.main = s.stack.main ∧ t.stack.isrs.tail = s.stack.isrs ∧
      t.stack.isrs.length = s.stack.isrs.length + 1) ∨
    (m = .isrReturn ∧ t.stack.main = s.stack.main ∧ t.stack.isrs = s.stack.isrs.tail ∧
      s.stack.isrs.length = t.stack.isrs.length + 1)

/-! ### Invariants and liveness -/

/-- 70_reset_and_hazards.md R250, R251: the reset state, under every choice of the parameters (log 8). -/
def Obligations.ResetLeavesTheTableOfTheSpec : Prop :=
  ∀ p : Params,
    let s := State.resetWith p
    s.cnt = 0 ∧ s.dir = .up ∧ s.top = 0 ∧ s.psSel = 0 ∧ s.csActive = 0 ∧ s.runState = .stopped ∧
    s.ocr = ⟨0, 0, 0⟩ ∧ s.duty = ⟨0, 0, 0⟩ ∧ s.comEn = ⟨false, false, false⟩ ∧
    s.pinDir = ⟨false, false, false⟩ ∧ s.ie = false ∧ s.evtPending = false ∧ s.slot = none ∧
    s.gie = p.gieInit ∧ s.stack.main = none ∧ s.stack.isrs = [] ∧ s.history = [] ∧
    s.issueEnabled = true ∧ enabled .tick s = false ∧ enabled .phase s = false ∧ enabled .dispatch s = false

/-- 10_state.md R46: the invariants hold at reset. -/
def Obligations.InvariantsHoldAtReset : Prop :=
  ∀ p : Params, Inv (State.resetWith p)

/-- 10_state.md R46, 1 to 4: every step keeps the registers legal: a descending counter is not at 0, the prescaler
codes are 0 to 5, a connected clock has a selected prescaler, compare values stay within 65471. -/
def Obligations.EveryStepKeepsTheRegistersLegal : Prop :=
  ∀ s t : State, RegisterInv s → step s = .next t → RegisterInv t

/-- 60_exceptions.md R226, R229, R236, 10_state.md R35, R41: every step keeps the contexts legal (the saved `GIE` is
1, a context without a handler or with its callback done is idle, every phase pointer names a phase) and no handler
id 0 is stored anywhere. -/
def Obligations.EveryStepKeepsTheContextsLegal : Prop :=
  ∀ s t : State, ContextInv s → HandlerInv s → step s = .next t → ContextInv t ∧ HandlerInv t

/-- 42_run_state.md R171, 70_reset_and_hazards.md R260: every step keeps that a `START` past ST1 has `IE = 0` and is
the top context, so no interrupt comes between ST1 and its completion (that the move changes nothing is log 3). -/
def Obligations.NoInterruptComesInsideStart : Prop :=
  (∀ s t : State, StartInv s → step s = .next t → StartInv t) ∧
  (∀ (s : State) (k : Nat), StartInv s → s.atPhase .start k → 1 ≤ k →
    enabled .dispatch s = false ∧ takeMove .dispatch s = .next s)

/-- 44_readback.md R205: every step keeps the invariants together, and so when `READ` computes its result it has two
different samples and the prescaler's ratio is one of 1, 8, 64, 256, 1024. -/
def Obligations.ReadComputesWithASelectedPrescaler : Prop :=
  (∀ s t : State, Inv s → step s = .next t → Inv t) ∧
  (∀ s : State, Inv s → s.atPhase .read 2 →
    s.psSel ≠ 0 ∧ ratio s.psSel ∈ [1, 8, 64, 256, 1024] ∧
    ∃ l v1 v2, s.topBusy = some ⟨.read, 2, l⟩ ∧ l.s1 = some v1 ∧ l.s2 = some v2 ∧ v1 ≠ v2)

/-- 70_reset_and_hazards.md R258: only `START` and `READ` block. Every phase of every other command is enabled in
every state, and its step goes on to the next phase or completes the command (that it completes where the phase
pointer is past the last phase, which no run reaches, is log 22). -/
def Obligations.OnlyStartAndReadBlock : Prop :=
  ∀ (i : Instr) (k : Nat) (l : Locals) (s : State), isBlocking i = false → s.topBusy = some ⟨i, k, l⟩ →
    enabled .phase s = true ∧
    ∃ t, exec i s = .next t ∧
      ((k + 1 < (phasesOf i).length ∧ t.topBusy = some ⟨i, k + 1, l⟩ ∧ t.history = s.history) ∨
        (¬ k + 1 < (phasesOf i).length ∧ t.topBusy = none ∧
          t.history = .complete s.stack.topId i :: s.history))

/-- 10_state.md R44, 70_reset_and_hazards.md R258 (fairness is log 19): in every run that is weakly fair to `PHASE`, a
command other than `START` and `READ` that runs with `GIE = 0` completes (a phase pointer past the last phase, which
no run reaches, is log 22). -/
def Obligations.FairRunsCompleteTheCommandsThatDoNotBlock : Prop :=
  ∀ (r : Run) (n : Nat) (b : Busy), r.weaklyFair .phase →
    (r.state n).topBusy = some b → isBlocking b.cmd = false → (r.state n).gie = false →
      ∃ j, n ≤ j ∧ r.move j = .phase ∧ (r.state (j + 1)).topBusy = none ∧
        (r.state (j + 1)).history.head? = some (.complete (r.state n).stack.topId b.cmd)

/-- 10_state.md R44, 60_exceptions.md R228, R229, R236 (fairness is log 19, the duty log 25): in every run that is
weakly fair to `ISR_RETURN`, an interrupt context whose callback is done and which has `GIE = 0` returns. Where the
environment does its duty to end callbacks, an interrupt context with `GIE = 0` whose callback is not done returns too,
whatever it issues, if it does not set `GIE` before. -/
def Obligations.FairRunsReturnFromADoneCallback : Prop :=
  (∀ (r : Run) (n : Nat) (c : IsrContext) (below : List IsrContext), r.weaklyFair .isrReturn →
    (r.state n).stack.isrs = c :: below → c.busy = none → c.cbDone = true → (r.state n).gie = false →
      ∃ j, n ≤ j ∧ r.move j = .isrReturn ∧ (r.state (j + 1)).stack.isrs = below ∧
        (r.state (j + 1)).gie = c.savedGie) ∧
  (∀ (r : Run) (n : Nat) (c : IsrContext) (below : List IsrContext), r.weaklyFair .isrReturn → r.endsCallbacks →
    (r.state n).stack.isrs = c :: below → c.cbDone = false → (r.state n).gie = false →
    (∀ j, n ≤ j → r.move j = .setGie true → (r.state j).stack.isrs.length ≤ below.length) →
      ∃ j, n ≤ j ∧ r.move j = .isrReturn ∧ (r.state (j + 1)).stack.isrs = below ∧
        (r.state (j + 1)).gie = c.savedGie)

/-- 10_state.md R46, 5 (which of the environment's values count is log 20): every step keeps that, without an interrupt
context, `GIE` is the last value the environment gave it while the main context was on top, and that the lowest
interrupt context saves it. So it holds after every list of moves from reset, with `GIE_INIT` where no value was given;
and where no callback sets `GIE = 0`, the value is the last one the environment gave at all, as R46, 5 words it. -/
def Obligations.GieHoldsTheLastValueTheEnvironmentGave : Prop :=
  (∀ (s t : State) (v : Bool), GieInv v s → step s = .next t →
    GieInv (givenGie State.mainOnTop s.nextMove.1 s v) t) ∧
  (∀ (p : Params) (ms : List Move) (t : State), runMoves ms (State.resetWith p) = .next t →
    GieInv (lastGivenGie State.mainOnTop ms (State.resetWith p) p.gieInit) t) ∧
  (∀ (p : Params) (ms : List Move) (t : State), runMoves ms (State.resetWith p) = .next t →
    (∀ (before after : List Move) (u : State), ms = before ++ .setGie false :: after →
      runMoves before (State.resetWith p) = .next u → u.setGieEnabled = true → u.stack.isrs = []) →
    t.stack.isrs = [] → t.gie = lastGivenGie (fun _ => true) ms (State.resetWith p) p.gieInit)
end

