-- ==== Sys2Proof/Laws/Decode.lean ====
section
/-! SUPPORT. The fields of a packed word, the reserved bits of each format, and when the decoder answers what. -/

namespace Sys2Proof

/-- A concatenation as a number. -/
theorem toNat_append_eq {n m : Nat} (x : BitVec n) (y : BitVec m) :
    (x ++ y).toNat = x.toNat * 2 ^ m + y.toNat := by
  rw [BitVec.toNat_append, ← Nat.shiftLeft_add_eq_or_of_lt y.isLt, Nat.shiftLeft_eq]

/-- A packed word as a number (30_encoding.md R81). -/
theorem packFields_toNat (opc : BitVec 8) (p : BitVec 1) (ch : BitVec 2) (mid : BitVec 16) (us : Micros) :
    (packFields opc p ch mid us).toNat =
      opc.toNat * 2 ^ 56 + p.toNat * 2 ^ 55 + ch.toNat * 2 ^ 48 + mid.toNat * 2 ^ 32 + us.toNat := by
  have e : (packFields opc p ch mid us).toNat =
      (opc ++ p ++ (0 : BitVec 5) ++ ch ++ mid).toNat * 2 ^ 32 + us.toNat := toNat_append_eq _ _
  rw [e, toNat_append_eq, toNat_append_eq, toNat_append_eq, toNat_append_eq,
    show (0 : BitVec 5).toNat = 0 from rfl]
  omega

/-- A zero-extended duty as a number (30_encoding.md R85). -/
theorem duty_zeroExtend_toNat (d : DutyFraction) : (d.zeroExtend 16).toNat = d.toNat := by
  have e : (d.zeroExtend 16).toNat = d.toNat % 2 ^ 16 := BitVec.toNat_setWidth 16 d
  have := d.isLt
  omega

/-- A field of a packed word, by its place. -/
theorem packFields_field (opc : BitVec 8) (p : BitVec 1) (ch : BitVec 2) (mid : BitVec 16) (us : Micros)
    (lo len : Nat) :
    ((packFields opc p ch mid us).extractLsb' lo len).toNat =
      (opc.toNat * 2 ^ 56 + p.toNat * 2 ^ 55 + ch.toNat * 2 ^ 48 + mid.toNat * 2 ^ 32 + us.toNat) / 2 ^ lo %
        2 ^ len := by
  rw [BitVec.extractLsb'_toNat, packFields_toNat, Nat.shiftRight_eq_div_pow]

section
variable (opc : BitVec 8) (p : BitVec 1) (ch : BitVec 2) (mid : BitVec 16) (us : Micros)

@[simp] theorem opcOf_packFields : opcOf (packFields opc p ch mid us) = opc := by
  apply BitVec.eq_of_toNat_eq
  rw [opcOf, packFields_field]
  have := opc.isLt; have := p.isLt; have := ch.isLt; have := mid.isLt; have := us.isLt
  omega

@[simp] theorem periodFlagOf_packFields : periodFlagOf (packFields opc p ch mid us) = p := by
  apply BitVec.eq_of_toNat_eq
  rw [periodFlagOf, packFields_field]
  have := opc.isLt; have := p.isLt; have := ch.isLt; have := mid.isLt; have := us.isLt
  omega

@[simp] theorem chOf_packFields : chOf (packFields opc p ch mid us) = ch := by
  apply BitVec.eq_of_toNat_eq
  rw [chOf, packFields_field]
  have := opc.isLt; have := p.isLt; have := ch.isLt; have := mid.isLt; have := us.isLt
  omega

@[simp] theorem cbOf_packFields : cbOf (packFields opc p ch mid us) = mid := by
  apply BitVec.eq_of_toNat_eq
  rw [cbOf, packFields_field]
  have := opc.isLt; have := p.isLt; have := ch.isLt; have := mid.isLt; have := us.isLt
  omega

@[simp] theorem usOf_packFields : usOf (packFields opc p ch mid us) = us := by
  apply BitVec.eq_of_toNat_eq
  rw [usOf, packFields_field]
  have := opc.isLt; have := p.isLt; have := ch.isLt; have := mid.isLt; have := us.isLt
  omega

@[simp] theorem dutyOf_packFields (d : DutyFraction) :
    dutyOf (packFields opc p ch (d.zeroExtend 16) us) = d := by
  apply BitVec.eq_of_toNat_eq
  rw [dutyOf, packFields_field]
  have := opc.isLt; have := p.isLt; have := ch.isLt; have := d.isLt; have := us.isLt
  rw [duty_zeroExtend_toNat]
  omega

/-- The optional period operand of a packed word. -/
@[simp] theorem periodOperandOf_packFields (period : Option Micros) :
    periodOperandOf (packFields opc (flagOfPeriod period) ch mid (usOfPeriod period)) = period := by
  unfold periodOperandOf
  rw [periodFlagOf_packFields, usOf_packFields]
  cases period <;> simp [flagOfPeriod, usOfPeriod]

/-- The bits of a packed word under a mask, field by field. -/
theorem packFields_and (a : BitVec 8) (b : BitVec 1) (c : BitVec 5) (d : BitVec 2) (e : BitVec 16) (f : Micros) :
    packFields opc p ch mid us &&& (a ++ b ++ c ++ d ++ e ++ f) =
      (opc &&& a) ++ (p &&& b) ++ ((0 : BitVec 5) &&& c) ++ (ch &&& d) ++ (mid &&& e) ++ (us &&& f) := by
  unfold packFields
  rw [BitVec.and_append, BitVec.and_append, BitVec.and_append, BitVec.and_append, BitVec.and_append]

/-- No bit of a zero-extended duty lies above bit 9. -/
theorem duty_and_high (d : DutyFraction) : d.zeroExtend 16 &&& 0xFC00 = 0 := by
  have h : ∀ d : DutyFraction, d.zeroExtend 16 &&& 0xFC00 = (0 : BitVec 10) ++ (0 : BitVec 6) := by
    intro d
    have e : (d.zeroExtend 16 : BitVec 16) = (0 : BitVec 6) ++ d := by
      apply BitVec.eq_of_toNat_eq
      rw [toNat_append_eq, duty_zeroExtend_toNat, show (0 : BitVec 6).toNat = 0 from rfl]
      omega
    rw [e]
    have m : (0xFC00 : BitVec 16) = (0x3F : BitVec 6) ++ (0 : BitVec 10) := by decide
    rw [m, BitVec.and_append]
    simp
  rw [h d]
  decide

/-! The words of each format have no reserved bit set (30_encoding.md R82). -/

@[simp] theorem reserved_N : packFields opc 0 0 0 0 &&& reservedMask .N = 0 := by
  have m : reservedMask .N = (0 : BitVec 8) ++ (1 : BitVec 1) ++ (0x1F : BitVec 5) ++ (3 : BitVec 2) ++
      (0xFFFF : BitVec 16) ++ (0xFFFFFFFF : BitVec 32) := by decide
  rw [m, packFields_and]
  simp

@[simp] theorem reserved_T : packFields opc 0 0 0 us &&& reservedMask .T = 0 := by
  have m : reservedMask .T = (0 : BitVec 8) ++ (1 : BitVec 1) ++ (0x1F : BitVec 5) ++ (3 : BitVec 2) ++
      (0xFFFF : BitVec 16) ++ (0 : BitVec 32) := by decide
  rw [m, packFields_and]
  simp

@[simp] theorem reserved_C : packFields opc 0 ch 0 0 &&& reservedMask .C = 0 := by
  have m : reservedMask .C = (0 : BitVec 8) ++ (1 : BitVec 1) ++ (0x1F : BitVec 5) ++ (0 : BitVec 2) ++
      (0xFFFF : BitVec 16) ++ (0xFFFFFFFF : BitVec 32) := by decide
  rw [m, packFields_and]
  simp

@[simp] theorem reserved_CD (d : DutyFraction) :
    packFields opc 0 ch (d.zeroExtend 16) 0 &&& reservedMask .CD = 0 := by
  have m : reservedMask .CD = (0 : BitVec 8) ++ (1 : BitVec 1) ++ (0x1F : BitVec 5) ++ (0 : BitVec 2) ++
      (0xFC00 : BitVec 16) ++ (0xFFFFFFFF : BitVec 32) := by decide
  rw [m, packFields_and, duty_and_high]
  simp

@[simp] theorem reserved_D (d : DutyFraction) :
    packFields opc 0 0 (d.zeroExtend 16) 0 &&& reservedMask .D = 0 := by
  have m : reservedMask .D = (0 : BitVec 8) ++ (1 : BitVec 1) ++ (0x1F : BitVec 5) ++ (3 : BitVec 2) ++
      (0xFC00 : BitVec 16) ++ (0xFFFFFFFF : BitVec 32) := by decide
  rw [m, packFields_and, duty_and_high]
  simp

@[simp] theorem reserved_CDP (d : DutyFraction) :
    packFields opc p ch (d.zeroExtend 16) us &&& reservedMask .CDP = 0 := by
  have m : reservedMask .CDP = (0 : BitVec 8) ++ (0 : BitVec 1) ++ (0x1F : BitVec 5) ++ (0 : BitVec 2) ++
      (0xFC00 : BitVec 16) ++ (0 : BitVec 32) := by decide
  rw [m, packFields_and, duty_and_high]
  simp

@[simp] theorem reserved_DP (d : DutyFraction) :
    packFields opc p 0 (d.zeroExtend 16) us &&& reservedMask .DP = 0 := by
  have m : reservedMask .DP = (0 : BitVec 8) ++ (0 : BitVec 1) ++ (0x1F : BitVec 5) ++ (3 : BitVec 2) ++
      (0xFC00 : BitVec 16) ++ (0 : BitVec 32) := by decide
  rw [m, packFields_and, duty_and_high]
  simp

@[simp] theorem reserved_HP : packFields opc p 0 mid us &&& reservedMask .HP = 0 := by
  have m : reservedMask .HP = (0 : BitVec 8) ++ (0 : BitVec 1) ++ (0x1F : BitVec 5) ++ (3 : BitVec 2) ++
      (0 : BitVec 16) ++ (0 : BitVec 32) := by decide
  rw [m, packFields_and]
  simp

end

/-- A selection is the one its code names (30_encoding.md R84). -/
@[simp] theorem chanSelOfCode_code (ch : ChanSel) : chanSelOfCode ch.code = ch := by
  rcases ch with ⟨_ | _ | _⟩ | _ <;> rfl

/-- A code is that of the selection it names (30_encoding.md R84). -/
theorem code_chanSelOfCode (code : BitVec 2) : (chanSelOfCode code).code = code := by
  revert code
  decide

/-- A callback operand is the one its id names (30_encoding.md R88). -/
theorem callbackOfId_idOfCallback (cb : Option HandlerId) (h : callbackOk cb = true) :
    callbackOfId (idOfCallback cb) = cb := by
  cases cb with
  | none => rfl
  | some x =>
    have hx : x ≠ 0 := by simpa [callbackOk] using h
    exact if_neg hx

/-- A decoded callback operand is well-formed, and its id is the field's value (30_encoding.md R88). -/
theorem callbackOfId_spec (cb : HandlerId) :
    callbackOk (callbackOfId cb) = true ∧ idOfCallback (callbackOfId cb) = cb := by
  unfold callbackOfId
  split
  · next h => exact ⟨rfl, h.symm⟩
  · next h => exact ⟨by simpa [callbackOk] using h, rfl⟩

/-- When the decoder answers a command (30_encoding.md R90). -/
theorem decode_ok_iff (w : CmdWord) (i : Instr) :
    decode w = .ok i ↔
      ∃ fmt command, opcodeRow (opcOf w) = some (fmt, command) ∧ w &&& reservedMask fmt = 0 ∧ i = command w := by
  unfold decode
  cases h : opcodeRow (opcOf w) with
  | none => simp
  | some row =>
    obtain ⟨fmt, command⟩ := row
    by_cases hm : w &&& reservedMask fmt = 0
    · simp only [if_pos hm]
      constructor
      · intro e
        cases e
        exact ⟨fmt, command, rfl, hm, rfl⟩
      · rintro ⟨_, _, e, -, rfl⟩
        cases e
        rfl
    · simp only [if_neg hm]
      constructor
      · intro e
        cases e
      · rintro ⟨_, _, e, e', -⟩
        cases e
        exact absurd e' hm

/-- When the decoder refuses a word for its opcode (30_encoding.md R86). -/
theorem decode_reservedOpcode_iff (w : CmdWord) :
    decode w = .error .reservedOpcode ↔ opcodeRow (opcOf w) = none := by
  unfold decode
  cases h : opcodeRow (opcOf w) with
  | none => simp
  | some row =>
    obtain ⟨fmt, command⟩ := row
    by_cases hm : w &&& reservedMask fmt = 0
    · simp only [if_pos hm]
      exact ⟨nofun, nofun⟩
    · simp only [if_neg hm]
      exact ⟨nofun, nofun⟩

/-- When the decoder refuses a word for its reserved bits (30_encoding.md R86). -/
theorem decode_reservedBits_iff (w : CmdWord) :
    decode w = .error .reservedBitsNonzero ↔
      ∃ fmt command, opcodeRow (opcOf w) = some (fmt, command) ∧ w &&& reservedMask fmt ≠ 0 := by
  unfold decode
  cases h : opcodeRow (opcOf w) with
  | none => simp
  | some row =>
    obtain ⟨fmt, command⟩ := row
    by_cases hm : w &&& reservedMask fmt = 0
    · simp only [if_pos hm]
      constructor
      · intro e
        cases e
      · rintro ⟨_, _, e, e'⟩
        cases e
        exact absurd hm e'
    · simp only [if_neg hm]
      exact ⟨fun _ => ⟨fmt, command, rfl, hm⟩, fun _ => trivial⟩

/-- The bytes of a word make the word (20_memory.md R63). -/
theorem wordOfBytes_bytesOfWord (w : CmdWord) : wordOfBytes (bytesOfWord w) = some w := by
  simp only [wordOfBytes, bytesOfWord, Option.some.injEq]
  apply BitVec.eq_of_toNat_eq
  simp only [toNat_append_eq, BitVec.extractLsb'_toNat, Nat.shiftRight_eq_div_pow]
  have := w.isLt
  omega

/-- A whole word is eight bytes (20_memory.md R64). -/
theorem wordOfBytes_eq_none {bytes : List Byte} (h : bytes.length ≠ 8) : wordOfBytes bytes = none := by
  unfold wordOfBytes
  split
  · simp at h
  · rfl

/-- The thirteen rows of the opcode map (30_encoding.md R89), as a case split. -/
theorem opcodeRow_cases {opc : BitVec 8} {fmt c} (h : opcodeRow opc = some (fmt, c)) :
  (opc = 1 ∧ fmt = .T ∧ c = fun w => .init (usOf w)) ∨ (opc = 2 ∧ fmt = .T ∧ c = fun w => .setPeriod (usOf w)) ∨
  (opc = 3 ∧ fmt = .CD ∧ c = fun w => .setDuty (chanSelOfCode (chOf w)) (dutyOf w)) ∨
  (opc = 4 ∧ fmt = .D ∧ c = fun w => .setDutyAll (dutyOf w)) ∨
  (opc = 5 ∧ fmt = .CDP ∧ c = fun w => .pwm (chanSelOfCode (chOf w)) (dutyOf w) (periodOperandOf w)) ∨
  (opc = 6 ∧ fmt = .DP ∧ c = fun w => .pwmAll (dutyOf w) (periodOperandOf w)) ∨
  (opc = 7 ∧ fmt = .C ∧ c = fun w => .disablePwm (chanSelOfCode (chOf w))) ∨
  (opc = 8 ∧ fmt = .HP ∧ c = fun w => .attachInterrupt (callbackOfId (cbOf w)) (periodOperandOf w)) ∨
  (opc = 9 ∧ fmt = .N ∧ c = fun _ => .detachInterrupt) ∨
  (opc = 10 ∧ fmt = .N ∧ c = fun _ => .start) ∨
  (opc = 11 ∧ fmt = .N ∧ c = fun _ => .stop) ∨
  (opc = 12 ∧ fmt = .N ∧ c = fun _ => .resume) ∨
  (opc = 13 ∧ fmt = .N ∧ c = fun _ => .read) := by
  unfold opcodeRow at h
  by_cases h1 : opc = 1
  · rw [if_pos h1] at h
    cases h
    exact .inl ⟨h1, rfl, rfl⟩
  rw [if_neg h1] at h
  by_cases h2 : opc = 2
  · rw [if_pos h2] at h
    cases h
    exact .inr (.inl ⟨h2, rfl, rfl⟩)
  rw [if_neg h2] at h
  by_cases h3 : opc = 3
  · rw [if_pos h3] at h
    cases h
    exact .inr (.inr (.inl ⟨h3, rfl, rfl⟩))
  rw [if_neg h3] at h
  by_cases h4 : opc = 4
  · rw [if_pos h4] at h
    cases h
    exact .inr (.inr (.inr (.inl ⟨h4, rfl, rfl⟩)))
  rw [if_neg h4] at h
  by_cases h5 : opc = 5
  · rw [if_pos h5] at h
    cases h
    exact .inr (.inr (.inr (.inr (.inl ⟨h5, rfl, rfl⟩))))
  rw [if_neg h5] at h
  by_cases h6 : opc = 6
  · rw [if_pos h6] at h
    cases h
    exact .inr (.inr (.inr (.inr (.inr (.inl ⟨h6, rfl, rfl⟩)))))
  rw [if_neg h6] at h
  by_cases h7 : opc = 7
  · rw [if_pos h7] at h
    cases h
    exact .inr (.inr (.inr (.inr (.inr (.inr (.inl ⟨h7, rfl, rfl⟩))))))
  rw [if_neg h7] at h
  by_cases h8 : opc = 8
  · rw [if_pos h8] at h
    cases h
    exact .inr (.inr (.inr (.inr (.inr (.inr (.inr (.inl ⟨h8, rfl, rfl⟩)))))))
  rw [if_neg h8] at h
  by_cases h9 : opc = 9
  · rw [if_pos h9] at h
    cases h
    exact .inr (.inr (.inr (.inr (.inr (.inr (.inr (.inr (.inl ⟨h9, rfl, rfl⟩))))))))
  rw [if_neg h9] at h
  by_cases h10 : opc = 10
  · rw [if_pos h10] at h
    cases h
    exact .inr (.inr (.inr (.inr (.inr (.inr (.inr (.inr (.inr (.inl ⟨h10, rfl, rfl⟩)))))))))
  rw [if_neg h10] at h
  by_cases h11 : opc = 11
  · rw [if_pos h11] at h
    cases h
    exact .inr (.inr (.inr (.inr (.inr (.inr (.inr (.inr (.inr (.inr (.inl ⟨h11, rfl, rfl⟩))))))))))
  rw [if_neg h11] at h
  by_cases h12 : opc = 12
  · rw [if_pos h12] at h
    cases h
    exact .inr (.inr (.inr (.inr (.inr (.inr (.inr (.inr (.inr (.inr (.inr (.inl ⟨h12, rfl, rfl⟩)))))))))))
  rw [if_neg h12] at h
  by_cases h13 : opc = 13
  · rw [if_pos h13] at h
    cases h
    exact .inr (.inr (.inr (.inr (.inr (.inr (.inr (.inr (.inr (.inr (.inr (.inr (⟨h13, rfl, rfl⟩))))))))))))
  rw [if_neg h13] at h
  cases h

/-- A word is its fields and its bits [54:50] (30_encoding.md R81). -/
theorem word_eq_fields (w : CmdWord) :
    w = opcOf w ++ periodFlagOf w ++ w.extractLsb' 50 5 ++ chOf w ++ cbOf w ++ usOf w := by
  apply BitVec.eq_of_toNat_eq
  have e : (opcOf w ++ periodFlagOf w ++ w.extractLsb' 50 5 ++ chOf w ++ cbOf w ++ usOf w : BitVec 64).toNat =
    (opcOf w ++ periodFlagOf w ++ w.extractLsb' 50 5 ++ chOf w ++ cbOf w).toNat * 2^32 + (usOf w).toNat :=
        toNat_append_eq _ _
  rw [e, toNat_append_eq,toNat_append_eq,toNat_append_eq,toNat_append_eq]
  rw [opcOf, periodFlagOf, chOf, cbOf, usOf]
  simp only [BitVec.extractLsb'_toNat, Nat.shiftRight_eq_div_pow]
  have := w.isLt
  omega

/-- Equal concatenations have equal parts. -/
theorem bitVec_append_inj {n m} {a a' : BitVec n} {b b' : BitVec m} (h : a ++ b = a' ++ b') : a = a' ∧ b = b' := by
  have h' := congrArg BitVec.toNat h
  rw [toNat_append_eq, toNat_append_eq] at h'
  have := b.isLt; have := b'.isLt
  have : a.toNat = a'.toNat := by
    have hi : ∀ (x : BitVec n) (y : BitVec m), (x.toNat * 2 ^ m + y.toNat) / 2 ^ m = x.toNat := by
      intro x y
      rw [Nat.mul_comm, Nat.mul_add_div (Nat.two_pow_pos m), Nat.div_eq_of_lt y.isLt]
      rfl
    rw [← hi a b, ← hi a' b', h']
  refine ⟨BitVec.eq_of_toNat_eq this, BitVec.eq_of_toNat_eq (by rw [this] at h'; omega)⟩

/-- A mask of fields selects field by field. -/
theorem word_and_fields (w : CmdWord) (a : BitVec 8) (b : BitVec 1) (c : BitVec 5) (d : BitVec 2) (e : BitVec 16)
    (f : BitVec 32) :
   w &&& (a ++ b ++ c ++ d ++ e ++ f) = (opcOf w &&& a) ++ (periodFlagOf w &&& b) ++ (w.extractLsb' 50 5 &&& c) ++
       (chOf w &&& d) ++ (cbOf w &&& e) ++ (usOf w &&& f) := by
  have h := word_eq_fields w
  generalize w.extractLsb' 50 5 = x at *
  generalize opcOf w = x1 at *; generalize periodFlagOf w = x2 at *; generalize chOf w = x3 at *; generalize cbOf w = x4 at *; generalize usOf w = x5 at *
  subst h
  rw [BitVec.and_append, BitVec.and_append, BitVec.and_append, BitVec.and_append, BitVec.and_append]

/-- A word whose bits [54:50] are 0 is packed from its fields (30_encoding.md R81). -/
theorem packFields_fields (w : CmdWord) (h : w.extractLsb' 50 5 = 0) : packFields (opcOf w) (periodFlagOf w)
    (chOf w) (cbOf w) (usOf w) = w := by
  apply BitVec.eq_of_toNat_eq
  have h' := congrArg BitVec.toNat h
  rw [BitVec.extractLsb'_toNat, Nat.shiftRight_eq_div_pow] at h'
  rw [packFields_toNat, opcOf, periodFlagOf, chOf, cbOf, usOf]
  simp only [BitVec.extractLsb'_toNat, Nat.shiftRight_eq_div_pow]
  have := w.isLt
  simp at h'
  omega

/-- Whatever the decoder accepts is well-formed (30_encoding.md R88, R90). -/
theorem wellFormed_of_decode {w i} (h : decode w = .ok i) : i.wellFormed = true := by
  rw [decode_ok_iff] at h
  obtain ⟨fmt, c, hr, hm, rfl⟩ := h
  rcases opcodeRow_cases hr with ⟨h, rfl, rfl⟩ | ⟨h, rfl, rfl⟩ | ⟨h, rfl, rfl⟩ | ⟨h, rfl, rfl⟩ | ⟨h, rfl, rfl⟩
      | ⟨h, rfl, rfl⟩ | ⟨h, rfl, rfl⟩ | ⟨h, rfl, rfl⟩ | ⟨h, rfl, rfl⟩ | ⟨h, rfl, rfl⟩ | ⟨h, rfl, rfl⟩ | ⟨h, rfl,
      rfl⟩ | ⟨h, rfl, rfl⟩ <;> try rfl
  exact (callbackOfId_spec _).1

end Sys2Proof
end

