-- ==== Sys2Proof/Laws/State.lean ====
section
/-! SUPPORT. One lemma per field per shared update of the state, each true by definition, so that no later proof
unfolds a record update. -/

namespace Sys2Proof.Machine

/-! `emit` writes the history alone (10_state.md R38). -/

@[simp] theorem State.emit_params (s : State) (e : Event) : (s.emit e).params = s.params := rfl
@[simp] theorem State.emit_cnt (s : State) (e : Event) : (s.emit e).cnt = s.cnt := rfl
@[simp] theorem State.emit_dir (s : State) (e : Event) : (s.emit e).dir = s.dir := rfl
@[simp] theorem State.emit_top (s : State) (e : Event) : (s.emit e).top = s.top := rfl
@[simp] theorem State.emit_psSel (s : State) (e : Event) : (s.emit e).psSel = s.psSel := rfl
@[simp] theorem State.emit_csActive (s : State) (e : Event) : (s.emit e).csActive = s.csActive := rfl
@[simp] theorem State.emit_ocr (s : State) (e : Event) : (s.emit e).ocr = s.ocr := rfl
@[simp] theorem State.emit_duty (s : State) (e : Event) : (s.emit e).duty = s.duty := rfl
@[simp] theorem State.emit_comEn (s : State) (e : Event) : (s.emit e).comEn = s.comEn := rfl
@[simp] theorem State.emit_pinDir (s : State) (e : Event) : (s.emit e).pinDir = s.pinDir := rfl
@[simp] theorem State.emit_ie (s : State) (e : Event) : (s.emit e).ie = s.ie := rfl
@[simp] theorem State.emit_evtPending (s : State) (e : Event) : (s.emit e).evtPending = s.evtPending := rfl
@[simp] theorem State.emit_slot (s : State) (e : Event) : (s.emit e).slot = s.slot := rfl
@[simp] theorem State.emit_gie (s : State) (e : Event) : (s.emit e).gie = s.gie := rfl
@[simp] theorem State.emit_stack (s : State) (e : Event) : (s.emit e).stack = s.stack := rfl
@[simp] theorem State.emit_history (s : State) (e : Event) : (s.emit e).history = e :: s.history := rfl
@[simp] theorem State.emit_schedule (s : State) (e : Event) : (s.emit e).schedule = s.schedule := rfl
@[simp] theorem State.emit_draws (s : State) (e : Event) : (s.emit e).draws = s.draws := rfl

/-! The top context's `busy` is part of the stack alone (10_state.md R37). -/

@[simp] theorem State.setTopBusy_params (s : State) (b : Option Busy) : (s.setTopBusy b).params = s.params := rfl
@[simp] theorem State.setTopBusy_cnt (s : State) (b : Option Busy) : (s.setTopBusy b).cnt = s.cnt := rfl
@[simp] theorem State.setTopBusy_dir (s : State) (b : Option Busy) : (s.setTopBusy b).dir = s.dir := rfl
@[simp] theorem State.setTopBusy_top (s : State) (b : Option Busy) : (s.setTopBusy b).top = s.top := rfl
@[simp] theorem State.setTopBusy_psSel (s : State) (b : Option Busy) : (s.setTopBusy b).psSel = s.psSel := rfl
@[simp] theorem State.setTopBusy_csActive (s : State) (b : Option Busy) :
    (s.setTopBusy b).csActive = s.csActive := rfl
@[simp] theorem State.setTopBusy_ocr (s : State) (b : Option Busy) : (s.setTopBusy b).ocr = s.ocr := rfl
@[simp] theorem State.setTopBusy_duty (s : State) (b : Option Busy) : (s.setTopBusy b).duty = s.duty := rfl
@[simp] theorem State.setTopBusy_comEn (s : State) (b : Option Busy) : (s.setTopBusy b).comEn = s.comEn := rfl
@[simp] theorem State.setTopBusy_pinDir (s : State) (b : Option Busy) : (s.setTopBusy b).pinDir = s.pinDir := rfl
@[simp] theorem State.setTopBusy_ie (s : State) (b : Option Busy) : (s.setTopBusy b).ie = s.ie := rfl
@[simp] theorem State.setTopBusy_evtPending (s : State) (b : Option Busy) :
    (s.setTopBusy b).evtPending = s.evtPending := rfl
@[simp] theorem State.setTopBusy_slot (s : State) (b : Option Busy) : (s.setTopBusy b).slot = s.slot := rfl
@[simp] theorem State.setTopBusy_gie (s : State) (b : Option Busy) : (s.setTopBusy b).gie = s.gie := rfl
@[simp] theorem State.setTopBusy_stack (s : State) (b : Option Busy) :
    (s.setTopBusy b).stack = s.stack.setTopBusy b := rfl
@[simp] theorem State.setTopBusy_history (s : State) (b : Option Busy) : (s.setTopBusy b).history = s.history := rfl
@[simp] theorem State.setTopBusy_schedule (s : State) (b : Option Busy) :
    (s.setTopBusy b).schedule = s.schedule := rfl
@[simp] theorem State.setTopBusy_draws (s : State) (b : Option Busy) : (s.setTopBusy b).draws = s.draws := rfl

/-! Issuing writes the stack and the history (10_state.md R41). -/

@[simp] theorem State.issue_params (s : State) (i : Instr) : (s.issue i).params = s.params := rfl
@[simp] theorem State.issue_cnt (s : State) (i : Instr) : (s.issue i).cnt = s.cnt := rfl
@[simp] theorem State.issue_dir (s : State) (i : Instr) : (s.issue i).dir = s.dir := rfl
@[simp] theorem State.issue_top (s : State) (i : Instr) : (s.issue i).top = s.top := rfl
@[simp] theorem State.issue_psSel (s : State) (i : Instr) : (s.issue i).psSel = s.psSel := rfl
@[simp] theorem State.issue_csActive (s : State) (i : Instr) : (s.issue i).csActive = s.csActive := rfl
@[simp] theorem State.issue_ocr (s : State) (i : Instr) : (s.issue i).ocr = s.ocr := rfl
@[simp] theorem State.issue_duty (s : State) (i : Instr) : (s.issue i).duty = s.duty := rfl
@[simp] theorem State.issue_comEn (s : State) (i : Instr) : (s.issue i).comEn = s.comEn := rfl
@[simp] theorem State.issue_pinDir (s : State) (i : Instr) : (s.issue i).pinDir = s.pinDir := rfl
@[simp] theorem State.issue_ie (s : State) (i : Instr) : (s.issue i).ie = s.ie := rfl
@[simp] theorem State.issue_evtPending (s : State) (i : Instr) : (s.issue i).evtPending = s.evtPending := rfl
@[simp] theorem State.issue_slot (s : State) (i : Instr) : (s.issue i).slot = s.slot := rfl
@[simp] theorem State.issue_gie (s : State) (i : Instr) : (s.issue i).gie = s.gie := rfl
@[simp] theorem State.issue_stack (s : State) (i : Instr) : (s.issue i).stack = s.stack.setTopBusy (some ⟨i, 0,
    Locals.empty⟩) := rfl
@[simp] theorem State.issue_history (s : State) (i : Instr) : (s.issue i).history = .issue s.stack.topId i ::
    s.history := rfl
@[simp] theorem State.issue_schedule (s : State) (i : Instr) : (s.issue i).schedule = s.schedule := rfl
@[simp] theorem State.issue_draws (s : State) (i : Instr) : (s.issue i).draws = s.draws := rfl

/-! The end of a command writes the stack and the history (10_state.md R41). -/

@[simp] theorem State.complete_params (s : State) (i : Instr) : (s.complete i).params = s.params := rfl
@[simp] theorem State.complete_cnt (s : State) (i : Instr) : (s.complete i).cnt = s.cnt := rfl
@[simp] theorem State.complete_dir (s : State) (i : Instr) : (s.complete i).dir = s.dir := rfl
@[simp] theorem State.complete_top (s : State) (i : Instr) : (s.complete i).top = s.top := rfl
@[simp] theorem State.complete_psSel (s : State) (i : Instr) : (s.complete i).psSel = s.psSel := rfl
@[simp] theorem State.complete_csActive (s : State) (i : Instr) : (s.complete i).csActive = s.csActive := rfl
@[simp] theorem State.complete_ocr (s : State) (i : Instr) : (s.complete i).ocr = s.ocr := rfl
@[simp] theorem State.complete_duty (s : State) (i : Instr) : (s.complete i).duty = s.duty := rfl
@[simp] theorem State.complete_comEn (s : State) (i : Instr) : (s.complete i).comEn = s.comEn := rfl
@[simp] theorem State.complete_pinDir (s : State) (i : Instr) : (s.complete i).pinDir = s.pinDir := rfl
@[simp] theorem State.complete_ie (s : State) (i : Instr) : (s.complete i).ie = s.ie := rfl
@[simp] theorem State.complete_evtPending (s : State) (i : Instr) : (s.complete i).evtPending = s.evtPending := rfl
@[simp] theorem State.complete_slot (s : State) (i : Instr) : (s.complete i).slot = s.slot := rfl
@[simp] theorem State.complete_gie (s : State) (i : Instr) : (s.complete i).gie = s.gie := rfl
@[simp] theorem State.complete_stack (s : State) (i : Instr) : (s.complete i).stack = s.stack.setTopBusy none := rfl
@[simp] theorem State.complete_history (s : State) (i : Instr) :
    (s.complete i).history = .complete s.stack.topId i :: s.history := rfl
@[simp] theorem State.complete_schedule (s : State) (i : Instr) : (s.complete i).schedule = s.schedule := rfl
@[simp] theorem State.complete_draws (s : State) (i : Instr) : (s.complete i).draws = s.draws := rfl

/-! The interrupt entry (60_exceptions.md R226). -/

@[simp] theorem State.dispatch_params (s : State) : (s.dispatch).params = s.params := rfl
@[simp] theorem State.dispatch_cnt (s : State) : (s.dispatch).cnt = s.cnt := rfl
@[simp] theorem State.dispatch_dir (s : State) : (s.dispatch).dir = s.dir := rfl
@[simp] theorem State.dispatch_top (s : State) : (s.dispatch).top = s.top := rfl
@[simp] theorem State.dispatch_psSel (s : State) : (s.dispatch).psSel = s.psSel := rfl
@[simp] theorem State.dispatch_csActive (s : State) : (s.dispatch).csActive = s.csActive := rfl
@[simp] theorem State.dispatch_ocr (s : State) : (s.dispatch).ocr = s.ocr := rfl
@[simp] theorem State.dispatch_duty (s : State) : (s.dispatch).duty = s.duty := rfl
@[simp] theorem State.dispatch_comEn (s : State) : (s.dispatch).comEn = s.comEn := rfl
@[simp] theorem State.dispatch_pinDir (s : State) : (s.dispatch).pinDir = s.pinDir := rfl
@[simp] theorem State.dispatch_ie (s : State) : (s.dispatch).ie = s.ie := rfl
@[simp] theorem State.dispatch_evtPending (s : State) : (s.dispatch).evtPending = false := rfl
@[simp] theorem State.dispatch_slot (s : State) : (s.dispatch).slot = s.slot := rfl
@[simp] theorem State.dispatch_gie (s : State) : (s.dispatch).gie = false := rfl
@[simp] theorem State.dispatch_stack (s : State) : (s.dispatch).stack = ⟨s.stack.main, s.newIsr ::
    s.stack.isrs⟩ := rfl
@[simp] theorem State.dispatch_history (s : State) : (s.dispatch).history = dispatchEvents s.slot ++ s.history :=
    rfl
@[simp] theorem State.dispatch_schedule (s : State) : (s.dispatch).schedule = s.schedule := rfl
@[simp] theorem State.dispatch_draws (s : State) : (s.dispatch).draws = s.draws := rfl

/-! A bottom event writes the flag and the history (42_run_state.md R161). -/

@[simp] theorem State.bottom_params (s : State) : (s.bottom).params = s.params := rfl
@[simp] theorem State.bottom_cnt (s : State) : (s.bottom).cnt = s.cnt := rfl
@[simp] theorem State.bottom_dir (s : State) : (s.bottom).dir = s.dir := rfl
@[simp] theorem State.bottom_top (s : State) : (s.bottom).top = s.top := rfl
@[simp] theorem State.bottom_psSel (s : State) : (s.bottom).psSel = s.psSel := rfl
@[simp] theorem State.bottom_csActive (s : State) : (s.bottom).csActive = s.csActive := rfl
@[simp] theorem State.bottom_ocr (s : State) : (s.bottom).ocr = s.ocr := rfl
@[simp] theorem State.bottom_duty (s : State) : (s.bottom).duty = s.duty := rfl
@[simp] theorem State.bottom_comEn (s : State) : (s.bottom).comEn = s.comEn := rfl
@[simp] theorem State.bottom_pinDir (s : State) : (s.bottom).pinDir = s.pinDir := rfl
@[simp] theorem State.bottom_ie (s : State) : (s.bottom).ie = s.ie := rfl
@[simp] theorem State.bottom_evtPending (s : State) : (s.bottom).evtPending = true := rfl
@[simp] theorem State.bottom_slot (s : State) : (s.bottom).slot = s.slot := rfl
@[simp] theorem State.bottom_gie (s : State) : (s.bottom).gie = s.gie := rfl
@[simp] theorem State.bottom_stack (s : State) : (s.bottom).stack = s.stack := rfl
@[simp] theorem State.bottom_history (s : State) : (s.bottom).history = .bottom :: s.history := rfl
@[simp] theorem State.bottom_schedule (s : State) : (s.bottom).schedule = s.schedule := rfl
@[simp] theorem State.bottom_draws (s : State) : (s.bottom).draws = s.draws := rfl

/-! `SET_GIE` writes `GIE` alone (60_exceptions.md R236). -/

@[simp] theorem State.setGie_params (s : State) (v : Bool) : (s.setGie v).params = s.params := rfl
@[simp] theorem State.setGie_cnt (s : State) (v : Bool) : (s.setGie v).cnt = s.cnt := rfl
@[simp] theorem State.setGie_dir (s : State) (v : Bool) : (s.setGie v).dir = s.dir := rfl
@[simp] theorem State.setGie_top (s : State) (v : Bool) : (s.setGie v).top = s.top := rfl
@[simp] theorem State.setGie_psSel (s : State) (v : Bool) : (s.setGie v).psSel = s.psSel := rfl
@[simp] theorem State.setGie_csActive (s : State) (v : Bool) : (s.setGie v).csActive = s.csActive := rfl
@[simp] theorem State.setGie_ocr (s : State) (v : Bool) : (s.setGie v).ocr = s.ocr := rfl
@[simp] theorem State.setGie_duty (s : State) (v : Bool) : (s.setGie v).duty = s.duty := rfl
@[simp] theorem State.setGie_comEn (s : State) (v : Bool) : (s.setGie v).comEn = s.comEn := rfl
@[simp] theorem State.setGie_pinDir (s : State) (v : Bool) : (s.setGie v).pinDir = s.pinDir := rfl
@[simp] theorem State.setGie_ie (s : State) (v : Bool) : (s.setGie v).ie = s.ie := rfl
@[simp] theorem State.setGie_evtPending (s : State) (v : Bool) : (s.setGie v).evtPending = s.evtPending := rfl
@[simp] theorem State.setGie_slot (s : State) (v : Bool) : (s.setGie v).slot = s.slot := rfl
@[simp] theorem State.setGie_gie (s : State) (v : Bool) : (s.setGie v).gie = v := rfl
@[simp] theorem State.setGie_stack (s : State) (v : Bool) : (s.setGie v).stack = s.stack := rfl
@[simp] theorem State.setGie_history (s : State) (v : Bool) : (s.setGie v).history = s.history := rfl
@[simp] theorem State.setGie_schedule (s : State) (v : Bool) : (s.setGie v).schedule = s.schedule := rfl
@[simp] theorem State.setGie_draws (s : State) (v : Bool) : (s.setGie v).draws = s.draws := rfl

/-! The context stack. -/

@[simp] theorem ContextStack.topBusy_setTopBusy (c : ContextStack) (b : Option Busy) :
    (c.setTopBusy b).topBusy = b := by
  rcases c with ⟨m, _ | ⟨x, xs⟩⟩ <;> rfl

@[simp] theorem ContextStack.topId_setTopBusy (c : ContextStack) (b : Option Busy) :
    (c.setTopBusy b).topId = c.topId := by
  unfold ContextStack.setTopBusy ContextStack.topId
  cases c.isrs <;> simp

@[simp] theorem ContextStack.setTopBusy_setTopBusy (c : ContextStack) (b b' : Option Busy) :
    (c.setTopBusy b).setTopBusy b' = c.setTopBusy b' := by
  unfold ContextStack.setTopBusy
  cases c.isrs <;> simp

/-- Writing what the top context's `busy` is already changes nothing. -/
theorem ContextStack.setTopBusy_self (c : ContextStack) (b : Option Busy) (h : c.topBusy = b) :
    c.setTopBusy b = c := by
  subst h
  rcases c with ⟨m, _ | ⟨x, xs⟩⟩ <;> rfl

@[simp] theorem ContextStack.isrs_length_setTopBusy (c : ContextStack) (b : Option Busy) :
    (c.setTopBusy b).isrs.length = c.isrs.length := by
  unfold ContextStack.setTopBusy
  cases c.isrs <;> simp

@[simp] theorem ContextStack.isrs_tail_setTopBusy (c : ContextStack) (b : Option Busy) :
    (c.setTopBusy b).isrs.tail = c.isrs.tail := by
  unfold ContextStack.setTopBusy
  cases c.isrs <;> simp

@[simp] theorem State.topBusy_setTopBusy (s : State) (b : Option Busy) : (s.setTopBusy b).topBusy = b := by
  simp [State.topBusy]

@[simp] theorem State.topBusy_issue (s : State) (i : Instr) :
    (s.issue i).topBusy = some ⟨i, 0, Locals.empty⟩ := by
  simp [State.topBusy]

@[simp] theorem State.topBusy_complete (s : State) (i : Instr) : (s.complete i).topBusy = none := by
  simp [State.topBusy]

/-- A context that accepts a command is idle. -/
theorem State.topBusy_of_issueEnabled (s : State) (h : s.issueEnabled = true) : s.topBusy = none := by
  unfold State.issueEnabled ContextStack.accepts at h
  unfold State.topBusy ContextStack.topBusy
  cases hi : s.stack.isrs <;> simp_all

/-- A context that has completed a command it accepted accepts the next one. -/
theorem ContextStack.accepts_setTopBusy_none (c : ContextStack) (h : c.accepts = true) :
    (c.setTopBusy none).accepts = true := by
  unfold ContextStack.accepts at *
  unfold ContextStack.setTopBusy
  cases hi : c.isrs <;> simp_all

end Sys2Proof.Machine
end

