-- ==== Sys2Proof/Laws/Ops.lean ====
section
/-! SUPPORT. One lemma for each shared operation that says once everything it can do: a command's step, a phase, a
tick, a move. Later proofs cite these and unfold nothing. -/

namespace Sys2Proof.Machine

/-- Every arm of the dispatch runs its command's phases (log 4). -/
theorem exec_eq_runCommand (i : Instr) (s : State) : exec i s = runCommand i (phasesOf i) s := by
  cases i <;> rfl

/-- A command that is accepted is issued. -/
theorem exec_issue (i : Instr) (s : State) (h : s.issueEnabled = true) : exec i s = .next (s.issue i) := by
  rw [exec_eq_runCommand, runCommand, s.topBusy_of_issueEnabled h]
  simp [h]

/-- A command in progress runs its next phase. -/
theorem exec_phase (b : Busy) (s : State) (h : s.topBusy = some b) :
    exec b.cmd s = .next (s.runPhase b.cmd (phasesOf b.cmd) b) := by
  rw [exec_eq_runCommand, runCommand, h]
  simp

/-- A command makes one of three steps: it is issued, its next phase runs, or it makes none. -/
theorem exec_cases (i : Instr) (s : State) :
    (s.issueEnabled = true ∧ exec i s = .next (s.issue i)) ∨
    (∃ b, s.topBusy = some b ∧ b.cmd = i ∧ exec i s = .next (s.runPhase i (phasesOf i) b)) ∨
    exec i s = .next s := by
  rw [exec_eq_runCommand, runCommand]
  cases ht : s.topBusy with
  | none => cases he : s.issueEnabled <;> simp
  | some b =>
    by_cases hb : b.cmd = i
    · exact .inr (.inl ⟨b, rfl, hb, by simp [hb]⟩)
    · exact .inr (.inr (by simp [hb]))

/-- The step of a plain phase that is not the command's last. -/
theorem runPhase_plain_mid {s : State} {i : Instr} {phases : List Phase} {b : Busy} {f : State → State}
    (hp : phases[b.k]? = some (.plain f)) (hk : b.k + 1 < phases.length) :
    s.runPhase i phases b = (f s).setTopBusy (some ⟨b.cmd, b.k + 1, b.locals⟩) := by
  simp [State.runPhase, hp, Phase.plain, State.advance, hk]

/-- The step of a plain phase that is the command's last. -/
theorem runPhase_plain_last {s : State} {i : Instr} {phases : List Phase} {b : Busy} {f : State → State}
    (hp : phases[b.k]? = some (.plain f)) (hk : phases.length ≤ b.k + 1) :
    s.runPhase i phases b = (f s).complete i := by
  simp [State.runPhase, hp, Phase.plain, State.advance, Nat.not_lt.mpr hk]

/-- What one sequencer step can do: complete a command with no phase left, be held, go on to the next phase, or run
the last phase and complete. -/
theorem runPhase_cases (s : State) (i : Instr) (phases : List Phase) (b : Busy) :
    (phases[b.k]? = none ∧ s.runPhase i phases b = s.complete i) ∨
    (∃ p, phases[b.k]? = some p ∧ p.ready b.locals s = false ∧ s.runPhase i phases b = s) ∨
    (∃ p, phases[b.k]? = some p ∧ p.ready b.locals s = true ∧ b.k + 1 < phases.length ∧
      s.runPhase i phases b =
        (p.run b.locals s).2.setTopBusy (some ⟨b.cmd, b.k + 1, (p.run b.locals s).1⟩)) ∨
    (∃ p, phases[b.k]? = some p ∧ p.ready b.locals s = true ∧ phases.length ≤ b.k + 1 ∧
      s.runPhase i phases b = (p.run b.locals s).2.complete i) := by
  unfold State.runPhase
  cases hp : phases[b.k]? with
  | none => simp
  | some p =>
    cases hr : p.ready b.locals s with
    | false => simp [hr]
    | true =>
      by_cases hk : b.k + 1 < phases.length
      · simp [hr, State.advance, hk]
      · simp [hr, State.advance, hk]
        omega

/-- Every phase of every command, by its command and its index: the effects that the rules of 40_period.md to
44_readback.md list, and no other. -/
inductive PhaseAt : Instr → Nat → Phase → Prop
  | sp1 {i k us} (h : periodPhaseOf i = some (k, us)) : PhaseAt i k (.plain (phaseSP1 us))
  | sp2 {i k us} (h : periodPhaseOf i = some (k, us)) : PhaseAt i (k + 1) (.plain phaseSP2)
  | in1 (us) : PhaseAt (.init us) 0 (.plain phaseIN1)
  | sd1 (c d) : PhaseAt (.setDuty (.channel c) d) 0 (.plain (phaseSD1 c d))
  | sd2 (c d) : PhaseAt (.setDuty (.channel c) d) 1 (.plain (phaseEnable c))
  | sa1 (d) : PhaseAt (.setDutyAll d) 0 (.plain (phaseSA1 d))
  | sa2 (d) : PhaseAt (.setDutyAll d) 1 (.plain phaseEnableAll)
  | pwmEnable (c d p k) : PhaseAt (.pwm (.channel c) d p) k (.plain (phaseEnable c))
  | pwmSD1 (c d p k) : PhaseAt (.pwm (.channel c) d p) k (.plain (phaseSD1 c d))
  | pw2 (c d p k) : PhaseAt (.pwm (.channel c) d p) k (.plain phaseReconnect)
  | pwmAllEnable (d p k) : PhaseAt (.pwmAll d p) k (.plain phaseEnableAll)
  | pwmAllSA1 (d p k) : PhaseAt (.pwmAll d p) k (.plain (phaseSA1 d))
  | pa2 (d p k) : PhaseAt (.pwmAll d p) k (.plain phaseReconnect)
  | dp1 (c) : PhaseAt (.disablePwm (.channel c)) 0 (.plain (phaseDP1 c))
  | at1 (cb p k) : PhaseAt (.attachInterrupt cb p) k (.plain (phaseAT1 cb))
  | at2 (cb p k) : PhaseAt (.attachInterrupt cb p) k (.plain phaseAT2)
  | dt1 : PhaseAt .detachInterrupt 0 (.plain phaseDT1)
  | st1 : PhaseAt .start 0 (.plain phaseST1)
  | st2 : PhaseAt .start 1 (.plain phaseST2)
  | st3 : PhaseAt .start 2 (.plain phaseST3)
  | st4 : PhaseAt .start 3 (.plain phaseST4)
  | st5 : PhaseAt .start 4 phaseST5
  | so1 : PhaseAt .stop 0 (.plain phaseSO1)
  | rs1 : PhaseAt .resume 0 (.plain phaseRS1)
  | rd1 : PhaseAt .read 0 phaseRD1
  | rd2 : PhaseAt .read 1 phaseRD2
  | rd3 : PhaseAt .read 2 phaseRD3

/-- A list's entries by index, one at a time. -/
theorem getElem?_cons_cases {α : Type} {x p : α} {xs : List α} {k : Nat} (h : (x :: xs)[k]? = some p) :
    (k = 0 ∧ p = x) ∨ ∃ j, k = j + 1 ∧ xs[j]? = some p := by
  cases k with
  | zero => simp at h; exact .inl ⟨rfl, h.symm⟩
  | succ j => exact .inr ⟨j, rfl, by simpa using h⟩

/-- The phase at an index of a command is one of the phases listed. -/
theorem phaseAt_of_getElem? {i : Instr} {k : Nat} {p : Phase} (h : (phasesOf i)[k]? = some p) :
    PhaseAt i k p := by
  cases i with
  | init us =>
    rcases getElem?_cons_cases h with ⟨rfl, rfl⟩ | ⟨j1, rfl, h1⟩
    · exact .in1 us
    rcases getElem?_cons_cases h1 with ⟨rfl, rfl⟩ | ⟨j2, rfl, h2⟩
    · exact .sp1 rfl
    rcases getElem?_cons_cases h2 with ⟨rfl, rfl⟩ | ⟨j3, rfl, h3⟩
    · exact .sp2 (k := 1) rfl
    · simp at h3
  | setPeriod us =>
    rcases getElem?_cons_cases h with ⟨rfl, rfl⟩ | ⟨j1, rfl, h1⟩
    · exact .sp1 rfl
    rcases getElem?_cons_cases h1 with ⟨rfl, rfl⟩ | ⟨j2, rfl, h2⟩
    · exact .sp2 (k := 0) rfl
    · simp at h2
  | setDuty ch d =>
    cases ch with
    | unrecognized => simp [phasesOf, setDutyPhases] at h
    | channel c =>
      rcases getElem?_cons_cases h with ⟨rfl, rfl⟩ | ⟨j1, rfl, h1⟩
      · exact .sd1 c d
      rcases getElem?_cons_cases h1 with ⟨rfl, rfl⟩ | ⟨j2, rfl, h2⟩
      · exact .sd2 c d
      · simp at h2
  | setDutyAll d =>
    rcases getElem?_cons_cases h with ⟨rfl, rfl⟩ | ⟨j1, rfl, h1⟩
    · exact .sa1 d
    rcases getElem?_cons_cases h1 with ⟨rfl, rfl⟩ | ⟨j2, rfl, h2⟩
    · exact .sa2 d
    · simp at h2
  | pwm ch d period =>
    cases ch with
    | unrecognized => simp [phasesOf, pwmPhases] at h
    | channel c =>
      have tail : ∀ j n : Nat, ([Phase.plain (phaseEnable c), .plain (phaseSD1 c d), .plain (phaseEnable c),
          .plain phaseReconnect] : List Phase)[j]? = some p → PhaseAt (.pwm (.channel c) d period) n p := by
        intro j n h
        rcases getElem?_cons_cases h with ⟨rfl, rfl⟩ | ⟨j1, rfl, h1⟩
        · exact .pwmEnable ..
        rcases getElem?_cons_cases h1 with ⟨rfl, rfl⟩ | ⟨j2, rfl, h2⟩
        · exact .pwmSD1 ..
        rcases getElem?_cons_cases h2 with ⟨rfl, rfl⟩ | ⟨j3, rfl, h3⟩
        · exact .pwmEnable ..
        rcases getElem?_cons_cases h3 with ⟨rfl, rfl⟩ | ⟨j4, rfl, h4⟩
        · exact .pw2 ..
        · simp at h4
      cases period with
      | none => exact tail k k h
      | some us =>
        rcases getElem?_cons_cases h with ⟨rfl, rfl⟩ | ⟨j1, rfl, h1⟩
        · exact .sp1 rfl
        rcases getElem?_cons_cases h1 with ⟨rfl, rfl⟩ | ⟨j2, rfl, h2⟩
        · exact .sp2 (k := 0) rfl
        · exact tail j2 _ h2
  | pwmAll d period =>
    have tail : ∀ j n : Nat, ([Phase.plain phaseEnableAll, .plain (phaseSA1 d), .plain phaseEnableAll,
        .plain phaseReconnect] : List Phase)[j]? = some p → PhaseAt (.pwmAll d period) n p := by
      intro j n h
      rcases getElem?_cons_cases h with ⟨rfl, rfl⟩ | ⟨j1, rfl, h1⟩
      · exact .pwmAllEnable ..
      rcases getElem?_cons_cases h1 with ⟨rfl, rfl⟩ | ⟨j2, rfl, h2⟩
      · exact .pwmAllSA1 ..
      rcases getElem?_cons_cases h2 with ⟨rfl, rfl⟩ | ⟨j3, rfl, h3⟩
      · exact .pwmAllEnable ..
      rcases getElem?_cons_cases h3 with ⟨rfl, rfl⟩ | ⟨j4, rfl, h4⟩
      · exact .pa2 ..
      · simp at h4
    cases period with
    | none => exact tail k k h
    | some us =>
      rcases getElem?_cons_cases h with ⟨rfl, rfl⟩ | ⟨j1, rfl, h1⟩
      · exact .sp1 rfl
      rcases getElem?_cons_cases h1 with ⟨rfl, rfl⟩ | ⟨j2, rfl, h2⟩
      · exact .sp2 (k := 0) rfl
      · exact tail j2 _ h2
  | disablePwm ch =>
    cases ch with
    | unrecognized => simp [phasesOf, disablePwmPhases] at h
    | channel c =>
      rcases getElem?_cons_cases h with ⟨rfl, rfl⟩ | ⟨j1, rfl, h1⟩
      · exact .dp1 c
      · simp at h1
  | attachInterrupt cb period =>
    have tail : ∀ j n : Nat, ([Phase.plain (phaseAT1 cb), .plain phaseAT2] : List Phase)[j]? = some p →
        PhaseAt (.attachInterrupt cb period) n p := by
      intro j n h
      rcases getElem?_cons_cases h with ⟨rfl, rfl⟩ | ⟨j1, rfl, h1⟩
      · exact .at1 ..
      rcases getElem?_cons_cases h1 with ⟨rfl, rfl⟩ | ⟨j2, rfl, h2⟩
      · exact .at2 ..
      · simp at h2
    cases period with
    | none => exact tail k k h
    | some us =>
      rcases getElem?_cons_cases h with ⟨rfl, rfl⟩ | ⟨j1, rfl, h1⟩
      · exact .sp1 rfl
      rcases getElem?_cons_cases h1 with ⟨rfl, rfl⟩ | ⟨j2, rfl, h2⟩
      · exact .sp2 (k := 0) rfl
      · exact tail j2 _ h2
  | detachInterrupt =>
    rcases getElem?_cons_cases h with ⟨rfl, rfl⟩ | ⟨j1, rfl, h1⟩
    · exact .dt1
    · simp at h1
  | start =>
    rcases getElem?_cons_cases h with ⟨rfl, rfl⟩ | ⟨j1, rfl, h1⟩
    · exact .st1
    rcases getElem?_cons_cases h1 with ⟨rfl, rfl⟩ | ⟨j2, rfl, h2⟩
    · exact .st2
    rcases getElem?_cons_cases h2 with ⟨rfl, rfl⟩ | ⟨j3, rfl, h3⟩
    · exact .st3
    rcases getElem?_cons_cases h3 with ⟨rfl, rfl⟩ | ⟨j4, rfl, h4⟩
    · exact .st4
    rcases getElem?_cons_cases h4 with ⟨rfl, rfl⟩ | ⟨j5, rfl, h5⟩
    · exact .st5
    · simp at h5
  | stop =>
    rcases getElem?_cons_cases h with ⟨rfl, rfl⟩ | ⟨j1, rfl, h1⟩
    · exact .so1
    · simp at h1
  | resume =>
    rcases getElem?_cons_cases h with ⟨rfl, rfl⟩ | ⟨j1, rfl, h1⟩
    · exact .rs1
    · simp at h1
  | read =>
    rcases getElem?_cons_cases h with ⟨rfl, rfl⟩ | ⟨j1, rfl, h1⟩
    · exact .rd1
    rcases getElem?_cons_cases h1 with ⟨rfl, rfl⟩ | ⟨j2, rfl, h2⟩
    · exact .rd2
    rcases getElem?_cons_cases h2 with ⟨rfl, rfl⟩ | ⟨j3, rfl, h3⟩
    · exact .rd3
    · simp at h3

/-- What `READ`'s result can be: the elapsed ticks where they are defined, else a free natural and one draw more. -/
theorem deliverResult_cases (s : State) (s1 s2 : Half) :
    (∃ n, elapsedTicks s1.toNat s2.toNat s.top.toNat = some n ∧
      s.deliverResult s1 s2 =
        s.emit (.result s.stack.topId (readResult s.params n (ratio s.psSel)))) ∨
    (elapsedTicks s1.toNat s2.toNat s.top.toNat = none ∧
      s.deliverResult s1 s2 = { s with draws := s.draws + 1 }.emit
        (.result s.stack.topId (readResult s.params (Config.freeTicks s.draws) (ratio s.psSel)))) := by
  unfold State.deliverResult State.takeTicks
  cases h : elapsedTicks s1.toNat s2.toNat s.top.toNat with
  | none => exact .inr ⟨rfl, rfl⟩
  | some n => exact .inl ⟨n, rfl, rfl⟩

/-- No phase touches the context stack: the sequencer alone moves the phase pointer (10_state.md R41). -/
theorem phaseAt_keeps_stack {i : Instr} {k : Nat} {p : Phase} (h : PhaseAt i k p) (l : Locals) (s : State) :
    (p.run l s).2.stack = s.stack := by
  cases h
  case rd3 =>
    rcases l with ⟨_ | s1, _ | s2⟩
    · rfl
    · rfl
    · rfl
    · rcases deliverResult_cases s s1 s2 with ⟨n, -, e⟩ | ⟨-, e⟩ <;> simp [phaseRD3, e]
  all_goals rfl

/-- What one move can do: nothing, or the one step of its agent. Guards included. -/
theorem takeMove_cases {m : Move} {s t : State} (h : takeMove m s = .next t) :
    t = s ∨
    (m = .tick ∧ s.csActive ≠ 0 ∧ t = s.tick) ∨
    (m = .phase ∧ ∃ b, s.topBusy = some b ∧ t = s.runPhase b.cmd (phasesOf b.cmd) b) ∨
    (m = .dispatch ∧ s.irq = true ∧ s.gie = true ∧ t = s.dispatch) ∨
    (m = .isrReturn ∧ s.isrReturnEnabled = true ∧ t = s.isrReturn) ∨
    (∃ w i, (m = .issue w ∨ ∃ bytes, m = .deliver bytes ∧ wordOfBytes bytes = some w) ∧
      s.issueEnabled = true ∧ decode w = .ok i ∧ t = s.issue i) ∨
    (∃ v, m = .setGie v ∧ s.setGieEnabled = true ∧ t = s.setGie v) ∨
    (m = .cbDone ∧ s.cbDoneEnabled = true ∧ t = s.endCallback) := by
  have issued : ∀ w, issueMove w s = .next t →
      t = s ∨ ∃ i, s.issueEnabled = true ∧ decode w = .ok i ∧ t = s.issue i := by
    intro w h
    unfold issueMove at h
    split at h
    · next he =>
      split at h
      · next i hd =>
        rw [exec_issue i s he] at h
        cases h
        exact .inr ⟨i, he, hd, rfl⟩
      · cases h
    · cases h
      exact .inl rfl
  cases m with
  | tick =>
    cases h
    by_cases hc : s.csActive = 0
    · exact .inl (by simp [State.tickEnabled, hc])
    · exact .inr (.inl ⟨rfl, hc, if_pos (by simpa [State.tickEnabled] using hc)⟩)
  | phase =>
    simp only [takeMove, phaseMove] at h
    cases hb : s.topBusy with
    | none =>
      rw [hb] at h
      cases h
      exact .inl rfl
    | some b =>
      rw [hb] at h
      simp only at h
      rw [exec_phase b s hb] at h
      cases h
      exact .inr (.inr (.inl ⟨rfl, b, rfl, rfl⟩))
  | dispatch =>
    cases h
    cases hi : s.irq <;> cases hg : s.gie <;> simp [State.dispatchEnabled, hi, hg]
  | isrReturn =>
    cases h
    cases hi : s.isrReturnEnabled <;> simp
  | issue w =>
    rcases issued w h with h | ⟨i, h⟩
    · exact .inl h
    · exact .inr (.inr (.inr (.inr (.inr (.inl ⟨w, i, .inl rfl, h⟩)))))
  | deliver bytes =>
    simp only [takeMove, deliverMove] at h
    cases hw : wordOfBytes bytes with
    | none =>
      rw [hw] at h
      cases h
      exact .inl rfl
    | some w =>
      rw [hw] at h
      rcases issued w h with h | ⟨i, h⟩
      · exact .inl h
      · exact .inr (.inr (.inr (.inr (.inr (.inl ⟨w, i, .inr ⟨bytes, rfl, hw⟩, h⟩)))))
  | setGie v =>
    cases h
    cases hi : s.setGieEnabled <;> simp
  | cbDone =>
    cases h
    cases hi : s.cbDoneEnabled <;> simp

/-- What one tick can do (42_run_state.md R161): count up, a bottom event at `CNT = 0`, arrive at the bottom, or count
down. -/
theorem tick_cases (s : State) :
    (s.dir = .up ∧ s.cnt.toNat < s.top.toNat ∧ s.tick = { s with cnt := s.cnt + 1 } ∧
      s.tick.cnt.toNat = s.cnt.toNat + 1) ∨
    (¬(s.dir = .up ∧ s.cnt.toNat < s.top.toNat) ∧ s.cnt.toNat = 0 ∧ s.tick = s.bottom) ∨
    (¬(s.dir = .up ∧ s.cnt.toNat < s.top.toNat) ∧ s.cnt.toNat = 1 ∧
      s.tick = { s.bottom with cnt := 0, dir := .up }) ∨
    (¬(s.dir = .up ∧ s.cnt.toNat < s.top.toNat) ∧ 2 ≤ s.cnt.toNat ∧
      s.tick = { s with cnt := s.cnt - 1, dir := .down } ∧ s.tick.cnt.toNat = s.cnt.toNat - 1) := by
  by_cases h1 : s.dir = .up ∧ s.cnt.toNat < s.top.toNat
  · refine .inl ⟨h1.1, h1.2, by simp [State.tick, h1], ?_⟩
    have := s.top.isLt
    simp only [State.tick, h1, and_self, if_true]
    rw [BitVec.toNat_add]
    simp
    omega
  · have hz : s.cnt = 0 ↔ s.cnt.toNat = 0 := by
      constructor
      · intro h; simp [h]
      · intro h; exact BitVec.eq_of_toNat_eq (by simpa using h)
    have ho : s.cnt - 1 = 0 ↔ s.cnt = 1 := by
      constructor
      · intro h; exact BitVec.sub_eq_iff_eq_add.mp h
      · intro h; simp [h]
    have ho' : s.cnt = 1 ↔ s.cnt.toNat = 1 := by
      constructor
      · intro h; simp [h]
      · intro h; exact BitVec.eq_of_toNat_eq (by simpa using h)
    rcases Nat.lt_trichotomy s.cnt.toNat 1 with h | h | h
    · have h0 : s.cnt.toNat = 0 := by omega
      exact .inr (.inl ⟨h1, h0, by rw [State.tick, if_neg h1, if_pos (hz.mpr h0)]⟩)
    · have e1 := ho'.mpr h
      refine .inr (.inr (.inl ⟨h1, h, ?_⟩))
      have h0 : ¬ s.cnt = 0 := by rw [hz]; omega
      simp only [State.tick, if_neg h1, if_neg h0, ho.mpr e1, if_true]
    · have h0 : ¬ s.cnt = 0 := by rw [hz]; omega
      have h2 : ¬ s.cnt - 1 = 0 := by rw [ho, ho']; omega
      refine .inr (.inr (.inr ⟨h1, h, by simp only [State.tick, if_neg h1, if_neg h0, if_neg h2], ?_⟩))
      simp only [State.tick, if_neg h1, if_neg h0, if_neg h2]
      have := s.cnt.isLt
      rw [BitVec.toNat_sub]
      simp
      omega

/-- A tick writes the counter, the direction, the event flag and the history, and nothing else. -/
theorem tick_frame (s : State) :
    s.tick = { s with
      cnt := s.tick.cnt
      dir := s.tick.dir
      evtPending := s.tick.evtPending
      history := s.tick.history } := by
  rcases tick_cases s with ⟨-, -, e, -⟩ | ⟨-, -, e⟩ | ⟨-, -, e⟩ | ⟨-, -, e, -⟩ <;> rw [e] <;> rfl

end Sys2Proof.Machine
end

