-- ==== Sys2Proof/Laws/Moves.lean ====
section
/-! SUPPORT. What a step, a move and a phase do to one piece of the state: the context stack, the commands in
progress, and every field that only some phases write. -/

namespace Sys2Proof.Machine

/-- A command always answers a next state (60_exceptions.md R220). -/
theorem exec_next (i : Instr) (s : State) : ∃ t, exec i s = .next t := by
  rcases exec_cases i s with ⟨-, h⟩ | ⟨b, -, -, h⟩ | h <;> exact ⟨_, h⟩

/-- A step is a move from the state with the schedule and the draws moved on. -/
theorem takeMove_of_step {s t : State} (h : step s = .next t) :
    ∃ m l d, takeMove m { s with schedule := l, draws := d } = .next t := by
  unfold step State.nextMove at h
  split at h
  · exact ⟨_, _, s.draws, h⟩
  · exact ⟨_, s.schedule, _, h⟩

/-- A property that the sequencer's own writes and the command's phase keep holds after the sequencer's step. -/
theorem runPhase_keeps {b : Busy} {s : State} (P : State → Prop)
   (h0 : P s)
   (hset : ∀ t c, P t → P (t.setTopBusy c)) (hem : ∀ t e, P t → P (t.emit e))
   (hrun : ∀ p, PhaseAt b.cmd b.k p → p.ready b.locals s = true → P (p.run b.locals s).2) : P (s.runPhase b.cmd
       (phasesOf b.cmd) b) := by
  rcases runPhase_cases s b.cmd (phasesOf b.cmd) b with ⟨-, e⟩ | ⟨p, -, -, e⟩ | ⟨p, hp, hr, -, e⟩ | ⟨p, hp, hr,
      -, e⟩
  · rw [e]; exact hset _ _ (hem _ _ h0)
  · rw [e]; exact h0
  · rw [e]; exact hset _ _ (hrun p (phaseAt_of_getElem? hp) hr)
  · rw [e]; exact hset _ _ (hem _ _ (hrun p (phaseAt_of_getElem? hp) hr))

/-- An interrupt return writes the stack, `GIE` and the history, and nothing else. -/
theorem isrReturn_frame (s : State) :
    s.isrReturn =
      { s with stack := s.isrReturn.stack, gie := s.isrReturn.gie, history := s.isrReturn.history } := by
  unfold State.isrReturn; split <;> rfl

/-- The end of a callback writes the stack, and nothing else. -/
theorem endCallback_frame (s : State) : s.endCallback = { s with stack := s.endCallback.stack } := by
  unfold State.endCallback; split <;> rfl

/-- RD3 writes the history and the draws, and nothing else. -/
theorem phaseRD3_frame (l : Locals) (s : State) :
    (phaseRD3.run l s).2 =
      { s with history := (phaseRD3.run l s).2.history, draws := (phaseRD3.run l s).2.draws } := by
  rcases l with ⟨_ | s1, _ | s2⟩
  · rfl
  · rfl
  · rfl
  · simp only [phaseRD3]
    rcases deliverResult_cases s s1 s2 with ⟨n, _, e⟩ | ⟨_, e⟩ <;> rw [e] <;> rfl

/-- The suspended contexts do not see a write of the top context's `busy`. -/
theorem ContextStack.suspended_setTopBusy (c : ContextStack) (b) : (c.setTopBusy b).suspended = c.suspended := by
  rcases c with ⟨m, _ | ⟨x, xs⟩⟩ <;> simp [ContextStack.setTopBusy, ContextStack.suspended, ContextStack.busies]

/-- The commands in progress after a write of the top context's `busy`. -/
theorem ContextStack.busies_setTopBusy (c : ContextStack) (b) : (c.setTopBusy b).busies = b :: c.suspended := by
  rcases c with ⟨m, _ | ⟨x, xs⟩⟩ <;> simp [ContextStack.setTopBusy, ContextStack.suspended, ContextStack.busies]

/-- The commands in progress: the top context's, then the suspended ones. -/
theorem ContextStack.busies_eq (c : ContextStack) : c.busies = c.topBusy :: c.suspended := by
  rcases c with ⟨m, _ | ⟨x, xs⟩⟩ <;> simp [ContextStack.topBusy, ContextStack.suspended, ContextStack.busies]

/-- What one move does to the context stack. -/
inductive StackMove (s t : State) : Prop
  | same (h : t.stack = s.stack)
  | issue (i) (he : s.issueEnabled = true) (hw : i.wellFormed = true)
      (h : t.stack = s.stack.setTopBusy (some ⟨i, 0, Locals.empty⟩))
  | finish (b) (hb : s.topBusy = some b) (h : t.stack = s.stack.setTopBusy none)
  | next (b p) (hb : s.topBusy = some b) (hp : (phasesOf b.cmd)[b.k]? = some p) (hr : p.ready b.locals s = true)
      (hk : b.k + 1 < (phasesOf b.cmd).length)
      (h : t.stack = s.stack.setTopBusy (some ⟨b.cmd, b.k + 1, (p.run b.locals s).1⟩))
  | push (hi : s.irq = true) (hg : s.gie = true) (h : t.stack = ⟨s.stack.main, s.newIsr :: s.stack.isrs⟩)
  | pop (c cs) (hs : s.stack.isrs = c :: cs) (hb : c.busy = none) (hc : c.cbDone = true)
      (h : t.stack = ⟨s.stack.main, cs⟩)
  | done (c cs) (hs : s.stack.isrs = c :: cs) (hb : c.busy = none)
      (h : t.stack = ⟨s.stack.main, { c with cbDone := true } :: cs⟩)

/-- Every move does one of these to the stack. -/
theorem stack_move {m} {s t : State} (h : takeMove m s = .next t) : StackMove s t := by
  rcases takeMove_cases h with e | ⟨a, b, e⟩ | ⟨a, b, hb, e⟩ | ⟨a, hi, hg, e⟩ | ⟨a, h', e⟩ | ⟨w, i, -, he, hd, e⟩
      | ⟨v, a, -, e⟩ | ⟨-, h', e⟩
  · exact .same (by rw [e])
  · exact .same (by rw [e, tick_frame])
  · subst e
    rcases runPhase_cases s b.cmd (phasesOf b.cmd) b with ⟨-, e'⟩ | ⟨p, -, -, e'⟩ | ⟨p, hp, hr, hk, e'⟩ | ⟨p, hp,
        hr, -, e'⟩
    · exact .finish b hb (by rw [e']; rfl)
    · exact .same (by rw [e'])
    · exact .next b p hb hp hr hk (by rw [e', State.setTopBusy_stack, phaseAt_keeps_stack (phaseAt_of_getElem? hp)])
    · exact .finish b hb (by rw [e', State.complete_stack, phaseAt_keeps_stack (phaseAt_of_getElem? hp)])
  · exact .push hi hg (by rw [e]; rfl)
  · subst e
    unfold State.isrReturnEnabled at h'
    cases hs : s.stack.isrs with
    | nil => rw [hs] at h'; cases h'
    | cons c cs =>
      rw [hs] at h'; simp [IsrContext.mayReturn] at h'
      exact .pop c cs hs h'.1 h'.2 (by simp [State.isrReturn, hs])
  · exact .issue i he (wellFormed_of_decode hd) (by rw [e]; rfl)
  · exact .same (by rw [e]; rfl)
  · subst e
    unfold State.cbDoneEnabled at h'
    cases hs : s.stack.isrs with
    | nil => rw [hs] at h'; cases h'
    | cons c cs =>
      rw [hs] at h'; simp [IsrContext.mayEndCallback] at h'
      exact .done c cs hs h'.1 (by simp [State.endCallback, hs])

/-- The interrupt contexts after a write of the top context's `busy`. -/
theorem mem_isrs_setTopBusy {c : ContextStack} {b x} (h : x ∈ (c.setTopBusy b).isrs) : x ∈ c.isrs ∨ ∃ y cs,
    c.isrs = y :: cs ∧ x = { y with busy := b } := by
  rcases c with ⟨m, _ | ⟨y, ys⟩⟩
  · simp [ContextStack.setTopBusy] at h
  · simp [ContextStack.setTopBusy] at h
    rcases h with h | h
    · exact .inr ⟨y, ys, rfl, h⟩
    · exact .inl (by simp [h])

/-- The top context's command is in progress. -/
theorem top_mem_busies {s : State} {b} (h : s.topBusy = some b) : some b ∈ s.stack.busies := by
  rw [ContextStack.busies_eq]; simp; left; exact h.symm

/-- A suspended context's command is in progress. -/
theorem suspended_mem_busies {s : State} {b} (h : b ∈ s.stack.suspended) : b ∈ s.stack.busies := by
  rw [ContextStack.busies_eq]; simp [h]

/-- A command in progress after a move was in progress before, has just been issued, or has gone on to its next phase. -/
theorem busies_move {s t : State} (h : StackMove s t) {b} (hm : some b ∈ t.stack.busies) :
    some b ∈ s.stack.busies ∨ (∃ i, i.wellFormed = true ∧ b = ⟨i, 0, Locals.empty⟩) ∨ ∃ b' p,
    s.topBusy = some b' ∧ (phasesOf b'.cmd)[b'.k]? = some p ∧ p.ready b'.locals s = true ∧ b'.k + 1 <
    (phasesOf b'.cmd).length ∧ b = ⟨b'.cmd, b'.k+1, (p.run b'.locals s).1⟩ := by
  cases h with
  | same h => rw [h] at hm; exact .inl hm
  | issue i he hw h =>
    rw [h, ContextStack.busies_setTopBusy] at hm
    simp at hm
    rcases hm with rfl | hm
    · exact .inr (.inl ⟨i, hw, rfl⟩)
    · exact .inl (suspended_mem_busies hm)
  | finish b' hb h =>
    rw [h, ContextStack.busies_setTopBusy] at hm
    simp at hm
    exact .inl (suspended_mem_busies hm)
  | next b' p hb hp hr hk h =>
    rw [h, ContextStack.busies_setTopBusy] at hm
    simp at hm
    rcases hm with rfl | hm
    · exact .inr (.inr ⟨b', p, hb, hp, hr, hk, rfl⟩)
    · exact .inl (suspended_mem_busies hm)
  | push hi hg h => rw [h] at hm; simp [ContextStack.busies,
      State.newIsr] at hm; left; simp [ContextStack.busies, hm]
  | pop c cs hs hb hc h => rw [h] at hm; left; simp [ContextStack.busies, hs, hb] at *; exact hm
  | done c cs hs hb h => rw [h] at hm; left; simp [ContextStack.busies, hs, hb] at *; exact hm

/-- With a command on top only ticks, phases and the dispatch are enabled (60_exceptions.md R229, R236). -/
theorem not_enabled_of_busy {s : State} (h : s.topBusy ≠ none) : s.isrReturnEnabled = false ∧
    s.issueEnabled = false ∧ s.setGieEnabled = false ∧ s.cbDoneEnabled = false := by
  unfold State.topBusy ContextStack.topBusy at h
  unfold State.isrReturnEnabled State.issueEnabled State.setGieEnabled State.cbDoneEnabled ContextStack.accepts ContextStack.topOpen IsrContext.mayReturn IsrContext.mayEndCallback
  cases hi : s.stack.isrs with
  | nil => rw [hi] at h; simp at h; simp; cases hm : s.stack.main <;> simp_all
  | cons c cs => rw [hi] at h; simp at h; simp [h]

/-- While the top context is held and no dispatch is possible, only a tick moves the machine (10_state.md R42). -/
theorem held_move {m} {s t : State} (hb : s.topBusy ≠ none) (hp : s.phaseEnabled = false) (hd : s.ie = false ∨
    s.gie = false) (h : takeMove m s = .next t) : t = s ∨ (m = .tick ∧ s.csActive ≠ 0 ∧ t = s.tick) := by
  obtain ⟨h1, h2, h3, h4⟩ := not_enabled_of_busy hb
  rcases takeMove_cases h with h | h | ⟨-, b, hb', e⟩ | ⟨-, h, h', -⟩ | ⟨-, h, -⟩ | ⟨w, i, -, h, -⟩ | ⟨v, -, h, -⟩
      | ⟨-, h, -⟩
  · exact .inl h
  · exact .inr h
  · left
    rw [e]
    unfold State.phaseEnabled at hp
    rw [hb'] at hp
    simp only at hp
    unfold State.runPhase
    cases hq : (phasesOf b.cmd)[b.k]? with
    | none => rw [hq] at hp; simp at hp
    | some p => rw [hq] at hp; simp only at hp; simp [hp]
  · exfalso
    unfold State.irq at h
    rcases hd with hd | hd <;> simp_all
  all_goals simp_all

/-- The saved `GIE`s of the interrupt contexts, the top one first. -/
def ContextStack.savedGies (c : ContextStack) : List Bool := c.isrs.map IsrContext.savedGie

/-- A write of the top context's `busy` leaves the saved `GIE`s alone. -/
@[simp] theorem ContextStack.savedGies_setTopBusy (c : ContextStack) (b) :
    (c.setTopBusy b).savedGies = c.savedGies := by
  rcases c with ⟨m, _ | ⟨x, xs⟩⟩ <;> rfl

/-- `GieInv` in terms of the saved `GIE`s. -/
theorem gieInv_iff (v : Bool) (s : State) :
    GieInv v s ↔ (s.stack.savedGies = [] → s.gie = v) ∧ ∀ x, s.stack.savedGies.getLast? = some x → x = v := by
  constructor
  · rintro ⟨a, b⟩
    refine ⟨fun h => a (by simpa [ContextStack.savedGies] using h), fun x hx => ?_⟩
    simp only [ContextStack.savedGies, List.getLast?_map, Option.map_eq_some_iff] at hx
    obtain ⟨c, hc, rfl⟩ := hx
    exact b c hc
  · rintro ⟨a, b⟩
    exact ⟨fun h => a (by simp [ContextStack.savedGies, h]),
      fun c hc => b _ (by simp [ContextStack.savedGies, List.getLast?_map, hc])⟩

/-- No phase writes `GIE` (43_interrupt.md R192). -/
theorem phaseAt_keeps_gie {i : Instr} {k : Nat} {p : Phase} (h : PhaseAt i k p) (l : Locals) (s : State) :
    (p.run l s).2.gie = s.gie := by
  cases h
  case rd3 => rw [phaseRD3_frame]
  all_goals rfl

/-- No phase writes `GIE` or a saved `GIE`. -/
theorem runPhase_keeps_gie (s : State) (b : Busy) :
    (s.runPhase b.cmd (phasesOf b.cmd) b).gie = s.gie ∧
      (s.runPhase b.cmd (phasesOf b.cmd) b).stack.savedGies = s.stack.savedGies :=
  runPhase_keeps (fun t => t.gie = s.gie ∧ t.stack.savedGies = s.stack.savedGies) ⟨rfl, rfl⟩
    (fun t c h => ⟨h.1, by rw [State.setTopBusy_stack, ContextStack.savedGies_setTopBusy, h.2]⟩)
    (fun _ _ h => h)
    (fun _ hp _ => ⟨phaseAt_keeps_gie hp _ _, by rw [phaseAt_keeps_stack hp]⟩)

/-- Everything a move can do to `GIE` and the saved `GIE`s, and whether the environment gives a value in it. -/
inductive GieMove (m : Move) (s t : State) : Prop
  | same (hg : t.gie = s.gie) (hs : t.stack.savedGies = s.stack.savedGies)
      (hv : ∀ counts v, givenGie counts m s v = v)
  | given (w : Bool) (hm : m = .setGie w) (he : s.setGieEnabled = true) (h : t = s.setGie w)
  | entry (hm : m = .dispatch) (hg : s.gie = true) (hg' : t.gie = false)
      (hs : t.stack.savedGies = true :: s.stack.savedGies)
  | back (hm : m = .isrReturn) (hs : s.stack.savedGies = t.gie :: t.stack.savedGies)

/-- Every move does one of these to `GIE`. -/
theorem gie_move {m} {s t : State} (h : takeMove m s = .next t) : GieMove m s t := by
  by_cases hm : ∃ w, m = .setGie w
  · obtain ⟨w, rfl⟩ := hm
    cases he : s.setGieEnabled with
    | true => exact .given w rfl he (by simpa [takeMove, he] using h.symm)
    | false =>
      have ht : t = s := by simpa [takeMove, he] using h.symm
      subst ht
      exact .same rfl rfl fun counts v => by simp [givenGie, he]
  · have hv : ∀ counts v, givenGie counts m s v = v := by
      intro counts v
      cases m with
      | setGie w => exact absurd ⟨w, rfl⟩ hm
      | _ => rfl
    rcases takeMove_cases h with e | ⟨-, -, e⟩ | ⟨-, b, -, e⟩ | ⟨a, -, hg, e⟩ | ⟨a, he, e⟩ | ⟨w, i, -, -, -, e⟩
        | ⟨w, a, -⟩ | ⟨-, -, e⟩
    · exact .same (by rw [e]) (by rw [e]) hv
    · exact .same (by rw [e, tick_frame]) (by rw [e, tick_frame]) hv
    · exact .same (by rw [e, (runPhase_keeps_gie s b).1]) (by rw [e, (runPhase_keeps_gie s b).2]) hv
    · exact .entry a hg (by rw [e]; rfl) (by rw [e]; simp [State.dispatch, ContextStack.savedGies, State.newIsr, hg])
    · unfold State.isrReturnEnabled at he
      cases hs : s.stack.isrs with
      | nil => rw [hs] at he; cases he
      | cons c cs => exact .back a (by rw [e]; simp [State.isrReturn, hs, ContextStack.savedGies])
    · exact .same (by rw [e]; rfl)
        (by rw [e]; simp [State.issue, State.emit, State.setTopBusy]) hv
    · exact absurd ⟨w, a⟩ hm
    · refine .same (by rw [e, endCallback_frame]) ?_ hv
      rw [e]
      unfold State.endCallback
      split
      · rfl
      · next hs => simp [hs, ContextStack.savedGies]

end Sys2Proof.Machine
end

