-- ==== Sys2Proof/Laws/Operands.lean ====
section
/-! SUPPORT. The values operands are computed to: the period calculator, the prescaler ratios, the compare value and
the per-channel files. -/

namespace Sys2Proof

/-- Reading a channel's entry after a write of one channel's entry. -/
@[simp] theorem PerChannel.get_set {α} (f : PerChannel α) (c ch) (a : α) :
    (f.set c a).get ch = if c = ch then a else f.get ch := by cases ch <;> cases c <;> rfl

/-- Reading a channel's entry after a write of every entry. -/
@[simp] theorem PerChannel.get_fill {α} (ch) (a : α) : (PerChannel.fill a).get ch = a := by cases ch <;> rfl

namespace Machine

/-- The period calculator as the five comparisons of its rule (40_period.md R110, R112). -/
theorem periodCalc_eq (c us : Nat) : periodCalc c us =
  (if rawCycles c us / 1 < 65536 then (rawCycles c us / 1, 1)
   else if rawCycles c us / 8 < 65536 then (rawCycles c us / 8, 2)
   else if rawCycles c us / 64 < 65536 then (rawCycles c us / 64, 3)
   else if rawCycles c us / 256 < 65536 then (rawCycles c us / 256, 4)
   else if rawCycles c us / 1024 < 65536 then (rawCycles c us / 1024, 5) else (65535, 5)) := rfl

/-- The period's top value fits its register (40_period.md R114). -/
theorem periodCalc_lt (c us) : (periodCalc c us).1 < 65536 := by
  rw [periodCalc_eq]; repeat' split
  all_goals simp_all

/-- The period's prescaler code is 1 to 5 (40_period.md R112). -/
theorem periodCalc_code (c us) : 1 ≤ (periodCalc c us).2.toNat ∧ (periodCalc c us).2.toNat ≤ 5 := by
  rw [periodCalc_eq]; repeat' split
  all_goals simp

/-- The ratios of the selectable prescaler codes (10_state.md R27). -/
theorem ratio_cases (c : PsCode) (h1 : 1 ≤ c.toNat) (h2 : c.toNat ≤ 5) : ratio c = 1 ∨ ratio c = 8 ∨
    ratio c = 64 ∨ ratio c = 256 ∨ ratio c = 1024 := by
  have : c = 1 ∨ c = 2 ∨ c = 3 ∨ c = 4 ∨ c = 5 := by
    revert h1 h2 c; decide
  rcases this with rfl | rfl | rfl | rfl | rfl
  · exact .inl rfl
  · exact .inr (.inl rfl)
  · exact .inr (.inr (.inl rfl))
  · exact .inr (.inr (.inr (.inl rfl)))
  · exact .inr (.inr (.inr (.inr rfl)))

/-- The compare value is at most 65471 (41_duty_pwm.md R130). -/
theorem compareOf_le (s : State) (d : DutyFraction) : (s.compareOf d).toNat ≤ 65471 := by
  have h1 := s.top.isLt; have h2 := d.isLt
  have : s.top.toNat * d.toNat ≤ 65535 * 1023 := Nat.mul_le_mul (by omega) (by omega)
  simp only [State.compareOf, dutyCompare, BitVec.toNat_ofNat]
  generalize s.top.toNat * d.toNat = x at *
  omega

end Machine

end Sys2Proof
end

