-- ==== Sys2Proof/Laws/PerInstr.lean ====
section
/-! SUPPORT. The per-instruction families of LAWS.json. -/

namespace Sys2Proof.Laws

namespace EncodedRow

/-- The word of a command names a row of the opcode map, and sets no bit that the row's format reserves
(30_encoding.md R82, R89, R92). -/
def Statement (i : Instr) : Prop :=
  ∃ fmt command, opcodeRow (opcOf (encode i)) = some (fmt, command) ∧ encode i &&& reservedMask fmt = 0

theorem init (us : Micros) : Statement (.init us) :=
  ⟨.T, _, by rw [encode, opcOf_packFields]; rfl, reserved_T ..⟩

theorem setPeriod (us : Micros) : Statement (.setPeriod us) :=
  ⟨.T, _, by rw [encode, opcOf_packFields]; rfl, reserved_T ..⟩

theorem setDuty (ch : ChanSel) (duty : DutyFraction) : Statement (.setDuty ch duty) :=
  ⟨.CD, _, by rw [encode, opcOf_packFields]; rfl, reserved_CD ..⟩

theorem setDutyAll (duty : DutyFraction) : Statement (.setDutyAll duty) :=
  ⟨.D, _, by rw [encode, opcOf_packFields]; rfl, reserved_D ..⟩

theorem pwm (ch : ChanSel) (duty : DutyFraction) (period : Option Micros) : Statement (.pwm ch duty period) :=
  ⟨.CDP, _, by rw [encode, opcOf_packFields]; rfl, reserved_CDP ..⟩

theorem pwmAll (duty : DutyFraction) (period : Option Micros) : Statement (.pwmAll duty period) :=
  ⟨.DP, _, by rw [encode, opcOf_packFields]; rfl, reserved_DP ..⟩

theorem disablePwm (ch : ChanSel) : Statement (.disablePwm ch) :=
  ⟨.C, _, by rw [encode, opcOf_packFields]; rfl, reserved_C ..⟩

theorem attachInterrupt (cb : Option HandlerId) (period : Option Micros) :
    Statement (.attachInterrupt cb period) :=
  ⟨.HP, _, by rw [encode, opcOf_packFields]; rfl, reserved_HP ..⟩

theorem detachInterrupt : Statement .detachInterrupt :=
  ⟨.N, _, by rw [encode, opcOf_packFields]; rfl, reserved_N ..⟩

theorem start : Statement .start :=
  ⟨.N, _, by rw [encode, opcOf_packFields]; rfl, reserved_N ..⟩

theorem stop : Statement .stop :=
  ⟨.N, _, by rw [encode, opcOf_packFields]; rfl, reserved_N ..⟩

theorem resume : Statement .resume :=
  ⟨.N, _, by rw [encode, opcOf_packFields]; rfl, reserved_N ..⟩

theorem read : Statement .read :=
  ⟨.N, _, by rw [encode, opcOf_packFields]; rfl, reserved_N ..⟩

end EncodedRow

end Sys2Proof.Laws
end

