-- ==== Sys2Proof/Laws/Runs.lean ====
section
/-! SUPPORT. Sequences: steps of one command in a row, lists of moves, ticks in a row. -/

namespace Sys2Proof.Machine

/-- A context that accepts a command has no `busy` to clear. -/
theorem setTopBusy_none_of_issueEnabled {s : State} (h : s.issueEnabled = true) :
    s.stack.setTopBusy none = s.stack :=
  ContextStack.setTopBusy_self _ _ (s.topBusy_of_issueEnabled h)

/-- The first of a row of a command's steps. -/
theorem execChain_cons {n i} {s t : State} (h : exec i s = .next t) : execChain (n+1) i s = execChain n i t := by
  simp [execChain, h]

/-- A row that begins with the command being issued. -/
theorem execChain_issue {n i} {s : State} (h : s.issueEnabled = true) : execChain (n+1) i s = execChain n i
    (s.issue i) := execChain_cons (exec_issue i s h)

/-- A row that begins with a plain phase that is not the last. -/
theorem execChain_plain {n i k l} {s : State} (f : State → State) (hb : s.topBusy = some ⟨i, k, l⟩) (hp :
    (phasesOf i)[k]? = some (.plain f)) (hk : k + 1 < (phasesOf i).length) :
   execChain (n+1) i s = execChain n i ((f s).setTopBusy (some ⟨i, k+1, l⟩)) := by
  apply execChain_cons
  rw [exec_phase _ s hb, runPhase_plain_mid hp hk]

/-- A row that begins with the plain last phase. -/
theorem execChain_last {n i k l} {s : State} (f : State → State) (hb : s.topBusy = some ⟨i, k, l⟩) (hp :
    (phasesOf i)[k]? = some (.plain f)) (hk : (phasesOf i).length ≤ k + 1) :
   execChain (n+1) i s = execChain n i ((f s).complete i) := by
  apply execChain_cons
  rw [exec_phase _ s hb, runPhase_plain_last hp hk]

/-- Issuing and running a command of one plain phase. -/
theorem execChain_one_phase {i : Instr} {f : State → State} {s : State} (hp : phasesOf i = [.plain f]) (h :
    s.issueEnabled = true) :
   execChain 2 i s = .next ((f (s.issue i)).complete i) := by
  rw [execChain_issue h, execChain_last f (State.topBusy_issue ..) (by rw [hp]; rfl) (by rw [hp]; simp)]; rfl

/-- The first of a list of moves. -/
theorem runMoves_cons {m ms} {s t : State} (h : takeMove m s = .next t) : runMoves (m :: ms) s = runMoves ms t :=
    by simp [runMoves, h]

/-- A list that begins with the issue of a command's word. -/
theorem runMoves_issue {ms} {s : State} (i : Instr) (hd : decode (encode i) = .ok i) (h : s.issueEnabled = true) :
    runMoves (.issue (encode i) :: ms) s = runMoves ms (s.issue i) := by
  apply runMoves_cons; simp [takeMove, issueMove, h, hd, exec_issue]

/-- A list that begins with a plain phase that is not the last. -/
theorem runMoves_phase {ms} {s : State} {i k l} (f : State → State) (hb : s.topBusy = some ⟨i, k, l⟩) (hp :
    (phasesOf i)[k]? = some (.plain f)) (hk : k + 1 < (phasesOf i).length) :
   runMoves (.phase :: ms) s = runMoves ms ((f s).setTopBusy (some ⟨i, k+1, l⟩)) := by
  apply runMoves_cons
  simp only [takeMove, phaseMove, hb]
  rw [exec_phase _ s hb, runPhase_plain_mid hp hk]

/-- A list that begins with the plain last phase. -/
theorem runMoves_last {ms} {s : State} {i k l} (f : State → State) (hb : s.topBusy = some ⟨i, k, l⟩) (hp :
    (phasesOf i)[k]? = some (.plain f)) (hk : (phasesOf i).length ≤ k + 1) :
   runMoves (.phase :: ms) s = runMoves ms ((f s).complete i) := by
  apply runMoves_cons
  simp only [takeMove, phaseMove, hb]
  rw [exec_phase _ s hb, runPhase_plain_last hp hk]

/-- A list that begins with a tick. -/
theorem runMoves_tick {ms} {s : State} (h : s.csActive ≠ 0) : runMoves (.tick :: ms) s = runMoves ms s.tick := by
  apply runMoves_cons
  simp [takeMove, State.tickEnabled]; exact fun h' => absurd h' h

/-- A list that begins with a dispatch. -/
theorem runMoves_dispatch {ms} {s : State} (h : s.irq = true) (hg : s.gie = true) : runMoves (.dispatch ::
    ms) s = runMoves ms s.dispatch := by
  apply runMoves_cons
  simp [takeMove, State.dispatchEnabled, h, hg]

/-- A list that begins with an interrupt return. -/
theorem runMoves_isrReturn {ms} {s : State} (h : s.isrReturnEnabled = true) : runMoves (.isrReturn ::
    ms) s = runMoves ms s.isrReturn := by
  apply runMoves_cons
  simp [takeMove, h]

/-- A list that begins with the end of a callback. -/
theorem runMoves_cbDone {ms} {s : State} (h : s.cbDoneEnabled = true) : runMoves (.cbDone ::
    ms) s = runMoves ms s.endCallback := by
  apply runMoves_cons
  simp [takeMove, h]

/-- A list of moves in two parts. -/
theorem runMoves_append {ms ms'} {s t : State} (h : runMoves ms s = .next t) : runMoves
    (ms ++ ms') s = runMoves ms' t := by
  induction ms generalizing s with
  | nil => cases h; rfl
  | cons m ms ih =>
    simp only [runMoves, List.cons_append] at *
    split at h
    · next s' hs => exact ih h
    · cases h
    · cases h

/-- Ticks in a row while the clock is connected (42_run_state.md R160). -/
theorem runMoves_ticks (s : State) (k : Nat) (h : s.csActive ≠ 0) : runMoves (List.replicate k .tick) s = .next
    (s.ticks k) := by
  induction k generalizing s with
  | zero => rfl
  | succ k ih =>
    rw [List.replicate_succ, runMoves]
    have : takeMove .tick s = .next s.tick := by simp [takeMove, State.tickEnabled]; exact fun h' => absurd h' h
    rw [this]
    exact ih s.tick (by rwa [tick_frame])

/-- The last of a row of ticks. -/
theorem ticks_succ (s : State) (k : Nat) : s.ticks (k+1) = (s.ticks k).tick := by
  induction k generalizing s with
  | zero => rfl
  | succ k ih => exact ih s.tick

/-- A row of ticks writes the counter, the direction, the event flag and the history, and nothing else. -/
theorem ticks_frame (s : State) (k : Nat) :
    s.ticks k = { s with
      cnt := (s.ticks k).cnt
      dir := (s.ticks k).dir
      evtPending := (s.ticks k).evtPending
      history := (s.ticks k).history } := by
  induction k with
  | zero => rfl
  | succ k ih =>
    rw [ticks_succ]
    generalize s.ticks k = t at *
    have := tick_frame t
    generalize t.tick = u at *
    rw [this, ih]

/-- A tick reads the counter, the direction, the top value and the event flag alone. -/
theorem tick_congr (s t : State) (h1 : s.cnt = t.cnt) (h2 : s.dir = t.dir) (h3 : s.top = t.top)
    (h4 : s.evtPending = t.evtPending) :
    s.tick.cnt = t.tick.cnt ∧ s.tick.dir = t.tick.dir ∧ s.tick.evtPending = t.tick.evtPending := by
  unfold State.tick
  rw [h1, h2, h3]
  split
  · exact ⟨rfl, rfl, h4⟩
  · split
    · exact ⟨h1, h2, rfl⟩
    · split
      · exact ⟨rfl, rfl, rfl⟩
      · exact ⟨rfl, rfl, h4⟩

/-- A row of ticks reads the counter, the direction, the top value and the event flag alone. -/
theorem ticks_congr (n : Nat) (s t : State) (h1 : s.cnt = t.cnt) (h2 : s.dir = t.dir) (h3 : s.top = t.top)
    (h4 : s.evtPending = t.evtPending) :
    (s.ticks n).cnt = (t.ticks n).cnt ∧ (s.ticks n).evtPending = (t.ticks n).evtPending := by
  induction n generalizing s t with
  | zero => exact ⟨h1, h4⟩
  | succ n ih =>
    obtain ⟨a, b, c⟩ := tick_congr s t h1 h2 h3 h4
    exact ih s.tick t.tick a b (by rw [tick_frame s, tick_frame t]; exact h3) c

end Sys2Proof.Machine
end

