-- ==== Sys2Proof/Machine/Assembler.lean ====
section
/-! DEFINITION. The assembler syntax (30_encoding.md R92, R93; log 21): one command per line, a comment after `;`, a
case-insensitive mnemonic, operands separated by commas. Text is a list of characters. -/

namespace Sys2Proof.Machine

/-- A line's command with the operands as the numbers the source wrote (30_encoding.md R92). -/
inductive AsmCommand where
  | init (us : Nat)
  | setPeriod (us : Nat)
  | setDuty (ch : ChanSel) (duty : Nat)
  | setDutyAll (duty : Nat)
  | pwm (ch : ChanSel) (duty : Nat) (period : Option Nat)
  | pwmAll (duty : Nat) (period : Option Nat)
  | disablePwm (ch : ChanSel)
  | attach (cb : Nat) (period : Option Nat)
  | detach
  | start
  /-- The pseudo-instruction (30_encoding.md R93). -/
  | restart
  | stop
  | resume
  | read
  deriving DecidableEq, Repr

/-- Why a line does not assemble. -/
inductive AsmError where
  | unknownMnemonic
  | badOperands
  /-- "An assembler rejects an operand outside its range; it does not truncate" (30_encoding.md R92). -/
  | outOfRange
  deriving DecidableEq, Repr

/-- An optional `<us>` is in range. -/
def periodInRange : Option Nat → Bool
  | none => true
  | some us => microsInRange us

/-- Every operand is in its range (30_encoding.md R92). -/
def AsmCommand.inRange : AsmCommand → Bool
  | .init us => microsInRange us
  | .setPeriod us => microsInRange us
  | .setDuty _ d => dutyInRange d
  | .setDutyAll d => dutyInRange d
  | .pwm _ d period => dutyInRange d && periodInRange period
  | .pwmAll d period => dutyInRange d && periodInRange period
  | .disablePwm _ => true
  | .attach cb period => handlerInRange cb && periodInRange period
  | .detach => true
  | .start => true
  | .restart => true
  | .stop => true
  | .resume => true
  | .read => true

/-- The command of a line whose operands are in range; `restart` is `START` (30_encoding.md R92, R93). -/
def AsmCommand.toInstr : AsmCommand → Instr
  | .init us => .init (BitVec.ofNat 32 us)
  | .setPeriod us => .setPeriod (BitVec.ofNat 32 us)
  | .setDuty ch d => .setDuty ch (BitVec.ofNat 10 d)
  | .setDutyAll d => .setDutyAll (BitVec.ofNat 10 d)
  | .pwm ch d period => .pwm ch (BitVec.ofNat 10 d) (period.map (BitVec.ofNat 32))
  | .pwmAll d period => .pwmAll (BitVec.ofNat 10 d) (period.map (BitVec.ofNat 32))
  | .disablePwm ch => .disablePwm ch
  | .attach cb period => .attachInterrupt (callbackOfId (BitVec.ofNat 16 cb)) (period.map (BitVec.ofNat 32))
  | .detach => .detachInterrupt
  | .start => .start
  | .restart => .start
  | .stop => .stop
  | .resume => .resume
  | .read => .read

/-- The word of a line's command (30_encoding.md R92). -/
def AsmCommand.assemble (c : AsmCommand) : Except AsmError CmdWord :=
  if c.inRange then .ok (encode c.toInstr) else .error .outOfRange

/-! ### Text -/

/-- White space between tokens (log 21). -/
def isBlank (c : Char) : Bool := c = ' ' || c = '\t' || c = '\r'

/-- A token without the white space around it. -/
def trimBlanks (cs : List Char) : List Char :=
  ((cs.dropWhile isBlank).reverse.dropWhile isBlank).reverse

/-- The pieces between the separators. -/
def splitAtChar (sep : Char) : List Char → List (List Char)
  | [] => [[]]
  | c :: cs =>
    match splitAtChar sep cs with
    | [] => [[c]]
    | piece :: more => if c = sep then [] :: piece :: more else (c :: piece) :: more

/-- The value of a digit in a base, none for a character that is no digit of it. -/
def digitValue (base : Nat) (c : Char) : Option Nat :=
  let v :=
    if '0'.toNat ≤ c.toNat ∧ c.toNat ≤ '9'.toNat then c.toNat - '0'.toNat
    else if 'a'.toNat ≤ c.toNat ∧ c.toNat ≤ 'f'.toNat then c.toNat - 'a'.toNat + 10
    else if 'A'.toNat ≤ c.toNat ∧ c.toNat ≤ 'F'.toNat then c.toNat - 'A'.toNat + 10
    else base
  if v < base then some v else none

/-- A number from its digits, most significant first, added to what was read before. -/
def digitsFrom (base acc : Nat) : List Char → Option Nat
  | [] => some acc
  | c :: cs =>
    match digitValue base c with
    | some v => digitsFrom base (acc * base + v) cs
    | none => none

/-- A decimal number, or a hexadecimal one after `0x` (00_scope.md R7, 30_encoding.md R92). -/
def parseNumber : List Char → Option Nat
  | [] => none
  | '0' :: 'x' :: c :: cs => digitsFrom 16 0 (c :: cs)
  | c :: cs => digitsFrom 10 0 (c :: cs)

/-- `<ch>` is `A`, `B`, `C` or `X` (30_encoding.md R92). -/
def parseChannel : List Char → Option ChanSel
  | ['A'] => some (.channel .A)
  | ['B'] => some (.channel .B)
  | ['C'] => some (.channel .C)
  | ['X'] => some .unrecognized
  | _ => none

/-- The operands of a form with one number. -/
def oneNumber (f : Nat → AsmCommand) : List (List Char) → Option AsmCommand
  | [a] => (parseNumber a).map f
  | _ => none

/-- The operands of a form with one number and an optional period. -/
def numberAndPeriod (f : Nat → Option Nat → AsmCommand) : List (List Char) → Option AsmCommand
  | [a] => (parseNumber a).map fun n => f n none
  | [a, p] => (parseNumber a).bind fun n => (parseNumber p).map fun us => f n (some us)
  | _ => none

/-- The operands of a form without operands. -/
def noOperands (c : AsmCommand) : List (List Char) → Option AsmCommand
  | [] => some c
  | _ => none

/-- The operands of `disable_pwm`. -/
def channelOnly : List (List Char) → Option AsmCommand
  | [c] => (parseChannel c).map .disablePwm
  | _ => none

/-- The operands of `set_duty`. -/
def channelAndDuty : List (List Char) → Option AsmCommand
  | [c, d] => (parseChannel c).bind fun ch => (parseNumber d).map (.setDuty ch)
  | _ => none

/-- The operands of `pwm`. -/
def pwmOperands : List (List Char) → Option AsmCommand
  | c :: rest => (parseChannel c).bind fun ch => numberAndPeriod (.pwm ch) rest
  | [] => none

/-- The operand form of each mnemonic, in lower case (30_encoding.md R92, R93). -/
def asmForms : List (List Char × (List (List Char) → Option AsmCommand)) :=
  [("initialize".toList, oneNumber .init),
   ("set_period".toList, oneNumber .setPeriod),
   ("set_duty".toList, channelAndDuty),
   ("set_duty_all".toList, oneNumber .setDutyAll),
   ("pwm".toList, pwmOperands),
   ("pwm_all".toList, numberAndPeriod .pwmAll),
   ("disable_pwm".toList, channelOnly),
   ("attach".toList, numberAndPeriod .attach),
   ("detach".toList, noOperands .detach),
   ("start".toList, noOperands .start),
   ("restart".toList, noOperands .restart),
   ("stop".toList, noOperands .stop),
   ("resume".toList, noOperands .resume),
   ("read".toList, noOperands .read)]

/-- The form of a mnemonic in any case. -/
def formOfMnemonic (m : List Char) : Option (List (List Char) → Option AsmCommand) :=
  (asmForms.find? fun row => row.1 = m.map Char.toLower).map Prod.snd

/-- The operands of a line after its mnemonic. -/
def operandTokens (cs : List Char) : List (List Char) :=
  if (trimBlanks cs).isEmpty then [] else (splitAtChar ',' cs).map trimBlanks

/-- A line without its comment. -/
def stripComment (cs : List Char) : List Char := cs.takeWhile fun c => c != ';'

/-- The command of a line, none for a line without one (30_encoding.md R92). -/
def parseLine (line : List Char) : Except AsmError (Option AsmCommand) :=
  let text := trimBlanks (stripComment line)
  if text.isEmpty then .ok none
  else
    match formOfMnemonic (text.takeWhile fun c => !isBlank c) with
    | none => .error .unknownMnemonic
    | some form =>
      match form (operandTokens (text.dropWhile fun c => !isBlank c)) with
      | none => .error .badOperands
      | some c => .ok (some c)

/-- The word of a line, none for a line without a command. -/
def assembleLine (line : List Char) : Except AsmError (Option CmdWord) :=
  match parseLine line with
  | .error e => .error e
  | .ok none => .ok none
  | .ok (some c) =>
    match c.assemble with
    | .error e => .error e
    | .ok w => .ok (some w)

/-- The words of the lines of a program, in order; the first line that does not assemble rejects it. -/
def assembleLines : List (List Char) → Except AsmError (List CmdWord)
  | [] => .ok []
  | line :: more =>
    match assembleLine line, assembleLines more with
    | .error e, _ => .error e
    | .ok _, .error e => .error e
    | .ok none, .ok ws => .ok ws
    | .ok (some w), .ok ws => .ok (w :: ws)

/-- The words of a program text, one command per line (30_encoding.md R92). -/
def assembleText (text : List Char) : Except AsmError (List CmdWord) :=
  assembleLines (splitAtChar '\n' text)

end Sys2Proof.Machine
end

