-- ==== Sys2Proof/Tests/Slice0.lean ====
section
/-! SUPPORT. The model's own tests. Expected values come from the spec: words from the field layout of
30_encoding.md R81 and R82, results from 95_test_vectors.md (the vector is named in each comment). The theorems
`witness_<Name>` show that the hypotheses of `Obligations.<Name>` can be met, clause by clause. -/

namespace Sys2Proof.Tests

open Sys2Proof.Machine

/-! ### Well-formedness: one ill-formed term for each check -/

theorem wf_refuses_callback_id_zero : (Instr.attachInterrupt (some 0) none).wellFormed = false := by decide
theorem wf_refuses_us_out_of_range : microsInRange 4294967296 = false ∧ microsInRange 4294967295 = true := by decide
theorem wf_refuses_duty_out_of_range : dutyInRange 1024 = false ∧ dutyInRange 1023 = true := by decide
theorem wf_refuses_handler_out_of_range : handlerInRange 65536 = false ∧ handlerInRange 65535 = true := by decide
theorem wf_refuses_shared_pin :
    pinMapOneToOne ⟨4, 5, 4⟩ = false ∧ pinMapOneToOne ⟨4, 4, 5⟩ = false ∧ pinMapOneToOne ⟨5, 4, 4⟩ = false := by decide
theorem wf_refuses_clock_zero :
    ({ Params.vectors with clockHz := 0 } : Params).wellFormed = false ∧ Params.vectors.wellFormed = true := by decide

/-! ### Decoding: a word of each command, written field by field: OPC, P, 5 bits, CH, the 16 bits of CB or DUTY, US -/

theorem dec_init : decode (0x01#8 ++ 0#1 ++ 0#5 ++ 0#2 ++ 0#16 ++ 1000#32) = .ok (.init 1000) := by decide
theorem dec_setPeriod :
    decode (0x02#8 ++ 0#1 ++ 0#5 ++ 0#2 ++ 0#16 ++ 0xFFFFFFFF#32) = .ok (.setPeriod 0xFFFFFFFF) := by decide
theorem dec_setDuty :
    decode (0x03#8 ++ 0#1 ++ 0#5 ++ 2#2 ++ 0#6 ++ 0x155#10 ++ 0#32) = .ok (.setDuty (.channel .C) 0x155) := by decide
theorem dec_setDutyAll :
    decode (0x04#8 ++ 0#1 ++ 0#5 ++ 0#2 ++ 0#6 ++ 1023#10 ++ 0#32) = .ok (.setDutyAll 1023) := by decide
theorem dec_pwm :
    decode (0x05#8 ++ 1#1 ++ 0#5 ++ 1#2 ++ 0#6 ++ 256#10 ++ 20000#32) =
      .ok (.pwm (.channel .B) 256 (some 20000)) := by decide
theorem dec_pwm_without_period :
    decode (0x05#8 ++ 0#1 ++ 0#5 ++ 3#2 ++ 0#6 ++ 5#10 ++ 1000#32) = .ok (.pwm .unrecognized 5 none) := by decide
theorem dec_pwmAll :
    decode (0x06#8 ++ 1#1 ++ 0#5 ++ 0#2 ++ 0#6 ++ 1#10 ++ 0#32) = .ok (.pwmAll 1 (some 0)) := by decide
theorem dec_disablePwm :
    decode (0x07#8 ++ 0#1 ++ 0#5 ++ 2#2 ++ 0#16 ++ 0#32) = .ok (.disablePwm (.channel .C)) := by decide
theorem dec_attachInterrupt :
    decode (0x08#8 ++ 1#1 ++ 0#5 ++ 0#2 ++ 0xABCD#16 ++ 7#32) = .ok (.attachInterrupt (some 0xABCD) (some 7)) := by
  decide
theorem dec_attachInterrupt_no_callable :
    decode (0x08#8 ++ 0#1 ++ 0#5 ++ 0#2 ++ 0#16 ++ 0x1234#32) = .ok (.attachInterrupt none none) := by decide
theorem dec_detachInterrupt : decode (0x09#8 ++ 0#56) = .ok .detachInterrupt := by decide
theorem dec_start : decode (0x0A#8 ++ 0#56) = .ok .start := by decide
theorem dec_stop : decode (0x0B#8 ++ 0#56) = .ok .stop := by decide
theorem dec_resume : decode (0x0C#8 ++ 0#56) = .ok .resume := by decide
theorem dec_read : decode (0x0D#8 ++ 0#56) = .ok .read := by decide

/-- Section 2: reserved opcodes. -/
theorem dec_reserved_opcodes :
    decode 0x0000000000000000 = .error .reservedOpcode ∧ decode 0x0E00000000000000 = .error .reservedOpcode ∧
    decode 0xFF00000000000000 = .error .reservedOpcode := by decide

/-- Section 2: a reserved bit of each format. -/
theorem dec_reserved_bits :
    decode 0x0A00000000000001 = .error .reservedBitsNonzero ∧
    decode 0x0200000100000000 = .error .reservedBitsNonzero ∧
    decode 0x0203000000000000 = .error .reservedBitsNonzero ∧
    decode 0x0300040000000000 = .error .reservedBitsNonzero ∧
    decode 0x0401000000000000 = .error .reservedBitsNonzero ∧
    decode 0x0504000000000000 = .error .reservedBitsNonzero ∧
    decode 0x0600040000000000 = .error .reservedBitsNonzero ∧
    decode 0x0700000100000000 = .error .reservedBitsNonzero ∧
    decode 0x0840000000000000 = .error .reservedBitsNonzero ∧
    decode 0x0D00000000010000 = .error .reservedBitsNonzero := by decide

/-- Section 2, serialization. -/
theorem dec_serialized_word :
    decodeBytes [0x20, 0x4E, 0x00, 0x00, 0x00, 0x01, 0x81, 0x05] = .ok (.pwm (.channel .B) 256 (some 20000)) ∧
    bytesOfWord 0x0581010000004E20 = [0x20, 0x4E, 0x00, 0x00, 0x00, 0x01, 0x81, 0x05] ∧
    decodeBytes [0x20, 0x4E, 0x00, 0x00, 0x00, 0x01, 0x81] = .error .partialWord ∧
    decodeTableWord 64 0x0581010000004E20 = some (.pwm (.channel .B) 256 (some 20000)) := by decide

/-- 30_encoding.md R92: words of the assembler's table. -/
theorem enc_words :
    encode (.init 1000000) = 0x01000000000F4240 ∧ encode (.pwm (.channel .A) 512 none) = 0x0500020000000000 ∧
    encode (.pwmAll 256 (some 20000)) = 0x0680010000004E20 ∧
    encode (.attachInterrupt (some 0x0100) none) = 0x0800010000000000 ∧
    encode (.disablePwm .unrecognized) = 0x0703000000000000 := by decide

/-- Program P4's lines and words, in the syntax of 30_encoding.md R92 and R93. -/
theorem asm_program :
    assembleText "PWM_all 256, 20000 ; all three\nset_duty X, 0x64\nrestart\nread".toList =
      .ok [0x0680010000004E20, 0x0303006400000000, 0x0A00000000000000, 0x0D00000000000000] := by decide
theorem asm_rejects_out_of_range :
    assembleText "set_duty A, 1024".toList = .error .outOfRange ∧
    assembleText "attach 65536".toList = .error .outOfRange ∧
    assembleText "set_period 4294967296".toList = .error .outOfRange ∧
    assembleText "jump 3".toList = .error .unknownMnemonic := by decide

/-! ### One step of each command -/

/-- Reset, with the main context at phase `k` of the command `i`. -/
def atMain (i : Instr) (k : Nat) (l : Locals := Locals.empty) : State :=
  { State.reset with stack := ⟨some ⟨i, k, l⟩, []⟩ }

/-- Reset, with one interrupt context above an idle main context. -/
def inIsr (c : IsrContext) : State := { State.reset with stack := ⟨none, [c]⟩ }

/-- A property of the next state of one step of `i`. -/
def holdsAfter (i : Instr) (s : State) (p : State → Bool) : Bool :=
  match exec i s with
  | .next t => p t
  | .fault _ => false
  | .refused _ => false

/-- A property of the next state of one move. -/
def holdsAfterMove (m : Move) (s : State) (p : State → Bool) : Bool :=
  match takeMove m s with
  | .next t => p t
  | .fault _ => false
  | .refused _ => false

/-- S1: 31250 and prescaler 256. -/
theorem test_setPeriod_selects : holdsAfter (.setPeriod 1000000) (atMain (.setPeriod 1000000) 0) (fun t =>
    t.top = 31250 ∧ t.psSel = 4 ∧ t.csActive = 0 ∧ t.topBusy = some ⟨.setPeriod 1000000, 1, Locals.empty⟩) = true := by
  decide
/-- Section 3: 4294967295 µs saturates. -/
theorem test_setPeriod_saturates : holdsAfter (.setPeriod 0xFFFFFFFF) (atMain (.setPeriod 0xFFFFFFFF) 0) (fun t =>
    t.top = 65535 ∧ t.psSel = 5) = true := by decide
/-- Section 3, last command vector: `COM_EN` is cleared first. -/
theorem test_init_disables : holdsAfter (.init 1000)
    { atMain (.init 1000) 0 with comEn := ⟨true, true, true⟩, csActive := 2, psSel := 2 } (fun t =>
      t.comEn = ⟨false, false, false⟩ ∧ t.csActive = 0 ∧ t.psSel = 2) = true := by decide
/-- Section 3: 1000 µs gives 8000 ticks with ratio 1. -/
theorem test_init_selects : holdsAfter (.init 1000) (atMain (.init 1000) 1) (fun t =>
    t.top = 8000 ∧ t.psSel = 1) = true := by decide
/-- S13: top 31250, duty 511 gives 15594. -/
theorem test_setDuty_truncates : holdsAfter (.setDuty (.channel .B) 511)
    { atMain (.setDuty (.channel .B) 511) 0 with top := 31250 } (fun t =>
      t.ocr = ⟨0, 15594, 0⟩ ∧ t.duty = ⟨0, 511, 0⟩ ∧ t.comEn = ⟨false, false, false⟩) = true := by decide
/-- Section 4: `set_duty X, 100` is a no-op. -/
theorem test_setDuty_unrecognized : holdsAfter (.setDuty .unrecognized 100)
    { atMain (.setDuty .unrecognized 100) 0 with top := 8000 } (fun t =>
      t.ocr = ⟨0, 0, 0⟩ ∧ t.pinDir = ⟨false, false, false⟩ ∧ t.topBusy = none) = true := by decide
/-- Section 4: top 8000, duty 1023 gives 7992 on every channel. -/
theorem test_setDutyAll : holdsAfter (.setDutyAll 1023)
    { atMain (.setDutyAll 1023) 0 with top := 8000 } (fun t =>
      t.ocr = ⟨7992, 7992, 7992⟩ ∧ t.duty = ⟨1023, 1023, 1023⟩) = true := by decide
/-- 41_duty_pwm.md R133: without a period the first phase enables the channel. -/
theorem test_pwm_enables_first : holdsAfter (.pwm (.channel .B) 256 none)
    (atMain (.pwm (.channel .B) 256 none) 0) (fun t =>
      t.pinDir = ⟨false, true, false⟩ ∧ t.comEn = ⟨false, true, false⟩ ∧ t.ocr = ⟨0, 0, 0⟩) = true := by decide
/-- Section 4: `pwm X, 5, 1000` applies neither the period nor the duty. -/
theorem test_pwm_unrecognized : holdsAfter (.pwm .unrecognized 5 (some 1000))
    (atMain (.pwm .unrecognized 5 (some 1000)) 0) (fun t =>
      t.top = 0 ∧ t.psSel = 0 ∧ t.topBusy = none) = true := by decide
/-- Section 4: `pwm_all 0, 1000000` ends by connecting the prescaler. -/
theorem test_pwmAll_reconnects : holdsAfter (.pwmAll 0 (some 1000000))
    { atMain (.pwmAll 0 (some 1000000)) 5 with psSel := 4 } (fun t =>
      t.csActive = 4 ∧ t.topBusy = none) = true := by decide
/-- Section 4: `disable_pwm C` leaves the pin to the port. -/
theorem test_disablePwm : holdsAfter (.disablePwm (.channel .C))
    { atMain (.disablePwm (.channel .C)) 0 with comEn := ⟨true, true, true⟩, pinDir := ⟨true, true, true⟩ } (fun t =>
      t.comEn = ⟨true, true, false⟩ ∧ t.pinDir = ⟨true, true, true⟩ ∧ t.pin .C = .portDriven) = true := by decide
/-- I6: after the two period phases the slot is written, then `IE`. -/
theorem test_attach_slot : holdsAfter (.attachInterrupt (some 0x0100) (some 1000))
    (atMain (.attachInterrupt (some 0x0100) (some 1000)) 2) (fun t =>
      t.slot = some 0x0100 ∧ t.ie = false) = true := by decide
/-- I3: the stale event is requested at once. -/
theorem test_attach_enables : holdsAfter (.attachInterrupt (some 0x0100) none)
    { atMain (.attachInterrupt (some 0x0100) none) 1 with evtPending := true } (fun t =>
      t.ie = true ∧ t.irq = true ∧ t.topBusy = none) = true := by decide
/-- I2: the slot and the event flag are kept. -/
theorem test_detach : holdsAfter .detachInterrupt
    { atMain .detachInterrupt 0 with ie := true, evtPending := true, slot := some 0x0100 } (fun t =>
      t.ie = false ∧ t.evtPending = true ∧ t.slot = some 0x0100 ∧ t.irq = false) = true := by decide
/-- T7: ST3 zeroes the counter. -/
theorem test_start_zeroes : holdsAfter .start { atMain .start 2 with cnt := 5000, dir := .down } (fun t =>
    t.cnt = 0 ∧ t.dir = .up ∧ t.evtPending = false) = true := by decide
/-- T8: ST5 waits while `CNT = 0`. -/
theorem test_start_waits : holdsAfter .start (atMain .start 4) (fun t =>
    t.topBusy = some ⟨.start, 4, Locals.empty⟩) = true := by decide
/-- T6: the counter keeps its value and direction. -/
theorem test_stop : holdsAfter .stop { atMain .stop 0 with cnt := 123, dir := .down, psSel := 4, csActive := 4 } (fun t =>
    t.csActive = 0 ∧ t.cnt = 123 ∧ t.dir = .down ∧ t.psSel = 4) = true := by decide
/-- T6: the selected prescaler is connected again. -/
theorem test_resume : holdsAfter .resume { atMain .resume 0 with cnt := 123, dir := .down, psSel := 4 } (fun t =>
    t.csActive = 4 ∧ t.cnt = 123 ∧ t.dir = .down) = true := by decide
/-- RD5: samples 700 and 699 under top 800 give 56. -/
theorem test_read_descending : holdsAfter .read
    { atMain .read 2 ⟨some 700, some 699⟩ with top := 800, psSel := 1, cnt := 698 } (fun t =>
      t.history = [.complete .main .read, .result .main 56] ∧ t.cnt = 698) = true := by decide
/-- RD9: the largest defined result. -/
theorem test_read_largest : holdsAfter .read
    { atMain .read 2 ⟨some 1, some 0⟩ with top := 65535, psSel := 5 } (fun t =>
      t.history = [.complete .main .read, .result .main 8388480]) = true := by decide

/-! ### One move of the other agents -/

/-- T1: the turn at the top. -/
theorem test_tick_turns : holdsAfterMove .tick { State.reset with csActive := 1, top := 3, cnt := 3 } (fun t =>
    t.cnt = 2 ∧ t.dir = .down ∧ t.evtPending = false) = true := by decide
/-- T1: the bottom event. -/
theorem test_tick_bottom : holdsAfterMove .tick { State.reset with csActive := 1, top := 3, cnt := 1, dir := .down }
    (fun t => t.cnt = 0 ∧ t.dir = .up ∧ t.evtPending = true ∧ t.history = [.bottom]) = true := by decide
/-- I1: the interrupt entry. -/
theorem test_dispatch : holdsAfterMove .dispatch
    { State.reset with ie := true, evtPending := true, gie := true, slot := some 0x0100 } (fun t =>
      t.evtPending = false ∧ t.gie = false ∧ t.stack.isrs = [⟨none, true, some 0x0100, false⟩] ∧
        t.history = [.call 0x0100, .dispatch (some 0x0100)]) = true := by decide
/-- I5: without a handler the context may return at once. -/
theorem test_dispatch_without_handler : holdsAfterMove .dispatch
    { State.reset with ie := true, evtPending := true, gie := true } (fun t =>
      t.isrReturnEnabled ∧ t.history = [.dispatch none]) = true := by decide
/-- I1: the interrupt return. -/
theorem test_isrReturn : holdsAfterMove .isrReturn (inIsr ⟨none, true, some 0x0100, true⟩) (fun t =>
    t.gie = true ∧ t.stack.isrs = [] ∧ t.history = [.isrReturn]) = true := by decide
/-- E2, E3: no issue into a busy context, nor into one whose callback is done. -/
theorem test_no_issue : (atMain .stop 0).issueEnabled = false ∧
    (inIsr ⟨none, true, some 0x0100, true⟩).issueEnabled = false ∧
    (inIsr ⟨none, true, some 0x0100, false⟩).issueEnabled = true := by decide
/-- Program P1: the level at and below the match, and the pin. -/
theorem test_output_level :
    ({ State.reset with cnt := 15624, ocr := ⟨15625, 0, 0⟩ } : State).ocLevel .A = true ∧
    ({ State.reset with cnt := 15625, ocr := ⟨15625, 0, 0⟩ } : State).ocLevel .A = false ∧
    ({ State.reset with ocr := ⟨15625, 0, 0⟩, pinDir := ⟨true, false, false⟩, comEn := ⟨true, false, false⟩ } :
      State).pin .A = .drive true := by decide
/-- The first step after reset with a word on the port issues the word's command. -/
theorem test_first_step : (match step (State.reset.withFetchWord 64 0x0A00000000000000) with
    | .next t => decide (t.topBusy = some ⟨.start, 0, Locals.empty⟩ ∧ t.history = [.issue .main .start])
    | .fault _ => false
    | .refused _ => false) = true := by decide
/-- E4: a refused word. -/
theorem test_refused_step :
    step (State.reset.withFetchWord 64 0x0E00000000000000) = .refused .reservedOpcode := by rfl

/-! ### Witnesses: the hypotheses of the obligations -/

/-- A running machine, idle, with the interrupt requested, enabled and attached. -/
def requested : State :=
  { State.reset with
    top := 800, psSel := 1, csActive := 1, cnt := 5, ie := true, evtPending := true, gie := true, slot := some 0x0100 }

theorem witness_DecodeReadsBackEveryEncodedCommand :
    (Instr.attachInterrupt (some 0xFFFF) (some 0)).wellFormed = true ∧
    (Instr.pwm .unrecognized 1023 none).wellFormed = true := by decide

theorem witness_EncodeGivesBackEveryDecodedWord :
    decode 0x0880FFFF00000000 = .ok (.attachInterrupt (some 0xFFFF) (some 0)) ∧
    (opcOf 0x0501010000004E20 = 0x05 ∧ periodFlagOf 0x0501010000004E20 = 0) ∧
    (opcOf 0x0600010000001234 = 0x06 ∧ periodFlagOf 0x0600010000001234 = 0) ∧
    (opcOf 0x0800000000001234 = 0x08 ∧ periodFlagOf 0x0800000000001234 = 0) := by decide

theorem witness_DecoderRefusesExactlyTheReservedWords :
    State.reset.issueEnabled = true ∧ decode 0x0E00000000000000 = .error .reservedOpcode ∧
    decode 0x0D00000000000001 = .error .reservedBitsNonzero := by decide

theorem witness_StepRunsTheDecodedInstruction :
    (({ State.reset with schedule := [.issue 0x0B00000000000000, .tick] } : State).issueEnabled = true ∧
      decode 0x0B00000000000000 = .ok .stop) ∧
    wordOfBytes [0x00, 0x00, 0x00, 0x00, 0x00, 0x00, 0x00, 0x0B] = some 0x0B00000000000000 ∧
    ({ atMain .stop 0 with schedule := [.phase] } : State).topBusy = some ⟨.stop, 0, Locals.empty⟩ ∧
    State.reset.schedule = [] ∧ Instr.stop.wellFormed = true := by decide

theorem witness_OnlyARefusedWordStopsTheMachine :
    step { State.reset with schedule := [.issue 0x0A00000000000001] } = .refused .reservedBitsNonzero := by rfl

theorem witness_IssuedCommandWaitsAtItsFirstPhase :
    State.reset.issueEnabled = true ∧ State.reset.stack.isrs = [] ∧
    (inIsr ⟨none, true, some 0x0100, false⟩).stack.isrs = [⟨none, true, some 0x0100, false⟩] ∧
    (inIsr ⟨none, true, some 0x0100, true⟩).issueEnabled = false ∧
    ([0x0B, 0x00] : List Byte).length ≠ 8 := by decide

theorem witness_PeriodCalcSelectsTheSmallestPrescaler :
    rawCycles 16000000 8388608 = 67108864 ∧ rawCycles 16000000 8388607 < 67108864 ∧
    periodCalc 16000000 8388607 = (65535, 5) ∧ periodCalc 16000000 8192 = (8192, 2) ∧ 1024 ∈ [1, 8, 64, 256, 1024] := by
  decide

theorem witness_PrescalerGrowsWithTheRequestUpToSaturation :
    8191 ≤ 8192 ∧ (periodCalc 16000000 65535).2 = (periodCalc 16000000 8192).2 ∧ 1 ≤ 16000000 / 2000000 ∧
    (67108864 + 16000000 / 2000000 - 1) / (16000000 / 2000000) - 1 = 8388607 ∧ 1999999 / 2000000 = 0 := by decide

theorem witness_RealizedPeriodFallsShortByTheRemainder :
    16000000 % 2000000 = 0 ∧ rawCycles 16000000 8388607 < 67108864 := by decide

theorem witness_PeriodPhasesWriteTopPrescalerAndClock :
    (atMain (.setPeriod 0) 0).topBusy = some ⟨.setPeriod 0, 0, Locals.empty⟩ ∧
    (atMain (.setPeriod 0) 1).topBusy = some ⟨.setPeriod 0, 1, Locals.empty⟩ ∧
    (atMain (.init 0) 0).topBusy = some ⟨.init 0, 0, Locals.empty⟩ ∧
    (atMain (.init 0) 1).topBusy = some ⟨.init 0, 1, Locals.empty⟩ ∧
    (atMain (.init 0) 2).topBusy = some ⟨.init 0, 2, Locals.empty⟩ := by decide

theorem witness_PeriodCommandsEndWithTheNewPeriodRunning : requested.issueEnabled = true := by decide

theorem witness_DutyCompareStaysBelowTheTop : 65535 < 65536 ∧ 1023 < 1024 ∧ 1 ≤ 65535 ∧ 1 ≤ 1 := by decide

theorem witness_DutyPhasesWriteTheCompareThenEnable :
    (atMain (.setDuty (.channel .C) 1023) 0).topBusy = some ⟨.setDuty (.channel .C) 1023, 0, Locals.empty⟩ ∧
    (atMain (.setDuty (.channel .C) 1023) 1).topBusy = some ⟨.setDuty (.channel .C) 1023, 1, Locals.empty⟩ ∧
    (atMain (.setDutyAll 1023) 0).topBusy = some ⟨.setDutyAll 1023, 0, Locals.empty⟩ ∧
    (atMain (.setDutyAll 1023) 1).topBusy = some ⟨.setDutyAll 1023, 1, Locals.empty⟩ := by decide

theorem witness_PwmEndsWithTheChannelDrivenAndTheClockConnected :
    (inIsr ⟨none, true, some 0x0100, false⟩).issueEnabled = true := by decide

theorem witness_PwmPhasesComeInTheirOrder :
    (∀ k ∈ [0, 1], (atMain (.pwm (.channel .B) 256 (some 20000)) k).topBusy =
      some ⟨.pwm (.channel .B) 256 (some 20000), k, Locals.empty⟩) ∧
    (∀ k ∈ [0, 1], (atMain (.pwmAll 256 (some 20000)) k).topBusy =
      some ⟨.pwmAll 256 (some 20000), k, Locals.empty⟩) ∧
    (∀ k ∈ [2, 3, 4, 5], (atMain (.pwm (.channel .B) 256 (some 20000)) k).topBusy =
      some ⟨.pwm (.channel .B) 256 (some 20000), k, Locals.empty⟩) ∧
    (∀ k ∈ [0, 1, 2, 3], (atMain (.pwmAll 256 none) k).topBusy = some ⟨.pwmAll 256 none, k, Locals.empty⟩) := by
  decide

theorem witness_DisablePwmClearsOnlyTheOutputEnable :
    (atMain (.disablePwm (.channel .A)) 0).topBusy = some ⟨.disablePwm (.channel .A), 0, Locals.empty⟩ ∧
    (atMain (.disablePwm .unrecognized) 0).topBusy = some ⟨.disablePwm .unrecognized, 0, Locals.empty⟩ ∧
    ∃ t u, requested.issueEnabled = true ∧ execChain 2 (.disablePwm (.channel .C)) requested = .next t ∧
      execChain 2 (.disablePwm (.channel .C)) t = .next u :=
  ⟨rfl, rfl, _, _, rfl, rfl, rfl⟩

theorem witness_UnrecognizedChannelIsANoOp :
    (atMain (.setDuty .unrecognized 100) 0).topBusy = some ⟨.setDuty .unrecognized 100, 0, Locals.empty⟩ ∧
    (atMain (.pwm .unrecognized 5 (some 1000)) 0).topBusy = some ⟨.pwm .unrecognized 5 (some 1000), 0, Locals.empty⟩ ∧
    (atMain (.disablePwm .unrecognized) 0).topBusy = some ⟨.disablePwm .unrecognized, 0, Locals.empty⟩ := by decide

theorem witness_OutputLevelTogglesAtTheMatchAndDrivesThePin :
    State.reset.pinDir.get .A = false ∧
    (({ State.reset with pinDir := ⟨true, false, true⟩, comEn := ⟨true, false, false⟩ } : State).pinDir.get .A = true ∧
      ({ State.reset with pinDir := ⟨true, false, true⟩, comEn := ⟨true, false, false⟩ } : State).comEn.get .A = true) ∧
    (({ State.reset with pinDir := ⟨true, false, true⟩, comEn := ⟨true, false, false⟩ } : State).pinDir.get .C = true ∧
      ({ State.reset with pinDir := ⟨true, false, true⟩, comEn := ⟨true, false, false⟩ } : State).comEn.get .C = false) ∧
    State.reset.params.wellFormed = true := by decide

/-- Section 4: top 4, compare value 4. -/
def cycleOfFour : State := { State.reset with top := 4, csActive := 1, psSel := 1, ocr := ⟨4, 0, 2⟩ }

theorem witness_RealisedDutyOverOneCycle :
    cycleOfFour.cnt = 0 ∧ cycleOfFour.dir = .up ∧ 1 ≤ cycleOfFour.top.toNat ∧
    (cycleOfFour.ocr.get .A).toNat ≤ cycleOfFour.top.toNat ∧ (cycleOfFour.ocr.get .B).toNat = 0 := by decide

theorem witness_TickCountsUpReversesAndCountsDown :
    (cycleOfFour.csActive ≠ 0 ∧ cycleOfFour.dir = .up ∧ cycleOfFour.cnt.toNat < cycleOfFour.top.toNat) ∧
    (¬(({ cycleOfFour with top := 0 } : State).dir = .up ∧
        ({ cycleOfFour with top := 0 } : State).cnt.toNat < ({ cycleOfFour with top := 0 } : State).top.toNat) ∧
      ({ cycleOfFour with top := 0 } : State).cnt.toNat = 0) ∧
    (¬(({ cycleOfFour with cnt := 1, dir := .down } : State).dir = .up ∧ 1 < cycleOfFour.top.toNat) ∧
      ({ cycleOfFour with cnt := 1, dir := .down } : State).cnt.toNat = 1) ∧
    (¬(({ cycleOfFour with cnt := 4 } : State).dir = .up ∧
        ({ cycleOfFour with cnt := 4 } : State).cnt.toNat < cycleOfFour.top.toNat) ∧
      2 ≤ ({ cycleOfFour with cnt := 4 } : State).cnt.toNat) := by decide

theorem witness_CounterIsATriangleWithOneBottomEventACycle :
    cycleOfFour.csActive ≠ 0 ∧ cycleOfFour.cnt = 0 ∧ cycleOfFour.dir = .up ∧ 1 ≤ cycleOfFour.top.toNat := by decide

theorem witness_TopZeroAndOvershootReachTheBottom :
    cycleOfFour.csActive ≠ 0 ∧
    (({ cycleOfFour with top := 0 } : State).cnt = 0 ∧ ({ cycleOfFour with top := 0 } : State).dir = .up ∧
      ({ cycleOfFour with top := 0 } : State).top = 0) ∧
    (({ cycleOfFour with cnt := 5 } : State).top.toNat < ({ cycleOfFour with cnt := 5 } : State).cnt.toNat ∧ 1 ≤ 4 ∧
      4 < ({ cycleOfFour with cnt := 5 } : State).cnt.toNat ∧ 5 = ({ cycleOfFour with cnt := 5 } : State).cnt.toNat) := by
  decide

theorem witness_StartPhasesRestartTheCounter :
    (∀ k ∈ [0, 1, 2, 3, 4], (atMain .start k).topBusy = some ⟨.start, k, Locals.empty⟩) ∧ (atMain .start 4).cnt = 0 ∧
    ({ atMain .start 4 with cnt := 1 } : State).cnt ≠ 0 := by decide

theorem witness_StartCompletesAfterOneTickWithANonzeroCounter :
    requested.issueEnabled = true ∧ 1 ≤ requested.top.toNat ∧ requested.psSel ≠ 0 := by decide

theorem witness_StartNeverCompletesWithoutACountingClock :
    (∃ t, (atMain .start 4).topBusy = some ⟨.start, 4, Locals.empty⟩ ∧ (atMain .start 4).ie = false ∧
      (atMain .start 4).cnt = 0 ∧ (atMain .start 4).csActive = 0 ∧
        runMoves [.tick, .phase, .issue 0x0B00000000000000] (atMain .start 4) = .next t) ∧
    (∃ t, ({ atMain .start 4 with csActive := 1, psSel := 1 } : State).top = 0 ∧
      runMoves [.tick, .phase] { atMain .start 4 with csActive := 1, psSel := 1 } = .next t) :=
  ⟨⟨_, rfl, rfl, rfl, rfl, rfl⟩, ⟨_, rfl, rfl⟩⟩

theorem witness_StopFreezesTheCounter :
    (atMain .stop 0).topBusy = some ⟨.stop, 0, Locals.empty⟩ ∧
    (∃ t u, requested.issueEnabled = true ∧ execChain 2 .stop requested = .next t ∧
      execChain 2 .resume t = .next u) ∧ State.reset.csActive = 0 :=
  ⟨rfl, ⟨_, _, rfl, rfl, rfl⟩, rfl⟩

theorem witness_ResumeReconnectsTheSelectedPrescaler :
    (atMain .resume 0).topBusy = some ⟨.resume, 0, Locals.empty⟩ ∧
    (∃ t, requested.issueEnabled = true ∧ execChain 2 .resume requested = .next t ∧
      requested.csActive = requested.psSel) ∧
    (∃ t u, execChain 2 .stop requested = .next t ∧ execChain 2 .resume t = .next u) :=
  ⟨rfl, ⟨_, rfl, rfl, rfl⟩, ⟨_, _, rfl, rfl⟩⟩

theorem witness_AttachStoresTheCallbackThenEnables :
    (∀ k ∈ [0, 1, 2, 3], (atMain (.attachInterrupt none (some 1000)) k).topBusy =
      some ⟨.attachInterrupt none (some 1000), k, Locals.empty⟩) ∧
    (∀ k ∈ [0, 1], (atMain (.attachInterrupt (some 1) none) k).topBusy =
      some ⟨.attachInterrupt (some 1) none, k, Locals.empty⟩) := by decide

theorem witness_DetachStopsOnlyTheNotification :
    (atMain .detachInterrupt 0).topBusy = some ⟨.detachInterrupt, 0, Locals.empty⟩ ∧
    ∃ t u v, requested.issueEnabled = true ∧ execChain 2 .detachInterrupt requested = .next t ∧
      execChain 2 .detachInterrupt t = .next u ∧
        execChain 3 (.attachInterrupt (some 1) none) (t.ticks 1) = .next v :=
  ⟨rfl, _, _, _, rfl, rfl, rfl, rfl⟩

theorem witness_InterruptEntrySavesMasksAndCalls :
    (requested.irq = true ∧ requested.gie = true ∧ requested.slot = some 0x0100) ∧
    (({ requested with slot := none } : State).irq = true ∧ ({ requested with slot := none } : State).slot = none) := by
  decide

theorem witness_InterruptReturnPopsAndRestoresGie :
    (inIsr ⟨none, true, some 0x0100, true⟩).stack.isrs = [⟨none, true, some 0x0100, true⟩] ∧
    ContextInv { inIsr ⟨none, true, some 0x0100, true⟩ with ie := true, evtPending := true } ∧
    ({ inIsr ⟨none, true, some 0x0100, true⟩ with ie := true, evtPending := true } : State).irq = true := by
  refine ⟨rfl, ⟨?_, ?_⟩, rfl⟩
  · intro c hc
    simp only [inIsr, List.mem_singleton] at hc
    subst hc
    exact ⟨rfl, fun h => (by cases h), fun _ => rfl⟩
  · intro b hb
    simp [inIsr, ContextStack.busies] at hb

theorem witness_EntryAndReturnResumeTheSuspendedContext :
    requested.irq = true ∧ requested.gie = true ∧ requested.slot = some 0x0100 := by decide

theorem witness_BottomEventsCoalesceIntoOneDispatch :
    requested.csActive ≠ 0 ∧ requested.ie = true ∧ requested.gie = true ∧ requested.slot = some 0x0100 ∧
    (requested.ticks 2).evtPending = true := by decide

theorem witness_NestedEntryNeedsTheCallbackToEnableGie :
    ({ inIsr ⟨none, true, some 0x0100, false⟩ with ie := true, evtPending := true } : State).irq = true ∧
    ({ inIsr ⟨none, true, some 0x0100, false⟩ with ie := true, evtPending := true } : State).gie = false := by decide

theorem witness_EnvironmentMovesChangeOnlyGieAndTheCallback :
    enabled (.setGie true) State.reset = true ∧ enabled (.setGie true) (atMain .stop 0) = false ∧
    State.reset.stack.isrs = [] ∧ enabled .cbDone State.reset = false ∧
    (inIsr ⟨none, true, some 1, false⟩).stack.isrs = [⟨none, true, some 1, false⟩] ∧
    enabled .cbDone (inIsr ⟨none, true, some 1, false⟩) = true := by decide

theorem witness_NoCommandReadsOrWritesGie :
    (∃ t, exec .stop requested = .next t) ∧ State.reset.stack.isrs = [] ∧ State.reset.stack.main = none ∧
    (inIsr ⟨none, true, some 1, false⟩).stack.isrs = [⟨none, true, some 1, false⟩] ∧ State.reset.gie = false :=
  ⟨⟨_, rfl⟩, rfl, rfl, rfl, rfl⟩

theorem witness_StaleEventIsRequestedAfterAttach :
    requested.issueEnabled = true ∧ requested.evtPending = true ∧ 1 ≤ requested.top.toNat ∧ requested.psSel ≠ 0 ∧
    (some 0x0100 : Option HandlerId) ≠ some 0 := by decide

theorem witness_StopInsideAPeriodCommandIsUndone :
    ({ requested with stack := ⟨some ⟨.setPeriod 7, 1, Locals.empty⟩, []⟩ } : State).topBusy =
      some ⟨.setPeriod 7, 1, Locals.empty⟩ ∧
    ({ requested with stack := ⟨some ⟨.setPeriod 7, 1, Locals.empty⟩, []⟩ } : State).irq = true := by decide

theorem witness_ReadSamplesTwiceAndDeliversTheElapsedTime :
    (atMain .read 0).topBusy = some ⟨.read, 0, Locals.empty⟩ ∧
    ((atMain .read 1 ⟨some 5, none⟩).topBusy = some ⟨.read, 1, ⟨some 5, none⟩⟩ ∧
      (atMain .read 1 ⟨some 5, none⟩).cnt ≠ 5 ∧ ({ atMain .read 1 ⟨some 5, none⟩ with cnt := 5 } : State).cnt = 5) ∧
    ((atMain .read 2 ⟨some 799, some 800⟩).topBusy = some ⟨.read, 2, ⟨some 799, some 800⟩⟩ ∧
      (799 : Half).toNat < (800 : Half).toNat) ∧
    ((12 : Half).toNat ≤ (12 : Half).toNat ∧ (12 : Half).toNat ≤ 2 * (6 : Half).toNat) ∧
    ((11 : Half).toNat ≤ (12 : Half).toNat ∧ 2 * (5 : Half).toNat < (11 : Half).toNat) := by decide

theorem witness_ReadTicksGrowThroughTheCycle :
    cycleOfFour.cnt = 0 ∧ cycleOfFour.dir = .up ∧ 1 ≤ cycleOfFour.top.toNat := by decide

theorem witness_ReadResultDoesNotWrap :
    ({ Params.vectors with clockHz := 31250 } : Params).conversion = .exact ∧
    31250 ≤ ({ Params.vectors with clockHz := 31250 } : Params).clockHz ∧ 1 ≤ (5 : PsCode).toNat ∧
    (5 : PsCode).toNat ≤ 5 ∧ elapsedTicks (1 : Half).toNat (0 : Half).toNat (65535 : Half).toNat = some 131070 := by decide

theorem witness_ReadNeverCompletesOnAStandingCounter :
    (∃ t, (atMain .read 1 ⟨some 0, none⟩).topBusy = some ⟨.read, 1, ⟨some 0, none⟩⟩ ∧
      (atMain .read 1 ⟨some 0, none⟩).cnt = 0 ∧ (atMain .read 1 ⟨some 0, none⟩).ie = false ∧
        (atMain .read 1 ⟨some 0, none⟩).csActive = 0 ∧
          runMoves [.tick, .phase] (atMain .read 1 ⟨some 0, none⟩) = .next t) ∧
    (∃ t, ({ atMain .read 1 ⟨some 0, none⟩ with csActive := 1, psSel := 1 } : State).top = 0 ∧
      runMoves [.tick, .phase] { atMain .read 1 ⟨some 0, none⟩ with csActive := 1, psSel := 1 } = .next t) :=
  ⟨⟨_, rfl, rfl, rfl, rfl, rfl⟩, ⟨_, rfl, rfl⟩⟩

theorem witness_OnlyTicksAndStartWriteTheCounter :
    (∃ t, takeMove .tick cycleOfFour = .next t ∧ t.cnt ≠ cycleOfFour.cnt) ∧
    (∃ t, takeMove .phase { atMain .start 2 with cnt := 9 } = .next t ∧ t.cnt ≠ 9) :=
  ⟨⟨_, rfl, by decide⟩, ⟨_, rfl, by decide⟩⟩

theorem witness_OnlyPeriodPhasesWriteTopAndPrescaler :
    (∃ t, takeMove .phase (atMain (.setPeriod 1000) 0) = .next t ∧ t.top ≠ 0) ∧
    (∃ t, takeMove .phase { atMain .stop 0 with csActive := 1, psSel := 1 } = .next t ∧ t.csActive ≠ 1) :=
  ⟨⟨_, rfl, by decide⟩, ⟨_, rfl, by decide⟩⟩

theorem witness_OnlyDutyCommandsWriteTheChannels :
    (∃ t, takeMove .phase (atMain (.setDuty (.channel .A) 1) 0) = .next t ∧ t.duty.get .A ≠ 0) ∧
    (∃ t, takeMove .phase { atMain (.disablePwm (.channel .A)) 0 with
        pinDir := ⟨true, false, false⟩, comEn := ⟨true, false, false⟩ } = .next t ∧ t.comEn.get .A = false) :=
  ⟨⟨_, rfl, by decide⟩, ⟨_, rfl, by decide⟩⟩

theorem witness_WhoWritesTheInterruptState :
    (∃ t, takeMove .dispatch requested = .next t ∧ t.evtPending ≠ requested.evtPending ∧ t.gie ≠ requested.gie) ∧
    (∃ t, takeMove .phase { atMain .start 0 with ie := true } = .next t ∧ t.ie ≠ true) ∧
    (∃ t, takeMove .phase (atMain (.attachInterrupt (some 1) none) 0) = .next t ∧ t.slot ≠ none) :=
  ⟨⟨_, rfl, by decide, by decide⟩, ⟨_, rfl, by decide⟩, ⟨_, rfl, by decide⟩⟩

theorem witness_HistoryOnlyGrowsAndParametersStay : ∃ t, takeMove .dispatch requested = .next t := ⟨_, rfl⟩

theorem witness_SuspendedContextsAreLeftAlone : ∃ t, takeMove .dispatch requested = .next t := ⟨_, rfl⟩

/-- A `READ` about to compute its result, with a pending phase in the schedule. -/
def reading : State :=
  { atMain .read 2 ⟨some 100, some 101⟩ with top := 800, psSel := 1, csActive := 1, cnt := 101, schedule := [.phase] }

/-- A `START` in its wait, with `GIE = 1` and an event pending. -/
def starting : State :=
  { atMain .start 4 with top := 800, psSel := 1, csActive := 1, gie := true, evtPending := true, schedule := [.tick] }

theorem reading_registers : RegisterInv reading :=
  ⟨fun h => (by cases h), ⟨by decide, by decide, fun _ => by decide⟩, fun ch => by cases ch <;> decide⟩

theorem reading_busies (b : Busy) (h : some b ∈ reading.stack.busies) : b = ⟨.read, 2, ⟨some 100, some 101⟩⟩ := by
  simpa [reading, atMain, ContextStack.busies] using h

theorem reading_handlers : HandlerInv reading :=
  ⟨by decide, fun c hc => by simp [reading, atMain, State.reset] at hc, fun b hb => by rw [reading_busies b hb]; rfl⟩

theorem reading_contexts : ContextInv reading :=
  ⟨fun c hc => by simp [reading, atMain, State.reset] at hc,
   fun b hb => by rw [reading_busies b hb]; exact .inl (by decide)⟩

theorem starting_inv : StartInv starting :=
  ⟨fun _ _ _ _ => rfl,
   fun b hb _ => by simp [starting, atMain, ContextStack.suspended, ContextStack.busies] at hb⟩

theorem witness_EveryStepKeepsTheRegistersLegal : RegisterInv reading ∧ ∃ t, step reading = .next t :=
  ⟨reading_registers, _, rfl⟩

theorem witness_EveryStepKeepsTheContextsLegal :
    ContextInv reading ∧ HandlerInv reading ∧ ∃ t, step reading = .next t :=
  ⟨reading_contexts, reading_handlers, _, rfl⟩

theorem witness_NoInterruptComesInsideStart :
    StartInv starting ∧ (∃ t, step starting = .next t) ∧ starting.atPhase .start 4 :=
  ⟨starting_inv, ⟨_, rfl⟩, _, rfl⟩

theorem witness_ReadComputesWithASelectedPrescaler :
    Inv reading ∧ (∃ t, step reading = .next t) ∧ reading.atPhase .read 2 := by
  refine ⟨⟨reading_registers, reading_handlers, reading_contexts, ⟨?_, ?_⟩, ⟨?_, ?_, ?_, ?_⟩⟩, ⟨_, rfl⟩, _, rfl⟩
  · intro b hb hc
    have h : b = ⟨.read, 2, ⟨some 100, some 101⟩⟩ := by
      have := hb
      simp only [State.topBusy, reading, atMain, ContextStack.topBusy, Option.some.injEq] at this
      exact this.symm
    rw [h] at hc
    cases hc
  · intro b hb
    simp [reading, atMain, ContextStack.suspended, ContextStack.busies] at hb
  · intro b hb _ _
    rw [reading_busies b hb]
    rfl
  · intro b hb _ _
    rw [reading_busies b hb]
    exact ⟨rfl, by decide⟩
  · intro h
    cases h
  · intro h
    cases h

theorem witness_OnlyStartAndReadBlock :
    isBlocking .stop = false ∧ (atMain .stop 0).topBusy = some ⟨.stop, 0, Locals.empty⟩ ∧
    isBlocking (.init 1) = false ∧ (atMain (.init 1) 2).topBusy = some ⟨.init 1, 2, Locals.empty⟩ := by decide

/-- A run that completes a `STOP` and then stands still. -/
def stoppingRun : Run where
  state := fun n => if n = 0 then atMain .stop 0 else (atMain .stop 0).complete .stop
  move := fun _ => .phase
  follows := fun n => by cases n <;> rfl

theorem witness_FairRunsCompleteTheCommandsThatDoNotBlock :
    stoppingRun.weaklyFair .phase ∧ (stoppingRun.state 0).topBusy = some ⟨.stop, 0, Locals.empty⟩ ∧
    isBlocking .stop = false ∧ (stoppingRun.state 0).gie = false :=
  ⟨fun n _ => ⟨n, Nat.le_refl n, rfl⟩, rfl, rfl, rfl⟩

/-- A run that returns from an interrupt context and then stands still. -/
def returningRun : Run where
  state := fun n =>
    if n = 0 then inIsr ⟨none, true, none, true⟩ else (inIsr ⟨none, true, none, true⟩).isrReturn
  move := fun _ => .isrReturn
  follows := fun n => by cases n <;> rfl

/-- A run whose environment ends the callback; the context returns, and the machine then stands still. -/
def endingRun : Run where
  state := fun n => match n with
    | 0 => inIsr ⟨none, true, some 1, false⟩
    | 1 => inIsr ⟨none, true, some 1, true⟩
    | _ + 2 => (inIsr ⟨none, true, some 1, true⟩).isrReturn
  move := fun n => match n with
    | 0 => .cbDone
    | _ + 1 => .isrReturn
  follows := fun n => match n with
    | 0 => rfl
    | 1 => rfl
    | _ + 2 => rfl

theorem endingRun_fair : endingRun.weaklyFair .isrReturn := fun n _ => ⟨n + 1, by omega, rfl⟩

theorem endingRun_endsCallbacks : endingRun.endsCallbacks := by
  intro n above c below h hc
  match n with
  | 0 =>
    have hl := congrArg List.length h
    rw [List.length_append, List.length_cons] at hl
    change 1 = _ at hl
    refine ⟨0, Nat.le_refl 0, rfl, rfl, ?_⟩
    change 1 = _
    omega
  | 1 =>
    have hm : c ∈ (endingRun.state 1).stack.isrs := by simp [h]
    simp [endingRun, inIsr] at hm
    rw [hm] at hc
    cases hc
  | n + 2 => cases above <;> cases h

theorem witness_FairRunsReturnFromADoneCallback :
    (returningRun.weaklyFair .isrReturn ∧ (returningRun.state 0).stack.isrs = [⟨none, true, none, true⟩] ∧
      (returningRun.state 0).gie = false) ∧
    (endingRun.weaklyFair .isrReturn ∧ endingRun.endsCallbacks ∧
      (endingRun.state 0).stack.isrs = [⟨none, true, some 1, false⟩] ∧ (endingRun.state 0).gie = false ∧
      ∀ j, endingRun.move j ≠ .setGie true) :=
  ⟨⟨fun n _ => ⟨n, Nat.le_refl n, rfl⟩, rfl, rfl⟩, endingRun_fair, endingRun_endsCallbacks, rfl, rfl, fun j => by
    cases j <;> simp [endingRun]⟩

/-- The history of the run below. -/
def issuingHistory : Nat → List Event
  | 0 => []
  | n + 1 => (if n % 2 = 0 then Event.issue (.interrupt 1) .stop else .complete (.interrupt 1) .stop) :: issuingHistory n

/-- The states of the run below. -/
def issuingState (n : Nat) : State :=
  { inIsr ⟨if n % 2 = 0 then none else some ⟨.stop, 0, Locals.empty⟩, true, some 1, false⟩ with
    history := issuingHistory n }

/-- A run whose environment issues `STOP` into a callback for ever: the context is idle at even times and busy at odd
ones. -/
def issuingRun : Run where
  state := issuingState
  move := fun n => if n % 2 = 0 then .issue (encode .stop) else .phase
  follows := fun n => by
    rcases Nat.mod_two_eq_zero_or_one n with h | h
    · have h' : (n + 1) % 2 = 1 := by omega
      simp only [issuingState, issuingHistory, h, h', if_true, Nat.one_ne_zero, if_false]
      rfl
    · have h' : (n + 1) % 2 = 0 := by omega
      simp only [issuingState, issuingHistory, h, h', if_true, Nat.one_ne_zero, if_false]
      rfl

/-- A callback that goes on for ever, with `CB_DONE` enabled at every other time and never taken, does not meet the
environment's duty (60_exceptions.md R236, 93 U12). -/
theorem test_issuing_forever_breaks_the_duty : ¬ issuingRun.endsCallbacks := by
  intro h
  obtain ⟨j, -, hj, -⟩ := h 0 [] ⟨none, true, some 1, false⟩ [] rfl rfl
  simp only [issuingRun] at hj
  split at hj <;> cases hj

theorem witness_GieHoldsTheLastValueTheEnvironmentGave :
    (GieInv true { requested with schedule := [.dispatch] } ∧
      ∃ t, step { requested with schedule := [.dispatch] } = .next t) ∧
    (∃ t, runMoves [.setGie false, .setGie true] (State.resetWith Params.vectors) = .next t ∧ t.stack.isrs = []) ∧
    (∀ (before after : List Move) (u : State), [.setGie false, .setGie true] = before ++ .setGie false :: after →
      runMoves before (State.resetWith Params.vectors) = .next u → u.setGieEnabled = true → u.stack.isrs = []) := by
  refine ⟨⟨⟨fun _ => rfl, fun c hc => by cases hc⟩, _, rfl⟩, ⟨_, rfl, rfl⟩, ?_⟩
  intro before after u h hu _
  match before with
  | [] =>
    cases hu
    rfl
  | [_] => simp at h
  | [_, _] => simp at h
  | _ :: _ :: _ :: _ => simp at h

/-- 60_exceptions.md R229: a callback that sets `GIE = 0` returns to the main context's value (log 20). -/
theorem test_gie_after_a_callback_that_clears_it :
    (∃ t, runMoves [.dispatch, .setGie false, .cbDone, .isrReturn] requested = .next t ∧ t.gie = true) :=
  ⟨_, rfl, rfl⟩

end Sys2Proof.Tests
end

section
/-! SUPPORT. Which registers a move writes, and what the phases of the commands write there (10_state.md section 2). -/

namespace Sys2Proof.Machine

/-- No phase writes the event flag (43_interrupt.md R192). -/
theorem phaseAt_keeps_evtPending {i : Instr} {k : Nat} {p : Phase} (h : PhaseAt i k p) (l : Locals) (s : State) :
    (p.run l s).2.evtPending = s.evtPending := by
  cases h
  case rd3 => rw [phaseRD3_frame]
  all_goals rfl

/-- No phase writes the parameters or the schedule. -/
theorem phaseAt_keeps_params_schedule {i : Instr} {k : Nat} {p : Phase} (h : PhaseAt i k p) (l : Locals)
    (s : State) : (p.run l s).2.params = s.params ∧ (p.run l s).2.schedule = s.schedule := by
  cases h
  case rd3 => rw [phaseRD3_frame]; exact ⟨rfl, rfl⟩
  all_goals exact ⟨rfl, rfl⟩

/-- Of the phases, only ST3 writes `CNT` and `DIR` (10_state.md R24, R25). -/
theorem phaseAt_counter {i : Instr} {k : Nat} {p : Phase} (h : PhaseAt i k p) (l : Locals) (s : State) :
    ((p.run l s).2.cnt = s.cnt ∧ (p.run l s).2.dir = s.dir) ∨
    (i = .start ∧ k = 2 ∧ (p.run l s).2.cnt = 0 ∧ (p.run l s).2.dir = .up) := by
  cases h
  case st3 => exact .inr ⟨rfl, rfl, rfl, rfl⟩
  case rd3 => rw [phaseRD3_frame]; exact .inl ⟨rfl, rfl⟩
  all_goals exact .inl ⟨rfl, rfl⟩

/-- What a phase can do to `TOP`, `PS_SEL` and `CS_ACTIVE` (10_state.md R26, R27, R28). -/
inductive ClockPhase (i : Instr) (k : Nat) (s t : State) : Prop
  | keep (ht : t.top = s.top) (hp : t.psSel = s.psSel) (hc : t.csActive = s.csActive)
  | select (us) (h : periodPhaseOf i = some (k, us))
      (ht : t.top = BitVec.ofNat 16 (periodCalc s.params.clockHz us.toNat).1)
      (hp : t.psSel = (periodCalc s.params.clockHz us.toNat).2) (hc : t.csActive = s.csActive)
  | connect (ht : t.top = s.top) (hp : t.psSel = s.psSel) (hc : t.csActive = s.psSel)
  | disconnect (h : i = .stop ∨ ∃ us, i = .init us)
      (ht : t.top = s.top) (hp : t.psSel = s.psSel) (hc : t.csActive = 0)

/-- Every phase does one of these to the clock's registers. -/
theorem phaseAt_clock {i : Instr} {k : Nat} {p : Phase} (h : PhaseAt i k p) (l : Locals) (s : State) :
    ClockPhase i k s (p.run l s).2 := by
  cases h
  case sp1 us h => exact .select us h rfl rfl rfl
  case sp2 | pw2 | pa2 | st4 | rs1 => exact .connect rfl rfl rfl
  case in1 us => exact .disconnect (.inr ⟨us, rfl⟩) rfl rfl rfl
  case so1 => exact .disconnect (.inl rfl) rfl rfl rfl
  case rd3 => rw [phaseRD3_frame]; exact .keep rfl rfl rfl
  all_goals exact .keep rfl rfl rfl

/-- The commands whose phases write the compare value of the channel from the duty `d`. -/
def WritesCompare (i : Instr) (ch : Channel) (d : DutyFraction) : Prop :=
  i = .setDuty (.channel ch) d ∨ i = .setDutyAll d ∨ (∃ p, i = .pwm (.channel ch) d p) ∨ ∃ p, i = .pwmAll d p

/-- SD1 writes the compare value and the duty copy of its channel alone (41_duty_pwm.md R131). -/
theorem phaseSD1_channel (c ch : Channel) (d : DutyFraction) (s : State) :
    ((phaseSD1 c d s).ocr.get ch = s.ocr.get ch ∧ (phaseSD1 c d s).duty.get ch = s.duty.get ch) ∨
    (c = ch ∧ (phaseSD1 c d s).duty.get ch = d ∧ (phaseSD1 c d s).ocr.get ch = s.compareOf d) := by
  by_cases hc : c = ch
  · exact .inr ⟨hc, by simp [phaseSD1, hc], by simp [phaseSD1, hc]⟩
  · exact .inl ⟨by simp [phaseSD1, hc], by simp [phaseSD1, hc]⟩

/-- Of the phases, only SD1 and SA1 write `OCR` and `DUTY`, both from the command's duty (10_state.md R29, R30). -/
theorem phaseAt_compare {i : Instr} {k : Nat} {p : Phase} (h : PhaseAt i k p) (l : Locals) (s : State)
    (ch : Channel) :
    ((p.run l s).2.ocr.get ch = s.ocr.get ch ∧ (p.run l s).2.duty.get ch = s.duty.get ch) ∨
    ∃ d, WritesCompare i ch d ∧ (p.run l s).2.duty.get ch = d ∧ (p.run l s).2.ocr.get ch = s.compareOf d := by
  cases h
  case sd1 c d =>
    exact (phaseSD1_channel c ch d s).imp_right fun ⟨hc, hd, ho⟩ => ⟨d, .inl (by rw [hc]), hd, ho⟩
  case pwmSD1 c d q =>
    exact (phaseSD1_channel c ch d s).imp_right fun ⟨hc, hd, ho⟩ => ⟨d, .inr (.inr (.inl ⟨q, by rw [hc]⟩)), hd, ho⟩
  case sa1 d => exact .inr ⟨d, .inr (.inl rfl), PerChannel.get_fill .., PerChannel.get_fill ..⟩
  case pwmAllSA1 d q =>
    exact .inr ⟨d, .inr (.inr (.inr ⟨q, rfl⟩)), PerChannel.get_fill .., PerChannel.get_fill ..⟩
  case rd3 => rw [phaseRD3_frame]; exact .inl ⟨rfl, rfl⟩
  all_goals exact .inl ⟨rfl, rfl⟩

/-- What one move does to the registers: nothing where it writes at most the stack, `GIE` and the history; a tick; a
phase of the top context's command; or the dispatch, which clears the event flag. -/
inductive RegisterMove (m : Move) (s : State) : State → Prop
  | control (k g hi) : RegisterMove m s { s with stack := k, gie := g, history := hi }
  | tick (hm : m = .tick) (hc : s.csActive ≠ 0) : RegisterMove m s s.tick
  | phase (b p k g hi) (hm : m = .phase) (hb : s.topBusy = some b) (hp : PhaseAt b.cmd b.k p) :
      RegisterMove m s { (p.run b.locals s).2 with stack := k, gie := g, history := hi }
  | dispatch (k g hi) (hm : m = .dispatch) :
      RegisterMove m s { s with evtPending := false, stack := k, gie := g, history := hi }

/-- Every move does one of these to the registers. -/
theorem register_move {m : Move} {s t : State} (h : takeMove m s = .next t) : RegisterMove m s t := by
  rcases takeMove_cases h with e | ⟨hm, hc, e⟩ | ⟨hm, b, hb, e⟩ | ⟨hm, -, -, e⟩ | ⟨-, -, e⟩ | ⟨w, i, -, -, -, e⟩
      | ⟨v, -, -, e⟩ | ⟨-, -, e⟩
  · rw [e]; exact .control s.stack s.gie s.history
  · rw [e]; exact .tick hm hc
  · rcases runPhase_cases s b.cmd (phasesOf b.cmd) b with ⟨-, e'⟩ | ⟨p, -, -, e'⟩ | ⟨p, hp, -, -, e'⟩
        | ⟨p, hp, -, -, e'⟩
    · rw [e, e']; exact .control _ _ _
    · rw [e, e']; exact .control s.stack s.gie s.history
    · rw [e, e']; exact .phase b p _ _ _ hm hb (phaseAt_of_getElem? hp)
    · rw [e, e']; exact .phase b p _ _ _ hm hb (phaseAt_of_getElem? hp)
  · rw [e]; exact .dispatch _ _ _ hm
  · rw [e, isrReturn_frame]; exact .control _ _ _
  · rw [e]; exact .control _ _ _
  · rw [e]; exact .control _ _ _
  · rw [e, endCallback_frame]; exact .control _ _ _

end Sys2Proof.Machine
end

section
/-! Proof of the register invariant (10_state.md R46, 1 to 4). -/

namespace Sys2Proof.Machine

/-- A tick leaves a descending counter above 0 (42_run_state.md R161). -/
theorem counterInv_tick {s : State} (h : CounterInv s) : CounterInv s.tick := by
  intro hd
  rcases tick_cases s with ⟨hu, -, e, -⟩ | ⟨-, hz, e⟩ | ⟨-, -, e⟩ | ⟨-, h2, -, hc⟩
  · rw [e] at hd
    exact absurd (hu.symm.trans hd) (by decide)
  · rw [e] at hd
    exact absurd (BitVec.eq_of_toNat_eq hz) (h hd)
  · rw [e] at hd
    cases hd
  · intro h0
    rw [h0] at hc
    simp at hc
    omega

/-- A phase leaves a descending counter above 0: it keeps the counter, or it is ST3, which turns it upwards. -/
theorem counterInv_phase {i : Instr} {k : Nat} {p : Phase} (hp : PhaseAt i k p) (l : Locals) {s : State}
    (h : CounterInv s) : CounterInv (p.run l s).2 := by
  intro hd
  rcases phaseAt_counter hp l s with ⟨hc, hd'⟩ | ⟨-, -, -, hu⟩
  · rw [hc]; exact h (hd'.symm.trans hd)
  · exact absurd (hu.symm.trans hd) (by decide)

/-- A phase keeps the clock legal: the prescaler it selects is one of the codes 1 to 5 (40_period.md R112), and it
connects the clock to the selected prescaler alone. -/
theorem clockInv_phase {i : Instr} {k : Nat} {p : Phase} (hp : PhaseAt i k p) (l : Locals) {s : State}
    (h : ClockInv s) : ClockInv (p.run l s).2 := by
  obtain ⟨hps, hcs, hsel⟩ := h
  cases phaseAt_clock hp l s with
  | keep _ hp hc => rw [ClockInv, hp, hc]; exact ⟨hps, hcs, hsel⟩
  | select us _ _ hp hc =>
    obtain ⟨h1, h5⟩ := periodCalc_code s.params.clockHz us.toNat
    rw [ClockInv, hp, hc]
    exact ⟨h5, hcs, fun _ h0 => by rw [h0] at h1; exact absurd h1 (by decide)⟩
  | connect _ hp hc => rw [ClockInv, hp, hc]; exact ⟨hps, hps, id⟩
  | disconnect _ _ hp hc => rw [ClockInv, hp, hc]; exact ⟨hps, by decide, fun h0 => absurd rfl h0⟩

/-- A phase keeps the compare values within 65471: what it writes there is a `DutyCompare` (41_duty_pwm.md R130). -/
theorem channelInv_phase {i : Instr} {k : Nat} {p : Phase} (hp : PhaseAt i k p) (l : Locals) {s : State}
    (h : ChannelInv s) : ChannelInv (p.run l s).2 := by
  intro ch
  have hduty : ((p.run l s).2.duty.get ch).toNat ≤ 1023 := Nat.le_of_lt_succ (BitVec.isLt _)
  rcases phaseAt_compare hp l s ch with ⟨ho, -⟩ | ⟨d, -, -, ho⟩
  · rw [ho]; exact ⟨(h ch).1, hduty⟩
  · rw [ho]; exact ⟨compareOf_le s d, hduty⟩

/-- Every move keeps the registers legal (10_state.md R46, 1 to 4). -/
theorem registerInv_move {m : Move} {s t : State} (h : RegisterInv s) (hm : takeMove m s = .next t) :
    RegisterInv t := by
  obtain ⟨hcounter, hclock, hchannels⟩ := h
  cases register_move hm with
  | control k g hi => exact ⟨hcounter, hclock, hchannels⟩
  | tick => exact ⟨counterInv_tick hcounter, by rw [tick_frame]; exact hclock, by rw [tick_frame]; exact hchannels⟩
  | phase b p k g hi _ _ hp =>
    exact ⟨counterInv_phase hp b.locals hcounter, clockInv_phase hp b.locals hclock,
      channelInv_phase hp b.locals hchannels⟩
  | dispatch k g hi => exact ⟨hcounter, hclock, hchannels⟩

/-- Settles O53: the invariant does not speak of the schedule or the draws, and every move keeps it. -/
theorem everyStepKeepsTheRegistersLegal : Obligations.EveryStepKeepsTheRegistersLegal := by
  intro s t h hstep
  obtain ⟨m, l, d, hm⟩ := takeMove_of_step hstep
  have h' : RegisterInv { s with schedule := l, draws := d } := ⟨h.counter, h.clock, h.channels⟩
  exact registerInv_move h' hm

end Sys2Proof.Machine
end

section
/-! Proofs about who writes what (10_state.md R24 to R36). -/

namespace Sys2Proof.Machine

/-- Settles O45: a tick by its move, ST3 by the phases that write the counter. -/
theorem onlyTicksAndStartWriteTheCounter : Obligations.OnlyTicksAndStartWriteTheCounter := by
  intro m s t h hw
  cases register_move h with
  | control k g hi => simp at hw
  | tick hm hc => exact .inl ⟨hm, hc⟩
  | phase b p k g hi hm hb hp =>
    rcases phaseAt_counter hp b.locals s with ⟨hc, hd⟩ | ⟨hi, hk, hc, hd⟩
    · simp [hc, hd] at hw
    · exact .inr ⟨hm, ⟨b.locals, by rw [hb, ← hi, ← hk]⟩, hc, hd⟩
  | dispatch k g hi => simp at hw

/-- Settles O46: by what a phase can do to the clock's registers; no other move writes them. -/
theorem onlyPeriodPhasesWriteTopAndPrescaler : Obligations.OnlyPeriodPhasesWriteTopAndPrescaler := by
  intro m s t h
  cases register_move h with
  | control k g hi => simp
  | tick => rw [tick_frame]; simp
  | dispatch k g hi => simp
  | phase b p k g hi hm hb hp =>
    cases phaseAt_clock hp b.locals s with
    | keep ht hps hc => simp [ht, hps, hc]
    | select us hus ht hps hc =>
      refine ⟨fun _ => ⟨hm, ⟨b, us, hb, hus, ht, hps⟩, ?_⟩, fun hne => absurd hc hne⟩
      simp only [hps]
      exact periodCalc_code ..
    | connect ht hps hc => exact ⟨by simp [ht, hps], fun _ => ⟨hm, .inl ⟨hc, hps⟩⟩⟩
    | disconnect hcmd ht hps hc => exact ⟨by simp [ht, hps], fun _ => ⟨hm, .inr ⟨hc, b, hb, hcmd⟩⟩⟩

/-- No phase clears a `PINDIR` (10_state.md R32). -/
theorem phaseAt_keeps_pinDir_set {i : Instr} {k : Nat} {p : Phase} (h : PhaseAt i k p) (l : Locals) (s : State)
    (ch : Channel) (hs : s.pinDir.get ch = true) : (p.run l s).2.pinDir.get ch = true := by
  cases h
  case sd2 c d | pwmEnable c d q => simp [Phase.plain, phaseEnable, hs]
  case sa2 d | pwmAllEnable d q => exact PerChannel.get_fill ..
  case rd3 => rw [phaseRD3_frame]; exact hs
  all_goals exact hs

/-- Of the phases, only DP1 of the channel and IN1 clear a `COM_EN` (10_state.md R31). -/
theorem phaseAt_comEn_cleared {i : Instr} {k : Nat} {p : Phase} (h : PhaseAt i k p) (l : Locals) (s : State)
    (ch : Channel) (hs : s.comEn.get ch = true) (ht : (p.run l s).2.comEn.get ch = false) :
    i = .disablePwm (.channel ch) ∨ ∃ us, i = .init us := by
  have kept : (p.run l s).2.comEn.get ch = s.comEn.get ch → False := fun e => by simp [e, hs] at ht
  cases h
  case in1 us => exact .inr ⟨us, rfl⟩
  case dp1 c =>
    by_cases hc : c = ch
    · exact .inl (by rw [hc])
    · exact absurd (by simp [Phase.plain, phaseDP1, hc]) kept
  case sd2 c d | pwmEnable c d q => simp [Phase.plain, phaseEnable, hs] at ht
  case sa2 d | pwmAllEnable d q => simp [Phase.plain, phaseEnableAll] at ht
  case rd3 => exact absurd (by rw [phaseRD3_frame]) kept
  all_goals exact absurd rfl kept

/-- Settles O47: by what a phase can write in the per-channel files; no other move writes them. -/
theorem onlyDutyCommandsWriteTheChannels : Obligations.OnlyDutyCommandsWriteTheChannels := by
  intro m s t ch h
  cases register_move h with
  | control k g hi => exact ⟨by simp, id, fun hs ht => by simp [hs] at ht⟩
  | tick => rw [tick_frame]; exact ⟨by simp, id, fun hs ht => by simp [hs] at ht⟩
  | dispatch k g hi => exact ⟨by simp, id, fun hs ht => by simp [hs] at ht⟩
  | phase b p k g hi hm hb hp =>
    refine ⟨fun hw => ?_, phaseAt_keeps_pinDir_set hp b.locals s ch,
      fun hs ht => ⟨hm, b, hb, phaseAt_comEn_cleared hp b.locals s ch hs ht⟩⟩
    rcases phaseAt_compare hp b.locals s ch with ⟨ho, hd⟩ | ⟨d, hcmd, hd, ho⟩
    · simp [ho, hd] at hw
    · exact ⟨hm, b, d, hb, hd, ho, hcmd⟩

/-- Of the phases, only AT2 sets `IE`, and only DT1 and ST1 clear it (10_state.md R33). -/
theorem phaseAt_ie {i : Instr} {k : Nat} {p : Phase} (h : PhaseAt i k p) (l : Locals) (s : State) :
    (p.run l s).2.ie = s.ie ∨ ((p.run l s).2.ie = true ∧ ∃ cb q, i = .attachInterrupt cb q) ∨
    ((p.run l s).2.ie = false ∧ (i = .detachInterrupt ∨ (i = .start ∧ k = 0))) := by
  cases h
  case at2 cb q => exact .inr (.inl ⟨rfl, cb, q, rfl⟩)
  case dt1 => exact .inr (.inr ⟨rfl, .inl rfl⟩)
  case st1 => exact .inr (.inr ⟨rfl, .inr ⟨rfl, rfl⟩⟩)
  case rd3 => rw [phaseRD3_frame]; exact .inl rfl
  all_goals exact .inl rfl

/-- Of the phases, only AT1 writes `SLOT` (10_state.md R35). -/
theorem phaseAt_slot {i : Instr} {k : Nat} {p : Phase} (h : PhaseAt i k p) (l : Locals) (s : State) :
    (p.run l s).2.slot = s.slot ∨ ∃ cb q, i = .attachInterrupt cb q ∧ (p.run l s).2.slot = cb := by
  cases h
  case at1 cb q => exact .inr ⟨cb, q, rfl, rfl⟩
  case rd3 => rw [phaseRD3_frame]; exact .inl rfl
  all_goals exact .inl rfl

/-- A tick never clears the event flag (10_state.md R34). -/
theorem tick_evtPending (s : State) : s.tick.evtPending = s.evtPending ∨ s.tick.evtPending = true := by
  rcases tick_cases s with ⟨-, -, e, -⟩ | ⟨-, -, e⟩ | ⟨-, -, e⟩ | ⟨-, -, e, -⟩ <;> rw [e]
  · exact .inl rfl
  · exact .inr rfl
  · exact .inr rfl
  · exact .inl rfl

/-- Who writes `EVT_PENDING` (10_state.md R34). -/
theorem evtPending_writers {m : Move} {s t : State} (h : takeMove m s = .next t)
    (hne : t.evtPending ≠ s.evtPending) :
    (m = .tick ∧ t.evtPending = true) ∨ (m = .dispatch ∧ t.evtPending = false) := by
  cases register_move h with
  | control k g hi => exact absurd rfl hne
  | tick hm => exact .inl ⟨hm, (tick_evtPending s).resolve_left hne⟩
  | phase b p k g hi _ _ hp => exact absurd (phaseAt_keeps_evtPending hp b.locals s) hne
  | dispatch k g hi hm => exact .inr ⟨hm, rfl⟩

/-- Who writes `IE` (10_state.md R33). -/
theorem ie_writers {m : Move} {s t : State} (h : takeMove m s = .next t) (hne : t.ie ≠ s.ie) :
    m = .phase ∧ ∃ b, s.topBusy = some b ∧
      (if t.ie then ∃ cb p, b.cmd = .attachInterrupt cb p
        else b.cmd = .detachInterrupt ∨ (b.cmd = .start ∧ b.k = 0)) := by
  cases register_move h with
  | control k g hi => exact absurd rfl hne
  | tick => rw [tick_frame] at hne; exact absurd rfl hne
  | dispatch k g hi => exact absurd rfl hne
  | phase b p k g hi hm hb hp =>
    refine ⟨hm, b, hb, ?_⟩
    rcases phaseAt_ie hp b.locals s with he | ⟨he, hcmd⟩ | ⟨he, hcmd⟩
    · exact absurd he hne
    · simpa only [he, if_true] using hcmd
    · simpa [he] using hcmd

/-- Who writes `SLOT` (10_state.md R35). -/
theorem slot_writers {m : Move} {s t : State} (h : takeMove m s = .next t) (hne : t.slot ≠ s.slot) :
    m = .phase ∧ ∃ b cb p, s.topBusy = some b ∧ b.cmd = .attachInterrupt cb p ∧ t.slot = cb := by
  cases register_move h with
  | control k g hi => exact absurd rfl hne
  | tick => rw [tick_frame] at hne; exact absurd rfl hne
  | dispatch k g hi => exact absurd rfl hne
  | phase b p k g hi hm hb hp =>
    obtain ⟨cb, q, hcmd, hs⟩ := (phaseAt_slot hp b.locals s).resolve_left hne
    exact ⟨hm, b, cb, q, hb, hcmd, hs⟩

/-- Who writes `GIE` (10_state.md R36). -/
theorem gie_writers {m : Move} {s t : State} (h : takeMove m s = .next t) (hne : t.gie ≠ s.gie) :
    (∃ v, m = .setGie v ∧ t.gie = v) ∨ (m = .dispatch ∧ t.gie = false) ∨ m = .isrReturn := by
  cases gie_move h with
  | same hg => exact absurd hg hne
  | given w hm _ ht => exact .inl ⟨w, hm, by rw [ht]; rfl⟩
  | entry hm _ hg' => exact .inr (.inl ⟨hm, hg'⟩)
  | back hm => exact .inr (.inr hm)

/-- Settles O48: register by register, from the lemma that says who writes it. -/
theorem whoWritesTheInterruptState : Obligations.WhoWritesTheInterruptState :=
  fun _ _ _ h => ⟨evtPending_writers h, ie_writers h, slot_writers h, gie_writers h⟩

end Sys2Proof.Machine
end

section
/-! Proof of what `GIE` holds (10_state.md R46, 5; log 20). -/

namespace Sys2Proof.Machine

/-- Without an interrupt context there is no saved `GIE`. -/
theorem ContextStack.savedGies_eq_nil {c : ContextStack} : c.savedGies = [] ↔ c.isrs = [] := List.map_eq_nil_iff

/-- The main context is on top exactly when no interrupt context is on the stack. -/
theorem State.mainOnTop_iff {s : State} : s.mainOnTop = true ↔ s.stack.isrs = [] := List.isEmpty_iff

/-- Every move keeps `GieInv`, with the value given on moved by the move (60_exceptions.md R226, R229, R236). -/
theorem gieInv_move {m : Move} {s t : State} {v : Bool} (h : GieInv v s) (htake : takeMove m s = .next t) :
    GieInv (givenGie State.mainOnTop m s v) t := by
  obtain ⟨hmain, hlow⟩ := (gieInv_iff v s).mp h
  cases gie_move htake with
  | same hg hs hv => rw [hv, gieInv_iff, hs, hg]; exact ⟨hmain, hlow⟩
  | given w hm he ht =>
    subst ht hm
    cases hi : s.mainOnTop with
    | true =>
      have hnil : s.stack.savedGies = [] := ContextStack.savedGies_eq_nil.mpr (State.mainOnTop_iff.mp hi)
      have hv : givenGie State.mainOnTop (.setGie w) s v = w := by simp [givenGie, he, hi]
      rw [hv, gieInv_iff]
      simp [hnil]
    | false =>
      have hnil : s.stack.savedGies ≠ [] := fun h0 =>
        absurd (State.mainOnTop_iff.mpr (ContextStack.savedGies_eq_nil.mp h0)) (by simp [hi])
      have hv : givenGie State.mainOnTop (.setGie w) s v = v := by simp [givenGie, hi]
      rw [hv, gieInv_iff]
      exact ⟨fun h0 => absurd h0 hnil, hlow⟩
  | entry hm hg _ hs =>
    subst hm
    show GieInv v t
    rw [gieInv_iff, hs]
    refine ⟨fun h0 => absurd h0 (List.cons_ne_nil _ _), fun x hx => ?_⟩
    cases hl : s.stack.savedGies with
    | nil =>
      have hx' : x = true := by simpa [hl] using hx.symm
      rw [hx', ← hg, hmain hl]
    | cons y ys => exact hlow x (by rw [hl] at hx ⊢; simpa using hx)
  | back hm hs =>
    subst hm
    show GieInv v t
    rw [gieInv_iff]
    rw [hs] at hlow
    refine ⟨fun h0 => hlow _ (by simp [h0]), fun x hx => hlow x ?_⟩
    cases hl : t.stack.savedGies with
    | nil => simp [hl] at hx
    | cons y ys => rw [hl] at hx; simpa using hx

/-- At reset `GIE` is `GIE_INIT` (70_reset_and_hazards.md R251). -/
theorem gieInv_reset (p : Params) : GieInv p.gieInit (State.resetWith p) :=
  ⟨fun _ => rfl, fun _ hc => by cases hc⟩

/-- A list of moves that does not stop begins with a move that does not. -/
theorem runMoves_cons_next {m : Move} {ms : List Move} {s t : State} (h : runMoves (m :: ms) s = .next t) :
    ∃ u, takeMove m s = .next u ∧ runMoves ms u = .next t := by
  unfold runMoves at h
  split at h
  · next u hu => exact ⟨u, hu, h⟩
  · cases h
  · cases h

/-- The last given value over a list whose first move does not stop. -/
theorem lastGivenGie_cons {counts : State → Bool} {m : Move} {ms : List Move} {s u : State} {v : Bool}
    (h : takeMove m s = .next u) :
    lastGivenGie counts (m :: ms) s v = lastGivenGie counts ms u (givenGie counts m s v) := by
  simp [lastGivenGie, h]

/-- Every list of moves keeps `GieInv`, with the last value given. -/
theorem gieInv_runMoves {ms : List Move} {s t : State} {v : Bool} (h : GieInv v s) (hr : runMoves ms s = .next t) :
    GieInv (lastGivenGie State.mainOnTop ms s v) t := by
  induction ms generalizing s v with
  | nil => cases hr; exact h
  | cons m ms ih =>
    obtain ⟨u, hm, hr⟩ := runMoves_cons_next hr
    rw [lastGivenGie_cons hm]
    exact ih (gieInv_move h hm) hr

/-- Every interrupt context saved the `GIE = 1` of its dispatch (60_exceptions.md R225, R226). -/
def SavedGiesSet (s : State) : Prop := ∀ x ∈ s.stack.savedGies, x = true

/-- Every move keeps that the saved `GIE`s are 1. -/
theorem savedGiesSet_move {m : Move} {s t : State} (h : SavedGiesSet s) (hm : takeMove m s = .next t) :
    SavedGiesSet t := by
  unfold SavedGiesSet at *
  cases gie_move hm with
  | same _ hs _ => rwa [hs]
  | given w _ _ ht => rw [ht]; exact h
  | entry _ _ _ hs => rw [hs]; simpa using h
  | back _ hs => rw [hs] at h; exact fun x hx => h x (List.mem_cons_of_mem _ hx)

/-- With an interrupt context on the stack the value given last in the main context is the 1 that the lowest context
saved. -/
theorem GieInv.value_of_isrs {v : Bool} {s : State} (h : GieInv v s) (hset : SavedGiesSet s)
    (hi : s.stack.isrs ≠ []) : v = true := by
  have hne : s.stack.savedGies ≠ [] := fun h0 => hi (ContextStack.savedGies_eq_nil.mp h0)
  have hlast := List.getLast?_eq_getLast_of_ne_nil hne
  rw [← ((gieInv_iff v s).mp h).2 _ hlast]
  exact hset _ (List.getLast_mem hne)

/-- In the moves `ms` from `s` no callback sets `GIE = 0`: where that move is enabled, the main context is on top. -/
def NoCallbackClearsGie (ms : List Move) (s : State) : Prop :=
  ∀ (before after : List Move) (u : State), ms = before ++ .setGie false :: after →
    runMoves before s = .next u → u.setGieEnabled = true → u.stack.isrs = []

/-- Where no callback sets `GIE = 0`, the rest of the moves has none that does. -/
theorem NoCallbackClearsGie.tail {m : Move} {ms : List Move} {s u : State} (h : NoCallbackClearsGie (m :: ms) s)
    (hm : takeMove m s = .next u) : NoCallbackClearsGie ms u := by
  intro before after w hms hr
  exact h (m :: before) after w (by rw [hms]; rfl) (by rw [runMoves_cons hm, hr])

/-- A value that counts wherever it is given is the one that counts in the main context, unless a callback sets
`GIE = 0`: what a callback gives otherwise is the 1 that stands in the main context. -/
theorem givenGie_eq_of_noCallbackClears {m : Move} {ms : List Move} {s : State} {v : Bool} (h : GieInv v s)
    (hset : SavedGiesSet s) (hno : NoCallbackClearsGie (m :: ms) s) :
    givenGie (fun _ => true) m s v = givenGie State.mainOnTop m s v := by
  cases m with
  | setGie w =>
    cases he : s.setGieEnabled with
    | false => simp [givenGie, he]
    | true =>
      cases hi : s.mainOnTop with
      | true => simp [givenGie, he, hi]
      | false =>
        have hne : s.stack.isrs ≠ [] := fun h0 => absurd (State.mainOnTop_iff.mpr h0) (by simp [hi])
        have hw : w = true := by
          cases w with
          | true => rfl
          | false => exact absurd (hno [] ms s rfl rfl he) hne
        simp [givenGie, hi, hw, h.value_of_isrs hset hne]
  | _ => rfl

/-- Over a list of moves in which no callback sets `GIE = 0`, the last value given at all is the last one given in the
main context. -/
theorem lastGivenGie_eq_of_noCallbackClears {ms : List Move} {s t : State} {v : Bool} (h : GieInv v s)
    (hset : SavedGiesSet s) (hno : NoCallbackClearsGie ms s) (hr : runMoves ms s = .next t) :
    lastGivenGie (fun _ => true) ms s v = lastGivenGie State.mainOnTop ms s v := by
  induction ms generalizing s v with
  | nil => rfl
  | cons m ms ih =>
    obtain ⟨u, hm, hr⟩ := runMoves_cons_next hr
    rw [lastGivenGie_cons hm, lastGivenGie_cons hm, givenGie_eq_of_noCallbackClears h hset hno]
    exact ih (gieInv_move h hm) (savedGiesSet_move hset hm) (hno.tail hm) hr

/-- What the environment gives in a move does not depend on the schedule or the draws. -/
theorem givenGie_nextMove (s : State) (v : Bool) :
    givenGie State.mainOnTop s.nextMove.1 s.nextMove.2 v = givenGie State.mainOnTop s.nextMove.1 s v := by
  unfold State.nextMove
  split <;> rfl

/-- `GieInv` does not speak of the schedule or the draws. -/
theorem gieInv_nextMove {s : State} {v : Bool} (h : GieInv v s) : GieInv v s.nextMove.2 := by
  unfold State.nextMove
  split <;> exact ⟨h.onMain, h.saved⟩

/-- Settles O60: every move keeps `GieInv`, so every list of moves does; and where no callback sets `GIE = 0`, the two
readings of the last given value agree. -/
theorem gieHoldsTheLastValueTheEnvironmentGave : Obligations.GieHoldsTheLastValueTheEnvironmentGave := by
  refine ⟨fun s t v h hs => ?_, fun p ms t hr => gieInv_runMoves (gieInv_reset p) hr, fun p ms t hr hno hi => ?_⟩
  · rw [← givenGie_nextMove]
    exact gieInv_move (gieInv_nextMove h) hs
  · have hset : SavedGiesSet (State.resetWith p) := fun x hx => by cases hx
    rw [lastGivenGie_eq_of_noCallbackClears (gieInv_reset p) hset hno hr]
    exact (gieInv_runMoves (gieInv_reset p) hr).onMain hi

end Sys2Proof.Machine
end

section
/-! Proofs about the schedule (10_state.md R44; log 1). -/

namespace Sys2Proof.Machine

/-- The state with another schedule. -/
def State.withSchedule (s : State) (l : List Move) : State := { s with schedule := l }

/-- The outcome with another schedule in its next state. -/
def outcomeWithSchedule (l : List Move) :
    Host.Outcome State Fault Refusal → Host.Outcome State Fault Refusal
  | .next t => .next (t.withSchedule l)
  | .fault r => .fault r
  | .refused r => .refused r

/-- RD3 does not read the schedule. -/
theorem deliverResult_withSchedule (s : State) (s1 s2 : Half) (l : List Move) :
    (s.withSchedule l).deliverResult s1 s2 = (s.deliverResult s1 s2).withSchedule l := by
  have htop : (s.withSchedule l).top = s.top := rfl
  unfold State.deliverResult State.takeTicks
  rw [htop]
  cases elapsedTicks s1.toNat s2.toNat s.top.toNat <;> rfl

/-- No phase reads the schedule. -/
theorem phaseAt_withSchedule {i : Instr} {k : Nat} {p : Phase} (h : PhaseAt i k p) (lo : Locals) (s : State)
    (l : List Move) :
    p.ready lo (s.withSchedule l) = p.ready lo s ∧
      p.run lo (s.withSchedule l) = ((p.run lo s).1, (p.run lo s).2.withSchedule l) := by
  cases h
  case rd3 =>
    refine ⟨rfl, ?_⟩
    rcases lo with ⟨_ | s1, _ | s2⟩
    · rfl
    · rfl
    · rfl
    · exact congrArg (Prod.mk _) (deliverResult_withSchedule s s1 s2 l)
  all_goals exact ⟨rfl, rfl⟩

/-- The sequencer's step does not read the schedule. -/
theorem runPhase_withSchedule (s : State) (b : Busy) (l : List Move) :
    (s.withSchedule l).runPhase b.cmd (phasesOf b.cmd) b =
      (s.runPhase b.cmd (phasesOf b.cmd) b).withSchedule l := by
  unfold State.runPhase
  cases hp : (phasesOf b.cmd)[b.k]? with
  | none => rfl
  | some p =>
    obtain ⟨hready, hrun⟩ := phaseAt_withSchedule (phaseAt_of_getElem? hp) b.locals s l
    simp only [hready, hrun, State.advance]
    split
    · split <;> rfl
    · rfl

/-- A tick does not read the schedule. -/
theorem tick_withSchedule (s : State) (l : List Move) : (s.withSchedule l).tick = s.tick.withSchedule l := by
  unfold State.tick State.withSchedule
  simp only
  split_ifs <;> rfl

/-- The issue of a word does not read the schedule. -/
theorem issueMove_withSchedule (w : CmdWord) (s : State) (l : List Move) :
    issueMove w (s.withSchedule l) = outcomeWithSchedule l (issueMove w s) := by
  have he : (s.withSchedule l).issueEnabled = s.issueEnabled := rfl
  unfold issueMove
  rw [he]
  cases hen : s.issueEnabled with
  | false => rfl
  | true =>
    cases decode w with
    | error e => rfl
    | ok i => simp only [if_true, exec_issue i s hen, exec_issue i _ (he.trans hen)]; rfl

/-- No move reads the schedule. -/
theorem takeMove_withSchedule (m : Move) (s : State) (l : List Move) :
    takeMove m (s.withSchedule l) = outcomeWithSchedule l (takeMove m s) := by
  cases m with
  | tick =>
    have he : (s.withSchedule l).tickEnabled = s.tickEnabled := rfl
    simp only [takeMove, he, tick_withSchedule]
    cases s.tickEnabled <;> rfl
  | phase =>
    have hb : (s.withSchedule l).topBusy = s.topBusy := rfl
    simp only [takeMove, phaseMove]
    rw [hb]
    cases ht : s.topBusy with
    | none => rfl
    | some b =>
      simp only [exec_phase b s ht, exec_phase b _ (hb.trans ht), runPhase_withSchedule]
      rfl
  | dispatch =>
    have he : (s.withSchedule l).dispatchEnabled = s.dispatchEnabled := rfl
    simp only [takeMove, he]
    cases s.dispatchEnabled <;> rfl
  | isrReturn =>
    have he : (s.withSchedule l).isrReturnEnabled = s.isrReturnEnabled := rfl
    have hr : (s.withSchedule l).isrReturn = s.isrReturn.withSchedule l := by
      unfold State.isrReturn State.withSchedule
      simp only
      split <;> rfl
    simp only [takeMove, he, hr]
    cases s.isrReturnEnabled <;> rfl
  | issue w => exact issueMove_withSchedule w s l
  | deliver bytes =>
    simp only [takeMove, deliverMove]
    cases wordOfBytes bytes with
    | none => rfl
    | some w => exact issueMove_withSchedule w s l
  | setGie v =>
    have he : (s.withSchedule l).setGieEnabled = s.setGieEnabled := rfl
    simp only [takeMove, he]
    cases s.setGieEnabled <;> rfl
  | cbDone =>
    have he : (s.withSchedule l).cbDoneEnabled = s.cbDoneEnabled := rfl
    have hr : (s.withSchedule l).endCallback = s.endCallback.withSchedule l := by
      unfold State.endCallback State.withSchedule
      simp only
      split <;> rfl
    simp only [takeMove, he, hr]
    cases s.cbDoneEnabled <;> rfl

/-- With a move first in the schedule, a step is that move from the state without it. -/
theorem step_of_schedule {s : State} {m : Move} {rest : List Move} (h : s.schedule = m :: rest) :
    step s = takeMove m { s with schedule := rest } := by
  unfold step State.nextMove
  rw [h]

/-- The first of a row of steps with a schedule. -/
theorem step_withSchedule (m : Move) (rest : List Move) (s : State) :
    step (s.withSchedule (m :: rest)) = outcomeWithSchedule rest (takeMove m s) :=
  (step_of_schedule rfl).trans (takeMove_withSchedule m s rest)

/-- The first of a row of steps of a machine. -/
theorem run_succ_of_next {M : Host.Core} {n : Nat} {s t : M.State} (h : M.step s = .next t) :
    M.run (n + 1) s = M.run n t := by
  simp only [Host.Core.run, h]

/-- A refused step ends a row of steps of a machine. -/
theorem run_succ_of_refused {M : Host.Core} {n : Nat} {s : M.State} {r : M.Refusal} (h : M.step s = .refused r) :
    M.run (n + 1) s = .refused r := by
  simp only [Host.Core.run, h]

/-- A run of steps over a schedule is the run of its moves. -/
theorem run_withSchedule (ms rest : List Move) (s : State) :
    Sys2Proof.core.run ms.length (s.withSchedule (ms ++ rest)) = runMoves ms (s.withSchedule rest) := by
  induction ms generalizing s with
  | nil => rfl
  | cons m ms ih =>
    have hstep : step (s.withSchedule (m :: (ms ++ rest))) = outcomeWithSchedule (ms ++ rest) (takeMove m s) :=
      step_withSchedule m (ms ++ rest) s
    have hmove : takeMove m (s.withSchedule rest) = outcomeWithSchedule rest (takeMove m s) :=
      takeMove_withSchedule m s rest
    cases ho : takeMove m s with
    | next t =>
      rw [ho] at hstep hmove
      exact (run_succ_of_next (M := Sys2Proof.core) hstep).trans ((ih t).trans (runMoves_cons hmove).symm)
    | fault r => cases r
    | refused r =>
      rw [ho] at hstep hmove
      exact (run_succ_of_refused (M := Sys2Proof.core) hstep).trans (by rw [runMoves, hmove]; rfl)

/-- Settles O6, by induction on the moves. -/
theorem stepsTakeTheMovesInScheduleOrder : Obligations.StepsTakeTheMovesInScheduleOrder :=
  run_withSchedule

end Sys2Proof.Machine
end

section
/-! Proofs about the history, the parameters and the context stack (10_state.md R37, R38, R40; 00_scope.md R6). -/

namespace Sys2Proof.Machine

/-- A phase records at most one entry of the history. -/
theorem phaseAt_history {i : Instr} {k : Nat} {p : Phase} (h : PhaseAt i k p) (l : Locals) (s : State) :
    ∃ es, (p.run l s).2.history = es ++ s.history ∧ es.length ≤ 1 := by
  cases h
  case st2 => exact ⟨[.prescalerReset], rfl, Nat.le_refl 1⟩
  case rd3 =>
    rcases l with ⟨_ | s1, _ | s2⟩
    · exact ⟨[], rfl, Nat.zero_le 1⟩
    · exact ⟨[], rfl, Nat.zero_le 1⟩
    · exact ⟨[], rfl, Nat.zero_le 1⟩
    · simp only [phaseRD3]
      rcases deliverResult_cases s s1 s2 with ⟨n, -, e⟩ | ⟨-, e⟩ <;> rw [e] <;> exact ⟨[_], rfl, Nat.le_refl 1⟩
  all_goals exact ⟨[], rfl, Nat.zero_le 1⟩

/-- A tick records at most the bottom event. -/
theorem tick_history (s : State) : ∃ es, s.tick.history = es ++ s.history ∧ es.length ≤ 2 := by
  rcases tick_cases s with ⟨-, -, e, -⟩ | ⟨-, -, e⟩ | ⟨-, -, e⟩ | ⟨-, -, e, -⟩ <;> rw [e]
  · exact ⟨[], rfl, Nat.zero_le 2⟩
  · exact ⟨[.bottom], rfl, by simp⟩
  · exact ⟨[.bottom], rfl, by simp⟩
  · exact ⟨[], rfl, Nat.zero_le 2⟩

/-- The sequencer's step records at most the phase's entry and the completion. -/
theorem runPhase_history (s : State) (b : Busy) :
    ∃ es, (s.runPhase b.cmd (phasesOf b.cmd) b).history = es ++ s.history ∧ es.length ≤ 2 := by
  rcases runPhase_cases s b.cmd (phasesOf b.cmd) b with ⟨-, e⟩ | ⟨p, -, -, e⟩ | ⟨p, hp, -, -, e⟩ | ⟨p, hp, -, -, e⟩
      <;> rw [e]
  · exact ⟨[_], rfl, by simp⟩
  · exact ⟨[], rfl, Nat.zero_le 2⟩
  · obtain ⟨es, hes, hlen⟩ := phaseAt_history (phaseAt_of_getElem? hp) b.locals s
    exact ⟨es, hes, hlen.trans (by decide)⟩
  · obtain ⟨es, hes, hlen⟩ := phaseAt_history (phaseAt_of_getElem? hp) b.locals s
    exact ⟨_ :: es, congrArg _ hes, Nat.succ_le_succ hlen⟩

/-- A dispatch records one entry, or two. -/
theorem dispatchEvents_length_le (h : Option HandlerId) : (dispatchEvents h).length ≤ 2 := by
  cases h with
  | none => exact Nat.le_succ 1
  | some x => exact Nat.le_refl 2

/-- Every move puts at most two entries on the history (10_state.md R38). -/
theorem history_move {m : Move} {s t : State} (h : takeMove m s = .next t) :
    ∃ es, t.history = es ++ s.history ∧ es.length ≤ 2 := by
  rcases takeMove_cases h with e | ⟨-, -, e⟩ | ⟨-, b, -, e⟩ | ⟨-, -, -, e⟩ | ⟨-, -, e⟩ | ⟨w, i, -, -, -, e⟩
      | ⟨v, -, -, e⟩ | ⟨-, -, e⟩ <;> rw [e]
  · exact ⟨[], rfl, Nat.zero_le 2⟩
  · exact tick_history s
  · exact runPhase_history s b
  · exact ⟨dispatchEvents s.slot, rfl, dispatchEvents_length_le s.slot⟩
  · unfold State.isrReturn
    split
    · exact ⟨[], rfl, Nat.zero_le 2⟩
    · exact ⟨[.isrReturn], rfl, by simp⟩
  · exact ⟨[_], rfl, by simp⟩
  · exact ⟨[], rfl, Nat.zero_le 2⟩
  · rw [endCallback_frame]
    exact ⟨[], rfl, Nat.zero_le 2⟩

/-- No move writes the parameters or the schedule (00_scope.md R6; log 1). -/
theorem params_schedule_move {m : Move} {s t : State} (h : takeMove m s = .next t) :
    t.params = s.params ∧ t.schedule = s.schedule := by
  cases register_move h with
  | control k g hi => exact ⟨rfl, rfl⟩
  | tick => rw [tick_frame]; exact ⟨rfl, rfl⟩
  | phase b p k g hi _ _ hp => exact phaseAt_keeps_params_schedule hp b.locals s
  | dispatch k g hi => exact ⟨rfl, rfl⟩

/-- Settles O49. -/
theorem historyOnlyGrowsAndParametersStay : Obligations.HistoryOnlyGrowsAndParametersStay :=
  fun _ _ _ h => ⟨history_move h, params_schedule_move h⟩

/-- Two stacks with the same contexts below the top one. -/
def SameBelowTop (c d : ContextStack) : Prop :=
  d.suspended = c.suspended ∧ d.isrs.tail = c.isrs.tail ∧ d.isrs.length = c.isrs.length

/-- A write of the top context's `busy` touches no context below. -/
theorem SameBelowTop.setTopBusy {c d : ContextStack} (h : SameBelowTop c d) (b : Option Busy) :
    SameBelowTop c (d.setTopBusy b) := by
  obtain ⟨hsus, htail, hlen⟩ := h
  exact ⟨by rw [ContextStack.suspended_setTopBusy, hsus], by rw [ContextStack.isrs_tail_setTopBusy, htail],
    by rw [ContextStack.isrs_length_setTopBusy, hlen]⟩

/-- The sequencer's step touches the top context alone (10_state.md R40). -/
theorem runPhase_sameBelowTop (s : State) (b : Busy) :
    SameBelowTop s.stack (s.runPhase b.cmd (phasesOf b.cmd) b).stack :=
  runPhase_keeps (fun t => SameBelowTop s.stack t.stack) ⟨rfl, rfl, rfl⟩ (fun _ c h => h.setTopBusy c)
    (fun _ _ h => h) (fun _ hp _ => by rw [phaseAt_keeps_stack hp]; exact ⟨rfl, rfl, rfl⟩)

/-- The end of a callback touches the top context alone. -/
theorem endCallback_sameBelowTop (s : State) : SameBelowTop s.stack s.endCallback.stack := by
  unfold State.endCallback
  split
  · exact ⟨rfl, rfl, rfl⟩
  · next hs => simp [SameBelowTop, ContextStack.suspended, ContextStack.busies, hs]

/-- Settles O50: only the dispatch and the interrupt return change which contexts there are. -/
theorem suspendedContextsAreLeftAlone : Obligations.SuspendedContextsAreLeftAlone := by
  intro m s t h
  rcases takeMove_cases h with e | ⟨-, -, e⟩ | ⟨-, b, -, e⟩ | ⟨hm, -, -, e⟩ | ⟨hm, he, e⟩ | ⟨w, i, -, -, -, e⟩
      | ⟨v, -, -, e⟩ | ⟨-, -, e⟩ <;> rw [e]
  · exact .inl ⟨rfl, rfl, rfl⟩
  · rw [tick_frame]
    exact .inl ⟨rfl, rfl, rfl⟩
  · exact .inl (runPhase_sameBelowTop s b)
  · exact .inr (.inl ⟨hm, rfl, rfl, rfl⟩)
  · refine .inr (.inr ⟨hm, ?_⟩)
    cases hs : s.stack.isrs with
    | nil => simp [State.isrReturnEnabled, hs] at he
    | cons c cs => simp [State.isrReturn, hs]
  · exact .inl (SameBelowTop.setTopBusy ⟨rfl, rfl, rfl⟩ _)
  · exact .inl ⟨rfl, rfl, rfl⟩
  · exact .inl (endCallback_sameBelowTop s)

end Sys2Proof.Machine
end

section
/-! SUPPORT. The decoder reads back the word of a command (30_encoding.md R92). -/

namespace Sys2Proof

/-- The command that a row of the opcode map gives a word without reserved bits. -/
theorem decode_of_row {w : CmdWord} {i : Instr} {fmt : Format} {command : CmdWord → Instr}
    (hrow : opcodeRow (opcOf w) = some (fmt, command)) (hmask : w &&& reservedMask fmt = 0) (hi : command w = i) :
    decode w = .ok i :=
  (decode_ok_iff w i).mpr ⟨fmt, command, hrow, hmask, hi.symm⟩

/-- The decoder reads back every well-formed command (30_encoding.md R90, R92). -/
theorem decode_encode {i : Instr} (h : i.wellFormed = true) : decode (encode i) = .ok i := by
  cases i with
  | init us => exact decode_of_row (by rw [encode, opcOf_packFields]; rfl) (reserved_T ..) (by simp [encode])
  | setPeriod us => exact decode_of_row (by rw [encode, opcOf_packFields]; rfl) (reserved_T ..) (by simp [encode])
  | setDuty ch d => exact decode_of_row (by rw [encode, opcOf_packFields]; rfl) (reserved_CD ..) (by simp [encode])
  | setDutyAll d => exact decode_of_row (by rw [encode, opcOf_packFields]; rfl) (reserved_D ..) (by simp [encode])
  | pwm ch d p => exact decode_of_row (by rw [encode, opcOf_packFields]; rfl) (reserved_CDP ..) (by simp [encode])
  | pwmAll d p => exact decode_of_row (by rw [encode, opcOf_packFields]; rfl) (reserved_DP ..) (by simp [encode])
  | disablePwm ch => exact decode_of_row (by rw [encode, opcOf_packFields]; rfl) (reserved_C ..) (by simp [encode])
  | attachInterrupt cb p =>
    exact decode_of_row (by rw [encode, opcOf_packFields]; rfl) (reserved_HP ..)
      (by simp [encode, callbackOfId_idOfCallback cb h])
  | detachInterrupt => exact decode_of_row (by rw [encode, opcOf_packFields]; rfl) (reserved_N ..) rfl
  | start => exact decode_of_row (by rw [encode, opcOf_packFields]; rfl) (reserved_N ..) rfl
  | stop => exact decode_of_row (by rw [encode, opcOf_packFields]; rfl) (reserved_N ..) rfl
  | resume => exact decode_of_row (by rw [encode, opcOf_packFields]; rfl) (reserved_N ..) rfl
  | read => exact decode_of_row (by rw [encode, opcOf_packFields]; rfl) (reserved_N ..) rfl

end Sys2Proof
end

section
/-! Proofs about one step, about issuing (10_state.md R41, R43) and about reset (10_state.md R46). -/

namespace Sys2Proof.Machine

/-- The issue of a word that decodes, where it is enabled, runs the command. -/
theorem takeMove_issue_eq_exec {w : CmdWord} {i : Instr} {s : State} (he : s.issueEnabled = true)
    (hd : decode w = .ok i) : takeMove (.issue w) s = exec i s := by
  simp only [takeMove, issueMove, he, if_true, hd]

/-- A delivery of the bytes of a word is the word's issue (20_memory.md R63). -/
theorem takeMove_deliver_eq_issue {bytes : List Byte} {w : CmdWord} (h : wordOfBytes bytes = some w) (s : State) :
    takeMove (.deliver bytes) s = takeMove (.issue w) s := by
  simp only [takeMove, deliverMove, h]

/-- The state that is made ready for an issue accepts one. -/
theorem readyForIssue_issueEnabled (s : State) : s.readyForIssue.issueEnabled = true := by
  unfold State.readyForIssue
  split
  · assumption
  · rfl

/-- The port carries a 64-bit word as it is (30_encoding.md R80). -/
theorem portWord_toNat (w : CmdWord) : portWord 64 w.toNat = w := by
  rw [portWord, Nat.mod_eq_of_lt w.isLt, BitVec.ofNat_toNat, BitVec.setWidth_eq]

/-- Settles O5: each clause by the move that the step takes. -/
theorem stepRunsTheDecodedInstruction : Obligations.StepRunsTheDecodedInstruction := by
  refine ⟨fun s w i rest hs he hd => ?_, fun s bytes w i rest hs hw he hd => ?_, fun s b rest hs hb => ?_,
    fun s hs => ?_, fun s i hwf => ?_⟩
  · rw [step_of_schedule hs]
    exact takeMove_issue_eq_exec he hd
  · rw [step_of_schedule hs, takeMove_deliver_eq_issue hw]
    exact takeMove_issue_eq_exec he hd
  · have hb' : ({ s with schedule := rest } : State).topBusy = some b := hb
    rw [step_of_schedule hs, takeMove, phaseMove, hb']
  · unfold step State.nextMove
    rw [hs]
  · rw [State.withFetchWord, portWord_toNat, step_of_schedule rfl]
    exact takeMove_issue_eq_exec (readyForIssue_issueEnabled s) (decode_encode hwf)

/-- Settles O8: where a context accepts a command, and what issuing does. -/
theorem issuedCommandWaitsAtItsFirstPhase : Obligations.IssuedCommandWaitsAtItsFirstPhase := by
  refine ⟨exec_issue, fun s hs => ?_, fun s c below hs => ?_, fun w s he => ?_,
    fun w => takeMove_deliver_eq_issue (wordOfBytes_bytesOfWord w), fun bytes s hlen => ?_⟩
  · simp [State.issueEnabled, ContextStack.accepts, hs]
  · simp [State.issueEnabled, ContextStack.accepts, hs, and_assoc, Option.isSome_iff_ne_none]
  · simp [takeMove, issueMove, he]
  · simp only [takeMove, deliverMove, wordOfBytes_eq_none hlen]

/-- After reset no command is in progress. -/
theorem busies_reset {p : Params} {b : Busy} : some b ∉ (State.resetWith p).stack.busies := by
  simp [State.resetWith, ContextStack.busies]

/-- The registers are legal at reset (10_state.md R46, 1 to 4). -/
theorem registerInv_reset (p : Params) : RegisterInv (State.resetWith p) where
  counter hd := by cases hd
  clock := ⟨Nat.zero_le 5, Nat.zero_le 5, fun h => absurd rfl h⟩
  channels ch := by cases ch <;> exact ⟨Nat.zero_le _, Nat.zero_le _⟩

/-- Settles O52: the registers hold their reset values, and no context has a command in progress. -/
theorem invariantsHoldAtReset : Obligations.InvariantsHoldAtReset := fun p =>
  { registers := registerInv_reset p
    handlers :=
      { slot := fun h => by cases h
        handlers := fun _ hc => by cases hc
        commands := fun _ hb => absurd hb busies_reset }
    contexts :=
      { legal := fun _ hc => by cases hc
        pointers := fun _ hb => absurd hb busies_reset }
    start :=
      { masked := fun _ hb => absurd (top_mem_busies hb) busies_reset
        onTop := fun _ hb => absurd (suspended_mem_busies hb) busies_reset }
    read :=
      { sampled := fun _ hb => absurd hb busies_reset
        changed := fun _ hb => absurd hb busies_reset
        stillZero := fun _ => rfl
        noPrescaler := fun _ _ hb => absurd hb busies_reset } }

end Sys2Proof.Machine
end

section
/-! Proofs about fair runs (10_state.md R44; log 19, log 25). -/

namespace Sys2Proof.Machine

/-- What holds until `A` comes, while `A` must come as long as it holds, holds when `A` comes. -/
theorem Run.holds_until (r : Run) {P : State → Prop} {A : Nat → Prop} {n : Nat} (h : P (r.state n))
    (keep : ∀ j, n ≤ j → P (r.state j) → ¬ A j → P (r.state (j + 1)))
    (comes : (∀ j, n ≤ j → P (r.state j)) → ∃ j, n ≤ j ∧ A j) : ∃ j, n ≤ j ∧ A j ∧ P (r.state j) := by
  by_contra hnever
  have always : ∀ j, n ≤ j → P (r.state j) := by
    intro j hj
    induction j, hj using Nat.le_induction with
    | base => exact h
    | succ j hj ih => exact keep j hj ih fun ha => hnever ⟨j, hj, ha, ih⟩
  obtain ⟨j, hj, ha⟩ := comes always
  exact hnever ⟨j, hj, ha, always j hj⟩

/-- In a run weakly fair to a move, what enables the move and is kept by every other move holds when it is taken. -/
theorem Run.taken_of_weaklyFair (r : Run) {P : State → Prop} {m : Move} {n : Nat} (hf : r.weaklyFair m)
    (h : P (r.state n)) (hen : ∀ s, P s → enabled m s = true)
    (keep : ∀ m' s t, P s → takeMove m' s = .next t → m' ≠ m → P t) :
    ∃ j, n ≤ j ∧ r.move j = m ∧ P (r.state j) :=
  r.holds_until h (fun j _ hp hm => keep _ _ _ hp (r.follows j) hm) fun always => hf n fun j hj => hen _ (always j hj)

/-- A phase of a command that does not block is not held (70_reset_and_hazards.md R258). -/
theorem phaseAt_ready {i : Instr} {k : Nat} {p : Phase} (h : PhaseAt i k p) (hi : isBlocking i = false) (l : Locals)
    (s : State) : p.ready l s = true := by
  cases h
  case st5 | rd1 | rd2 | rd3 => simp [isBlocking] at hi
  all_goals rfl

/-- The sequencer's step is enabled while a command that does not block is on top. -/
theorem phase_enabled {b : Busy} {s : State} (hi : isBlocking b.cmd = false) (hb : s.topBusy = some b) :
    enabled .phase s = true := by
  simp only [enabled, State.phaseEnabled, hb]
  cases hp : (phasesOf b.cmd)[b.k]? with
  | none => rfl
  | some p => exact phaseAt_ready (phaseAt_of_getElem? hp) hi b.locals s

/-- The context stack is `c`, and no interrupt comes: `GIE = 0`. -/
def MaskedWith (c : ContextStack) (s : State) : Prop := s.stack = c ∧ s.gie = false

/-- While the top context is busy with `GIE = 0`, no move but a phase touches the stack or `GIE`. -/
theorem MaskedWith.move {c : ContextStack} {b : Busy} {m : Move} {s t : State} (hb : c.topBusy = some b)
    (h : MaskedWith c s) (ht : takeMove m s = .next t) (hm : m ≠ .phase) : MaskedWith c t := by
  obtain ⟨hs, hg⟩ := id h
  have hne : s.topBusy ≠ none := by simp [State.topBusy, hs, hb]
  obtain ⟨hret, hiss, hset, hdone⟩ := not_enabled_of_busy hne
  rcases takeMove_cases ht with e | ⟨-, -, e⟩ | ⟨hm', -⟩ | ⟨-, -, hg', -⟩ | ⟨-, he, -⟩ | ⟨w, i, -, he, -⟩
      | ⟨v, -, he, -⟩ | ⟨-, he, -⟩
  · rwa [e]
  · rw [e, tick_frame]
    exact h
  · exact absurd hm' hm
  · simp [hg] at hg'
  · simp [hret] at he
  · simp [hiss] at he
  · simp [hset] at he
  · simp [hdone] at he

/-- The sequencer's step of a command that does not block goes on to the next phase or completes the command. -/
theorem runPhase_progress {b : Busy} {s : State} (hi : isBlocking b.cmd = false) :
    (b.k + 1 < (phasesOf b.cmd).length ∧ ∃ l, (s.runPhase b.cmd (phasesOf b.cmd) b).stack =
      s.stack.setTopBusy (some ⟨b.cmd, b.k + 1, l⟩)) ∨
    ((s.runPhase b.cmd (phasesOf b.cmd) b).topBusy = none ∧
      (s.runPhase b.cmd (phasesOf b.cmd) b).history.head? = some (.complete s.stack.topId b.cmd)) := by
  rcases runPhase_cases s b.cmd (phasesOf b.cmd) b with ⟨-, e⟩ | ⟨p, hp, hr, -⟩ | ⟨p, hp, -, hk, e⟩
      | ⟨p, hp, -, -, e⟩
  · rw [e]
    exact .inr ⟨State.topBusy_complete .., rfl⟩
  · rw [phaseAt_ready (phaseAt_of_getElem? hp) hi] at hr
    cases hr
  · rw [e, State.setTopBusy_stack, phaseAt_keeps_stack (phaseAt_of_getElem? hp)]
    exact .inl ⟨hk, _, rfl⟩
  · rw [e, State.topBusy_complete, State.complete_history, phaseAt_keeps_stack (phaseAt_of_getElem? hp)]
    exact .inr ⟨rfl, rfl⟩

/-- The sequencer's move runs the next phase of the command on top. -/
theorem takeMove_phase {b : Busy} {s : State} (hb : s.topBusy = some b) :
    takeMove .phase s = .next (s.runPhase b.cmd (phasesOf b.cmd) b) := by
  simp only [takeMove, phaseMove, hb]
  exact exec_phase b s hb

/-- In a run weakly fair to `PHASE` the next phase of a command that does not block runs, with the stack as it was. -/
theorem Run.phase_runs (r : Run) {n : Nat} {b : Busy} (hf : r.weaklyFair .phase)
    (hb : (r.state n).topBusy = some b) (hi : isBlocking b.cmd = false) (hg : (r.state n).gie = false) :
    ∃ j, n ≤ j ∧ r.move j = .phase ∧ MaskedWith (r.state n).stack (r.state j) ∧
      r.state (j + 1) = (r.state j).runPhase b.cmd (phasesOf b.cmd) b := by
  have top : ∀ s, MaskedWith (r.state n).stack s → s.topBusy = some b := fun s hs => by
    rw [State.topBusy, hs.1]; exact hb
  obtain ⟨j, hj, hm, hmask⟩ := r.taken_of_weaklyFair hf (P := MaskedWith (r.state n).stack) ⟨rfl, hg⟩
    (fun s hs => phase_enabled hi (top s hs)) (fun m s t hs ht hne => hs.move hb ht hne)
  have hfol := r.follows j
  rw [hm, takeMove_phase (top _ hmask)] at hfol
  exact ⟨j, hj, hm, hmask, (Host.Outcome.next.inj hfol).symm⟩

/-- Settles O58, by induction on the phases that are left: weak fairness brings the next one about. -/
theorem fairRunsCompleteTheCommandsThatDoNotBlock : Obligations.FairRunsCompleteTheCommandsThatDoNotBlock := by
  intro r n b hf hb hi hg
  induction hleft : (phasesOf b.cmd).length - b.k using Nat.strong_induction_on generalizing n b with
  | _ left ih =>
    obtain ⟨j, hj, hm, ⟨hstack, hgj⟩, hnext⟩ := r.phase_runs hf hb hi hg
    rcases runPhase_progress (s := r.state j) hi with ⟨hk, l, hs⟩ | ⟨hnone, hhead⟩
    · rw [← hnext, hstack] at hs
      have hb' : (r.state (j + 1)).topBusy = some ⟨b.cmd, b.k + 1, l⟩ := by
        rw [State.topBusy, hs, ContextStack.topBusy_setTopBusy]
      have hg' : (r.state (j + 1)).gie = false := by rw [hnext, (runPhase_keeps_gie _ b).1, hgj]
      have hless : (phasesOf b.cmd).length - (b.k + 1) < left := by omega
      obtain ⟨j', hj', hm', hnone, hhead⟩ := ih _ hless (j + 1) ⟨b.cmd, b.k + 1, l⟩ hb' hi hg' rfl
      exact ⟨j', by omega, hm', hnone, by rw [hhead, hs, ContextStack.topId_setTopBusy]⟩
    · exact ⟨j, hj, hm, by rw [hnext, hnone], by rw [hnext, hhead, hstack]⟩

/-- The top context is an interrupt context that saved `g`, whose callback is not done, above the contexts `below`, and
`GIE = 0`. -/
def OpenIsr (g : Bool) (below : List IsrContext) (s : State) : Prop :=
  s.gie = false ∧ ∃ c, s.stack.isrs = c :: below ∧ c.savedGie = g ∧ c.cbDone = false

/-- A write of the top context's `busy` leaves an open interrupt context open. -/
theorem OpenIsr.setTopBusy {g : Bool} {below : List IsrContext} {s : State} (h : OpenIsr g below s)
    (b : Option Busy) : OpenIsr g below (s.setTopBusy b) := by
  obtain ⟨hg, c, hs, hsaved, hdone⟩ := h
  exact ⟨hg, { c with busy := b }, by simp [ContextStack.setTopBusy, hs], hsaved, hdone⟩

/-- An open interrupt context stays open until its callback is ended, unless the environment sets `GIE`. -/
theorem OpenIsr.move {g : Bool} {below : List IsrContext} {m : Move} {s t : State} (h : OpenIsr g below s)
    (ht : takeMove m s = .next t) (hset : m ≠ .setGie true) (hdone : ¬(m = .cbDone ∧ s.cbDoneEnabled = true)) :
    OpenIsr g below t := by
  obtain ⟨hg, c, hs, hsaved, hopen⟩ := id h
  rcases takeMove_cases ht with e | ⟨-, -, e⟩ | ⟨-, b, -, e⟩ | ⟨-, -, hg', -⟩ | ⟨-, he, -⟩ | ⟨w, i, -, -, -, e⟩
      | ⟨v, hm, -, e⟩ | ⟨hm, he, -⟩
  · rwa [e]
  · rw [e, tick_frame]
    exact h
  · rw [e]
    refine runPhase_keeps (OpenIsr g below) h (fun u b' hu => hu.setTopBusy b') (fun _ _ hu => hu) fun p hp _ => ?_
    rw [OpenIsr, phaseAt_keeps_gie hp, phaseAt_keeps_stack hp]
    exact h
  · simp [hg] at hg'
  · simp [State.isrReturnEnabled, hs, IsrContext.mayReturn, hopen] at he
  · rw [e]
    exact OpenIsr.setTopBusy (s := s.emit (.issue s.stack.topId i)) h _
  · have hv : v = false := by
      cases v with
      | true => exact absurd hm hset
      | false => rfl
    rw [e, hv]
    exact ⟨rfl, c, hs, hsaved, hopen⟩
  · exact absurd ⟨hm, he⟩ hdone

/-- The top context is the interrupt context `c`, idle with its callback done, above the contexts `below`, and
`GIE = 0`. -/
def DoneIsr (c : IsrContext) (below : List IsrContext) (s : State) : Prop :=
  s.gie = false ∧ s.stack.isrs = c :: below ∧ c.busy = none ∧ c.cbDone = true

/-- An interrupt context that is done may return (60_exceptions.md R229). -/
theorem DoneIsr.isrReturn_enabled {c : IsrContext} {below : List IsrContext} {s : State} (h : DoneIsr c below s) :
    s.isrReturnEnabled = true := by
  obtain ⟨-, hs, hb, hd⟩ := h
  simp [State.isrReturnEnabled, hs, IsrContext.mayReturn, hb, hd]

/-- No move but the interrupt return touches an interrupt context that is done (60_exceptions.md R236). -/
theorem DoneIsr.move {c : IsrContext} {below : List IsrContext} {m : Move} {s t : State} (h : DoneIsr c below s)
    (ht : takeMove m s = .next t) (hm : m ≠ .isrReturn) : DoneIsr c below t := by
  obtain ⟨hg, hs, hb, hd⟩ := id h
  rcases takeMove_cases ht with e | ⟨-, -, e⟩ | ⟨-, b, hb', -⟩ | ⟨-, -, hg', -⟩ | ⟨hm', -⟩ | ⟨w, i, -, he, -⟩
      | ⟨v, -, he, -⟩ | ⟨-, he, -⟩
  · rwa [e]
  · rw [e, tick_frame]
    exact h
  · simp [State.topBusy, ContextStack.topBusy, hs, hb] at hb'
  · simp [hg] at hg'
  · exact absurd hm' hm
  · simp [State.issueEnabled, ContextStack.accepts, hs, hd] at he
  · simp [State.setGieEnabled, ContextStack.topOpen, hs, hd] at he
  · simp [State.cbDoneEnabled, hs, IsrContext.mayEndCallback, hd] at he

/-- In a run weakly fair to `ISR_RETURN` an interrupt context that is done returns. -/
theorem Run.returns_of_doneIsr (r : Run) {n : Nat} {c : IsrContext} {below : List IsrContext}
    (hf : r.weaklyFair .isrReturn) (h : DoneIsr c below (r.state n)) :
    ∃ j, n ≤ j ∧ r.move j = .isrReturn ∧ (r.state (j + 1)).stack.isrs = below ∧
      (r.state (j + 1)).gie = c.savedGie := by
  obtain ⟨j, hj, hm, hdone⟩ := r.taken_of_weaklyFair hf h (fun s hs => hs.isrReturn_enabled)
    (fun m s t hs ht hne => hs.move ht hne)
  have hfol := r.follows j
  simp only [hm, takeMove, hdone.isrReturn_enabled, if_true] at hfol
  obtain ⟨-, hs, -, -⟩ := hdone
  refine ⟨j, hj, hm, ?_⟩
  rw [← Host.Outcome.next.inj hfol]
  simp [State.isrReturn, hs]

/-- The end of an open context's callback leaves the context done. -/
theorem OpenIsr.endCallback {g : Bool} {below : List IsrContext} {s : State} (h : OpenIsr g below s)
    (he : s.cbDoneEnabled = true) : ∃ c, DoneIsr c below s.endCallback ∧ c.savedGie = g := by
  obtain ⟨hg, c, hs, hsaved, -⟩ := h
  have hbusy : c.busy = none := by
    simp only [State.cbDoneEnabled, hs, IsrContext.mayEndCallback, Bool.and_eq_true] at he
    exact Option.isNone_iff_eq_none.mp he.1
  refine ⟨{ c with cbDone := true }, ⟨?_, ?_, hbusy, rfl⟩, hsaved⟩
  · rw [endCallback_frame]; exact hg
  · simp [State.endCallback, hs]

/-- Where the environment does its duty and sets no `GIE`, the callback of an open interrupt context is ended with the
context still on top. -/
theorem Run.ends_openIsr (r : Run) {n : Nat} {g : Bool} {below : List IsrContext} (hduty : r.endsCallbacks)
    (h : OpenIsr g below (r.state n))
    (hset : ∀ j, n ≤ j → r.move j = .setGie true → (r.state j).stack.isrs.length ≤ below.length) :
    ∃ j, n ≤ j ∧ (r.move j = .cbDone ∧ (r.state j).cbDoneEnabled = true) ∧ OpenIsr g below (r.state j) := by
  refine r.holds_until h (fun j hj hopen hnot => ?_) fun always => ?_
  · refine hopen.move (r.follows j) (fun hm => ?_) hnot
    obtain ⟨-, c, hs, -⟩ := hopen
    have := hset j hj hm
    rw [hs, List.length_cons] at this
    omega
  · obtain ⟨-, c, hs, -, hopen⟩ := h
    obtain ⟨j, hj, hm, he, -⟩ := hduty n [] c below hs hopen
    exact ⟨j, hj, hm, he⟩

/-- Settles O59: a done context stays on top until it returns, and the duty makes an open one done. -/
theorem fairRunsReturnFromADoneCallback : Obligations.FairRunsReturnFromADoneCallback := by
  refine ⟨fun r n c below hf hs hb hd hg => r.returns_of_doneIsr hf ⟨hg, hs, hb, hd⟩,
    fun r n c below hf hduty hs hd hg hset => ?_⟩
  obtain ⟨j, hj, ⟨hm, he⟩, hopen⟩ := r.ends_openIsr hduty ⟨hg, c, hs, rfl, hd⟩ hset
  obtain ⟨c', hdone, hsaved⟩ := hopen.endCallback he
  have hfol := r.follows j
  simp only [hm, takeMove, he, if_true] at hfol
  rw [Host.Outcome.next.inj hfol] at hdone
  obtain ⟨j', hj', hm', hs', hg'⟩ := r.returns_of_doneIsr hf hdone
  exact ⟨j', by omega, hm', hs', hg'.trans hsaved⟩

end Sys2Proof.Machine
end

section
/-! Proofs about the decoder and the encoder (30_encoding.md R81 to R92, 95_test_vectors.md section 2). -/

namespace Sys2Proof

/-! ### The word of a command as eight bytes -/

/-- The bytes of a word that decodes give the word's command (20_memory.md R63). -/
theorem decodeBytes_bytesOfWord {w : CmdWord} {i : Instr} (h : decode w = .ok i) :
    decodeBytes (bytesOfWord w) = .ok i := by
  simp only [decodeBytes, wordOfBytes_bytesOfWord, h]

/-- Settles O1: the eight bytes of a word make the word, and its command is read back. -/
theorem decodeReadsBackEveryEncodedCommand : Obligations.DecodeReadsBackEveryEncodedCommand :=
  fun _ hwf => ⟨decode_encode hwf, decodeBytes_bytesOfWord (decode_encode hwf)⟩

/-! ### A word without reserved bits is packed from the fields of its format (30_encoding.md R82) -/

/-- Bits [54:50] of a word, which every format reserves (30_encoding.md R82). -/
def gapOf (w : CmdWord) : BitVec 5 := w.extractLsb' 50 5

/-- The fields of a word under a mask that leaves its opcode and takes its bits [54:50]. -/
theorem fields_of_and_eq_zero {w m : CmdWord} (h : w &&& m = 0) (p : BitVec 1) (ch : BitVec 2) (mid : BitVec 16)
    (us : BitVec 32) (hm : m = 0#8 ++ p ++ BitVec.allOnes 5 ++ ch ++ mid ++ us) :
    gapOf w = 0 ∧ periodFlagOf w &&& p = 0 ∧ chOf w &&& ch = 0 ∧ cbOf w &&& mid = 0 ∧ usOf w &&& us = 0 := by
  have hzero : (0 : CmdWord) = 0#8 ++ 0#1 ++ 0#5 ++ 0#2 ++ 0#16 ++ 0#32 := by decide
  rw [hm, word_and_fields, hzero] at h
  obtain ⟨h, hus⟩ := bitVec_append_inj h
  obtain ⟨h, hmid⟩ := bitVec_append_inj h
  obtain ⟨h, hch⟩ := bitVec_append_inj h
  obtain ⟨h, hgap⟩ := bitVec_append_inj h
  obtain ⟨-, hp⟩ := bitVec_append_inj h
  exact ⟨BitVec.and_allOnes.symm.trans hgap, hp, hch, hmid, hus⟩

/-- `DUTY` is the whole of the 16 bits it lies in, where the six above it are 0 (30_encoding.md R81). -/
theorem zeroExtend_dutyOf {w : CmdWord} (h : cbOf w &&& 0xFC00 = 0) : (dutyOf w).zeroExtend 16 = cbOf w := by
  have hcb : cbOf w = w.extractLsb' 42 6 ++ dutyOf w :=
    (BitVec.extractLsb'_append_extractLsb'_eq_extractLsb' (x := w) (len₁ := 10) (len₂ := 6) rfl).symm
  have hmask : (0xFC00 : BitVec 16) = BitVec.allOnes 6 ++ 0#10 := by decide
  have hzero : (0 : BitVec 16) = 0#6 ++ 0#10 := by decide
  rw [hcb, hmask, hzero, BitVec.and_append, BitVec.and_allOnes] at h
  rw [hcb, (bitVec_append_inj h).1]
  exact BitVec.setWidth_eq_append (by decide)

/-- The word packed from the fields that a word holds for a format, every other bit 0 (30_encoding.md R82). -/
def Format.repack (w : CmdWord) : Format → CmdWord
  | .N => packFields (opcOf w) 0 0 0 0
  | .T => packFields (opcOf w) 0 0 0 (usOf w)
  | .C => packFields (opcOf w) 0 (chOf w) 0 0
  | .CD => packFields (opcOf w) 0 (chOf w) ((dutyOf w).zeroExtend 16) 0
  | .D => packFields (opcOf w) 0 0 ((dutyOf w).zeroExtend 16) 0
  | .CDP => packFields (opcOf w) (periodFlagOf w) (chOf w) ((dutyOf w).zeroExtend 16) (usOf w)
  | .DP => packFields (opcOf w) (periodFlagOf w) 0 ((dutyOf w).zeroExtend 16) (usOf w)
  | .HP => packFields (opcOf w) (periodFlagOf w) 0 (cbOf w) (usOf w)

/-- A word with no reserved bit of a format set is packed from the format's fields. -/
theorem Format.repack_eq {w : CmdWord} {fmt : Format} (h : w &&& reservedMask fmt = 0) : fmt.repack w = w := by
  cases fmt with
  | N =>
    obtain ⟨hgap, hp, hch, hmid, hus⟩ :=
      fields_of_and_eq_zero h (BitVec.allOnes 1) (BitVec.allOnes 2) (BitVec.allOnes 16) (BitVec.allOnes 32) (by decide)
    rw [BitVec.and_allOnes] at hp hch hmid hus
    simpa only [repack, hp, hch, hmid, hus] using packFields_fields w hgap
  | T =>
    obtain ⟨hgap, hp, hch, hmid, -⟩ :=
      fields_of_and_eq_zero h (BitVec.allOnes 1) (BitVec.allOnes 2) (BitVec.allOnes 16) 0 (by decide)
    rw [BitVec.and_allOnes] at hp hch hmid
    simpa only [repack, hp, hch, hmid] using packFields_fields w hgap
  | C =>
    obtain ⟨hgap, hp, -, hmid, hus⟩ :=
      fields_of_and_eq_zero h (BitVec.allOnes 1) 0 (BitVec.allOnes 16) (BitVec.allOnes 32) (by decide)
    rw [BitVec.and_allOnes] at hp hmid hus
    simpa only [repack, hp, hmid, hus] using packFields_fields w hgap
  | CD =>
    obtain ⟨hgap, hp, -, hmid, hus⟩ :=
      fields_of_and_eq_zero h (BitVec.allOnes 1) 0 0xFC00 (BitVec.allOnes 32) (by decide)
    rw [BitVec.and_allOnes] at hp hus
    simpa only [repack, hp, hus, zeroExtend_dutyOf hmid] using packFields_fields w hgap
  | D =>
    obtain ⟨hgap, hp, hch, hmid, hus⟩ :=
      fields_of_and_eq_zero h (BitVec.allOnes 1) (BitVec.allOnes 2) 0xFC00 (BitVec.allOnes 32) (by decide)
    rw [BitVec.and_allOnes] at hp hch hus
    simpa only [repack, hp, hch, hus, zeroExtend_dutyOf hmid] using packFields_fields w hgap
  | CDP =>
    obtain ⟨hgap, -, -, hmid, -⟩ := fields_of_and_eq_zero h 0 0 0xFC00 0 (by decide)
    simpa only [repack, zeroExtend_dutyOf hmid] using packFields_fields w hgap
  | DP =>
    obtain ⟨hgap, -, hch, hmid, -⟩ := fields_of_and_eq_zero h 0 (BitVec.allOnes 2) 0xFC00 0 (by decide)
    rw [BitVec.and_allOnes] at hch
    simpa only [repack, hch, zeroExtend_dutyOf hmid] using packFields_fields w hgap
  | HP =>
    obtain ⟨hgap, -, hch, -, -⟩ := fields_of_and_eq_zero h 0 (BitVec.allOnes 2) 0 0 (by decide)
    rw [BitVec.and_allOnes] at hch
    simpa only [repack, hch] using packFields_fields w hgap

/-! ### The word of a decoded command (30_encoding.md R83, R92) -/

/-- The `US` bits of a packed word cleared. -/
theorem packFields_clear_us (opc : BitVec 8) (p : BitVec 1) (ch : BitVec 2) (mid : BitVec 16) (us : Micros) :
    packFields opc p ch mid us &&& 0xFFFFFFFF00000000 = packFields opc p ch mid 0 := by
  have hmask : (0xFFFFFFFF00000000 : CmdWord) = BitVec.allOnes 32 ++ 0#32 := by decide
  rw [hmask]
  exact BitVec.and_append.trans (by rw [BitVec.and_allOnes, BitVec.and_zero]; rfl)

/-- A word whose period operand is packed again: the same word for `P = 1`, its `US` bits cleared for `P = 0`. -/
theorem packFields_periodOperandOf {w v : CmdWord} {opc : BitVec 8} {ch : BitVec 2} {mid : BitVec 16}
    (hv : packFields opc (periodFlagOf w) ch mid (usOf w) = v) :
    packFields opc (flagOfPeriod (periodOperandOf w)) ch mid (usOfPeriod (periodOperandOf w)) = v ∨
      (periodFlagOf w = 0 ∧
        packFields opc (flagOfPeriod (periodOperandOf w)) ch mid (usOfPeriod (periodOperandOf w)) =
          v &&& 0xFFFFFFFF00000000) := by
  by_cases hp : periodFlagOf w = 1
  · rw [periodOperandOf, if_pos hp]
    exact .inl (by rw [← hv, hp]; rfl)
  · have hp0 : periodFlagOf w = 0 := by bv_omega
    rw [periodOperandOf, if_neg hp, ← hv, packFields_clear_us, hp0]
    exact .inr ⟨rfl, rfl⟩

/-- The word of a decoded command is the word it was decoded from, but for the `US` bits of a `P = 0` form. -/
theorem encode_of_decode {w : CmdWord} {i : Instr} (h : decode w = .ok i) :
    encode i = w ∨
      ((opcOf w = 0x05 ∨ opcOf w = 0x06 ∨ opcOf w = 0x08) ∧ periodFlagOf w = 0 ∧
        encode i = w &&& 0xFFFFFFFF00000000) := by
  obtain ⟨fmt, command, hrow, hmask, rfl⟩ := (decode_ok_iff w i).mp h
  have hw := Format.repack_eq hmask
  rcases opcodeRow_cases hrow with ⟨hopc, rfl, rfl⟩ | ⟨hopc, rfl, rfl⟩ | ⟨hopc, rfl, rfl⟩ | ⟨hopc, rfl, rfl⟩ |
    ⟨hopc, rfl, rfl⟩ | ⟨hopc, rfl, rfl⟩ | ⟨hopc, rfl, rfl⟩ | ⟨hopc, rfl, rfl⟩ | ⟨hopc, rfl, rfl⟩ | ⟨hopc, rfl, rfl⟩ |
    ⟨hopc, rfl, rfl⟩ | ⟨hopc, rfl, rfl⟩ | ⟨hopc, rfl, rfl⟩ <;>
    simp only [Format.repack, hopc] at hw <;>
    simp only [encode, code_chanSelOfCode, (callbackOfId_spec _).2]
  · exact .inl hw
  · exact .inl hw
  · exact .inl hw
  · exact .inl hw
  · exact (packFields_periodOperandOf hw).imp_right fun hus => ⟨.inl hopc, hus⟩
  · exact (packFields_periodOperandOf hw).imp_right fun hus => ⟨.inr (.inl hopc), hus⟩
  · exact .inl hw
  · exact (packFields_periodOperandOf hw).imp_right fun hus => ⟨.inr (.inr hopc), hus⟩
  · exact .inl hw
  · exact .inl hw
  · exact .inl hw
  · exact .inl hw
  · exact .inl hw

/-! ### The `US` bits of a `P = 0` form are ignored (30_encoding.md R82) -/

/-- Two words with one opcode decode alike, where the opcode's format reserves no bit in which they differ and its
command is the same for both. -/
theorem decode_congr {w w' : CmdWord} (hopc : opcOf w' = opcOf w)
    (hrow : ∀ fmt command, opcodeRow (opcOf w) = some (fmt, command) →
      w' &&& reservedMask fmt = w &&& reservedMask fmt ∧ command w' = command w) : decode w' = decode w := by
  unfold decode
  rw [hopc]
  cases h : opcodeRow (opcOf w) with
  | none => rfl
  | some row =>
    obtain ⟨hmask, hcmd⟩ := hrow row.1 row.2 h
    simp only [hmask, hcmd]

/-- A field above the `US` bits does not see them. -/
theorem extractLsb'_high (hi us us' : BitVec 32) {start : Nat} (len : Nat) (h : 32 ≤ start) :
    (hi ++ us : CmdWord).extractLsb' start len = (hi ++ us' : CmdWord).extractLsb' start len :=
  (BitVec.extractLsb'_append_eq_of_le h).trans (BitVec.extractLsb'_append_eq_of_le h).symm

/-- The formats with an optional period reserve no `US` bit. -/
theorem and_reservedMask_high {fmt : Format} (hfmt : fmt = .CDP ∨ fmt = .DP ∨ fmt = .HP) (hi us us' : BitVec 32) :
    (hi ++ us : CmdWord) &&& reservedMask fmt = (hi ++ us') &&& reservedMask fmt := by
  have hmask : reservedMask fmt = (reservedMask fmt).extractLsb' 32 32 ++ 0#32 := by
    rcases hfmt with rfl | rfl | rfl <;> decide
  rw [hmask]
  refine BitVec.and_append.trans (Eq.trans ?_ BitVec.and_append.symm)
  rw [BitVec.and_zero, BitVec.and_zero]

/-- Two words with an optional period and `P = 0` that differ in the `US` bits alone decode alike. -/
theorem decode_high {hi us us' : BitVec 32}
    (hopc : opcOf (hi ++ us') = 0x05 ∨ opcOf (hi ++ us') = 0x06 ∨ opcOf (hi ++ us') = 0x08)
    (hp : periodFlagOf (hi ++ us') = 0) : decode (hi ++ us) = decode (hi ++ us') := by
  have hch : chOf (hi ++ us) = chOf (hi ++ us') := extractLsb'_high hi us us' 2 (by decide)
  have hcb : cbOf (hi ++ us) = cbOf (hi ++ us') := extractLsb'_high hi us us' 16 (by decide)
  have hduty : dutyOf (hi ++ us) = dutyOf (hi ++ us') := extractLsb'_high hi us us' 10 (by decide)
  have hflag : periodFlagOf (hi ++ us) = periodFlagOf (hi ++ us') := extractLsb'_high hi us us' 1 (by decide)
  have hper : periodOperandOf (hi ++ us) = periodOperandOf (hi ++ us') := by
    simp [periodOperandOf, hflag, hp]
  refine decode_congr (extractLsb'_high hi us us' 8 (by decide)) fun fmt command hrow => ?_
  rcases hopc with hopc | hopc | hopc <;> rw [hopc] at hrow <;> cases hrow
  · exact ⟨and_reservedMask_high (.inl rfl) .., by simp only [hch, hduty, hper]⟩
  · exact ⟨and_reservedMask_high (.inr (.inl rfl)) .., by simp only [hduty, hper]⟩
  · exact ⟨and_reservedMask_high (.inr (.inr rfl)) .., by simp only [hcb, hper]⟩

/-- A word with other `US` bits is its upper half and these. -/
theorem replace_us (hi us us' : BitVec 32) :
    ((hi ++ us : CmdWord) &&& 0xFFFFFFFF00000000) ||| us'.zeroExtend 64 = hi ++ us' := by
  have hmask : (0xFFFFFFFF00000000 : CmdWord) = BitVec.allOnes 32 ++ 0#32 := by decide
  have hus : us'.zeroExtend 64 = 0#32 ++ us' := BitVec.setWidth_eq_append (by decide)
  have hparts : ((hi ++ us) &&& (BitVec.allOnes 32 ++ 0#32)) ||| (0#32 ++ us') = hi ++ us' := by
    rw [BitVec.and_append, BitVec.or_append, BitVec.and_allOnes, BitVec.and_zero, BitVec.or_zero, BitVec.zero_or]
  rw [hmask, hus]
  exact hparts

/-- Settles O2: a word without reserved bits is packed from its fields, and the `US` bits of a `P = 0` form are no
operand. -/
theorem encodeGivesBackEveryDecodedWord : Obligations.EncodeGivesBackEveryDecodedWord := by
  refine ⟨fun w i h => ⟨wellFormed_of_decode h, encode_of_decode h⟩, fun w us hopc hp => ?_⟩
  have hw : w.extractLsb' 32 32 ++ usOf w = w := BitVec.extractLsb'_append_extractLsb'
  rw [← hw] at hopc hp ⊢
  rw [replace_us]
  exact decode_high hopc hp

/-! ### The refused words (30_encoding.md R86) -/

/-- The opcodes of the commands of a format (30_encoding.md R89). -/
def Format.hasOpcode (n : Nat) : Format → Prop
  | .N => 9 ≤ n ∧ n ≤ 13
  | .T => n = 1 ∨ n = 2
  | .C => n = 7
  | .CD => n = 3
  | .D => n = 4
  | .CDP => n = 5
  | .DP => n = 6
  | .HP => n = 8

/-- The opcode map has a row for each opcode of a format (30_encoding.md R89). -/
theorem opcodeRow_of_hasOpcode {n : Nat} {fmt : Format} (h : fmt.hasOpcode n) :
    ∃ command, opcodeRow (BitVec.ofNat 8 n) = some (fmt, command) := by
  cases fmt with
  | N =>
    obtain ⟨hlo, hhi⟩ := h
    interval_cases n <;> exact ⟨_, rfl⟩
  | T => rcases h with rfl | rfl <;> exact ⟨_, rfl⟩
  | C | CD | D | CDP | DP | HP => cases h; exact ⟨_, rfl⟩

/-- The opcodes of a row's format hold the row's opcode (30_encoding.md R89). -/
theorem hasOpcode_of_opcodeRow {opc : BitVec 8} {fmt : Format} {command : CmdWord → Instr}
    (h : opcodeRow opc = some (fmt, command)) : fmt.hasOpcode opc.toNat := by
  rcases opcodeRow_cases h with ⟨rfl, rfl, -⟩ | ⟨rfl, rfl, -⟩ | ⟨rfl, rfl, -⟩ | ⟨rfl, rfl, -⟩ | ⟨rfl, rfl, -⟩ |
    ⟨rfl, rfl, -⟩ | ⟨rfl, rfl, -⟩ | ⟨rfl, rfl, -⟩ | ⟨rfl, rfl, -⟩ | ⟨rfl, rfl, -⟩ | ⟨rfl, rfl, -⟩ | ⟨rfl, rfl, -⟩ |
    ⟨rfl, rfl, -⟩ <;> simp [Format.hasOpcode]

/-- Which opcodes the map gives a format (30_encoding.md R89). -/
theorem opcodeRow_format_iff {opc : BitVec 8} {fmt : Format} :
    (∃ command, opcodeRow opc = some (fmt, command)) ↔ fmt.hasOpcode opc.toNat := by
  refine ⟨fun ⟨_, h⟩ => hasOpcode_of_opcodeRow h, fun h => ?_⟩
  have hrow := opcodeRow_of_hasOpcode h
  rwa [BitVec.ofNat_toNat, BitVec.setWidth_eq] at hrow

/-- A statement about some format, format by format. -/
theorem Format.exists_iff {P : Format → Prop} :
    (∃ fmt, P fmt) ↔ P .T ∨ P .CD ∨ P .D ∨ P .CDP ∨ P .DP ∨ P .C ∨ P .HP ∨ P .N := by
  constructor
  · rintro ⟨fmt, h⟩
    cases fmt <;> simp [h]
  · rintro (h | h | h | h | h | h | h | h) <;> exact ⟨_, h⟩

/-- The reserved opcodes are 0 and those from 0x0E on (30_encoding.md R86). -/
theorem opcodeRow_eq_none_iff {opc : BitVec 8} : opcodeRow opc = none ↔ opc.toNat = 0 ∨ 0x0E ≤ opc.toNat := by
  have hassigned : (∃ fmt command, opcodeRow opc = some (fmt, command)) ↔ 1 ≤ opc.toNat ∧ opc.toNat ≤ 0x0D := by
    simp only [opcodeRow_format_iff, Format.exists_iff, Format.hasOpcode]
    omega
  have hnone : opcodeRow opc = none ↔ ¬ ∃ fmt command, opcodeRow opc = some (fmt, command) := by
    rw [Option.eq_none_iff_forall_ne_some, ← Prod.exists', not_exists]
  rw [hnone, hassigned]
  omega

/-- Issuing a word that the decoder refuses is refused by that name (30_encoding.md R86, 60_exceptions.md R221). -/
theorem takeMove_issue_refused {w : CmdWord} {e : DecodeError} {s : Machine.State} (hs : s.issueEnabled = true)
    (h : decode w = .error e) : Machine.takeMove (.issue w) s = .refused (Machine.refusalOf e) := by
  simp only [Machine.takeMove, Machine.issueMove, hs, if_true, h]

/-- Settles O3: the opcode map has no row for a reserved opcode, and each format reserves its mask. -/
theorem decoderRefusesExactlyTheReservedWords : Obligations.DecoderRefusesExactlyTheReservedWords := by
  refine fun w => ⟨(decode_reservedOpcode_iff w).trans opcodeRow_eq_none_iff, ?_, fun s hs =>
    ⟨takeMove_issue_refused hs, takeMove_issue_refused hs⟩⟩
  rw [decode_reservedBits_iff]
  simp only [exists_and_right, opcodeRow_format_iff, Format.exists_iff, Format.hasOpcode, reservedMask, and_assoc]

/-- Settles O4, by decoding each word. -/
theorem wordsOfTheSpecDecodeToTheirCommands : Obligations.WordsOfTheSpecDecodeToTheirCommands := by
  unfold Obligations.WordsOfTheSpecDecodeToTheirCommands
  decide

end Sys2Proof
end

section
/-! SUPPORT. The period calculator, by the recursion on its list of prescalers (40_period.md R110 to R112). -/

namespace Sys2Proof.Machine

/-- From prescalers in growing order the selection is the smallest one whose tick count is under `RESOLUTION`, and the
saturated pair where there is none (40_period.md R112). -/
theorem selectPrescaler_cases (cycles : Nat) {ps : List (PsCode × Nat)} (hps : ps.Pairwise fun q r => q.2 < r.2) :
    (selectPrescaler cycles ps = (65535, 5) ∧ ∀ q ∈ ps, ¬ cycles / q.2 < 65536) ∨
    ∃ q ∈ ps, selectPrescaler cycles ps = (cycles / q.2, q.1) ∧ cycles / q.2 < 65536 ∧
      ∀ r ∈ ps, r.2 < q.2 → ¬ cycles / r.2 < 65536 := by
  induction ps with
  | nil => exact .inl ⟨rfl, fun _ hq => by cases hq⟩
  | cons head rest ih =>
    obtain ⟨hhead, hrest⟩ := List.pairwise_cons.mp hps
    by_cases hfit : cycles / head.2 < 65536
    · refine .inr ⟨head, List.mem_cons_self, if_pos hfit, hfit, fun r hr hlt => ?_⟩
      rcases List.mem_cons.mp hr with rfl | hr
      · exact absurd hlt (lt_irrefl _)
      · exact absurd hlt (hhead r hr).asymm
    · have hskip : selectPrescaler cycles (head :: rest) = selectPrescaler cycles rest := if_neg hfit
      rw [hskip]
      rcases ih hrest with ⟨hsat, hnone⟩ | ⟨q, hq, hsel, hq', hmin⟩
      · exact .inl ⟨hsat, List.forall_mem_cons.mpr ⟨hfit, hnone⟩⟩
      · exact .inr ⟨q, List.mem_cons_of_mem _ hq, hsel, hq',
          List.forall_mem_cons.mpr ⟨fun _ => hfit, hmin⟩⟩

/-- `PRESCALERS` is in growing order. -/
theorem prescalers_sorted : prescalers.Pairwise fun q r => q.2 < r.2 := by decide

/-- The codes of `PRESCALERS` grow with the prescalers (10_state.md R27). -/
theorem prescalers_codes_sorted : prescalers.Pairwise fun q r => q.1.toNat < r.1.toNat := by decide

/-- The bounds of a prescaler and of its code. -/
theorem bounds_of_mem_prescalers : ∀ q ∈ prescalers, 0 < q.2 ∧ q.2 ≤ 1024 ∧ q.1.toNat ≤ 5 := by decide

/-- `ratio` of a prescaler's code is the prescaler (10_state.md R27). -/
theorem ratio_of_mem_prescalers : ∀ q ∈ prescalers, ratio q.1 = q.2 := by simp [prescalers, ratio]

/-- From `65536 * 1024` cycles on the period saturates (40_period.md R112). -/
theorem periodCalc_of_saturated {clockHz us : Nat} (h : 67108864 ≤ rawCycles clockHz us) :
    periodCalc clockHz us = (65535, 5) := by
  rcases selectPrescaler_cases (rawCycles clockHz us) prescalers_sorted with ⟨hsat, -⟩ | ⟨q, hq, -, hfit, -⟩
  · exact hsat
  · obtain ⟨hpos, hle, -⟩ := bounds_of_mem_prescalers q hq
    have := (Nat.div_lt_iff_lt_mul hpos).mp hfit
    omega

/-- Below `65536 * 1024` cycles the period is that of the smallest prescaler whose tick count is under `RESOLUTION`
(40_period.md R112). -/
theorem periodCalc_of_not_saturated {clockHz us : Nat} (h : rawCycles clockHz us < 67108864) :
    ∃ q ∈ prescalers, periodCalc clockHz us = (rawCycles clockHz us / q.2, q.1) ∧
      rawCycles clockHz us / q.2 < 65536 ∧
      ∀ r ∈ prescalers, r.2 < q.2 → ¬ rawCycles clockHz us / r.2 < 65536 := by
  rcases selectPrescaler_cases (rawCycles clockHz us) prescalers_sorted with ⟨-, hnone⟩ | hsel
  · have hlast : ¬ rawCycles clockHz us / 1024 < 65536 := hnone (5, 1024) (by decide)
    exact absurd ((Nat.div_lt_iff_lt_mul (by decide)).mpr h) hlast
  · exact hsel

/-! ### The order of the requests (40_period.md R117) -/

/-- The period `x` is at most the period `y`: first by the prescaler code, then by the top value. -/
def PeriodLe (x y : Nat × PsCode) : Prop := x.2.toNat ≤ y.2.toNat ∧ (x.2 = y.2 → x.1 ≤ y.1)

/-- A period whose code is below those of the prescalers still to try is at most the one selected from them. -/
theorem periodLe_selectPrescaler {x : Nat × PsCode} {ps : List (PsCode × Nat)} (cycles : Nat)
    (hps : ps.Pairwise fun q r => q.2 < r.2) (hlt : ∀ q ∈ ps, x.2.toNat < q.1.toNat) (htop : x.1 < 65536)
    (hcode : x.2.toNat ≤ 5) : PeriodLe x (selectPrescaler cycles ps) := by
  rcases selectPrescaler_cases cycles hps with ⟨hsat, -⟩ | ⟨q, hq, hsel, -, -⟩
  · rw [hsat]
    exact ⟨hcode, fun _ => Nat.le_of_lt_succ htop⟩
  · rw [hsel]
    exact ⟨(hlt q hq).le, fun heq => absurd (congrArg BitVec.toNat heq) (hlt q hq).ne⟩

/-- More cycles select no smaller period. -/
theorem selectPrescaler_mono {cycles cycles' : Nat} (hle : cycles ≤ cycles') {ps : List (PsCode × Nat)}
    (hps : ps.Pairwise fun q r => q.2 < r.2) (hcodes : ps.Pairwise fun q r => q.1.toNat < r.1.toNat)
    (hbound : ∀ q ∈ ps, q.1.toNat ≤ 5) :
    PeriodLe (selectPrescaler cycles ps) (selectPrescaler cycles' ps) := by
  induction ps with
  | nil => exact ⟨le_rfl, fun _ => le_rfl⟩
  | cons head rest ih =>
    obtain ⟨-, hrest⟩ := List.pairwise_cons.mp hps
    obtain ⟨hcode, hcodes'⟩ := List.pairwise_cons.mp hcodes
    obtain ⟨hhead, hbound'⟩ := List.forall_mem_cons.mp hbound
    have hdiv : cycles / head.2 ≤ cycles' / head.2 := Nat.div_le_div_right hle
    simp only [selectPrescaler]
    split
    next hfit =>
      split
      · exact ⟨le_rfl, fun _ => hdiv⟩
      · exact periodLe_selectPrescaler cycles' hrest hcode hfit hhead
    next hnot =>
      rw [if_neg fun hfit' => hnot (hdiv.trans_lt hfit')]
      exact ih hrest hcodes' hbound'

/-- A larger request gives no smaller period (40_period.md R117). -/
theorem periodCalc_mono (clockHz : Nat) {us us' : Nat} (h : us ≤ us') :
    PeriodLe (periodCalc clockHz us) (periodCalc clockHz us') :=
  selectPrescaler_mono (Nat.mul_le_mul_left _ h) prescalers_sorted prescalers_codes_sorted
    fun q hq => (bounds_of_mem_prescalers q hq).2.2

/-- `us_max`: the requests that stay under `n ≥ 1` cycles at `k ≥ 1` cycles a microsecond (40_period.md R117). -/
theorem mul_lt_iff_le_ceilDiv_sub_one {k n us : Nat} (hk : 0 < k) (hn : 0 < n) :
    k * us < n ↔ us ≤ (n + k - 1) / k - 1 := by
  have hceil : ∀ c, (n + k - 1) / k ≤ c ↔ n ≤ k * c := fun c => ceilDiv_le_iff_le_mul (b := n) hk
  have hus := hceil us
  have hpos := hceil 0
  omega

end Sys2Proof.Machine
end

section
/-! SUPPORT. The step of a command in progress whose next phase is plain (10_state.md R41). -/

namespace Sys2Proof.Machine

/-- The step of a command in progress whose next phase is plain and not its last. -/
theorem exec_plain_mid {s : State} {i : Instr} {k : Nat} {l : Locals} (f : State → State)
    (hb : s.topBusy = some ⟨i, k, l⟩) (hp : (phasesOf i)[k]? = some (.plain f))
    (hk : k + 1 < (phasesOf i).length) : exec i s = .next ((f s).setTopBusy (some ⟨i, k + 1, l⟩)) := by
  rw [exec_phase _ s hb, runPhase_plain_mid hp hk]

/-- The step of a command in progress whose next phase is plain and its last. -/
theorem exec_plain_last {s : State} {i : Instr} {k : Nat} {l : Locals} (f : State → State)
    (hb : s.topBusy = some ⟨i, k, l⟩) (hp : (phasesOf i)[k]? = some (.plain f))
    (hk : (phasesOf i).length ≤ k + 1) : exec i s = .next ((f s).complete i) := by
  rw [exec_phase _ s hb, runPhase_plain_last hp hk]

end Sys2Proof.Machine
end

section
/-! Proofs about the period family (40_period.md R110 to R118). -/

namespace Sys2Proof.Machine

/-- Settles O9, by the selection from the growing list of prescalers. -/
theorem periodCalcSelectsTheSmallestPrescaler : Obligations.PeriodCalcSelectsTheSmallestPrescaler := by
  refine fun clockHz us => ⟨periodCalc_of_saturated, fun h => ?_, fun p hp => ?_⟩
  · obtain ⟨⟨k, p⟩, hmem, hcalc, hfit, hmin⟩ := periodCalc_of_not_saturated h
    exact ⟨k, p, hmem, hcalc, hfit, fun k' p' hmem' => hmin (k', p') hmem'⟩
  · have hpos : ∀ p ∈ [1, 8, 64, 256, 1024], 0 < p := by decide
    exact Nat.div_lt_iff_lt_mul (hpos p hp)

/-- Settles O10: the selection is monotone, and `us_max` is where the cycles reach `65536 * 1024`. -/
theorem prescalerGrowsWithTheRequestUpToSaturation : Obligations.PrescalerGrowsWithTheRequestUpToSaturation := by
  refine ⟨fun clockHz us us' => periodCalc_mono clockHz, fun clockHz us hk => ?_, fun clockHz us hk => ?_⟩
  · have husMax : rawCycles clockHz us < 67108864 ↔
        us ≤ (67108864 + clockHz / 2000000 - 1) / (clockHz / 2000000) - 1 :=
      mul_lt_iff_le_ceilDiv_sub_one hk (by decide)
    exact ⟨husMax, fun h => periodCalc_of_saturated (Nat.le_of_not_lt fun hlt => (husMax.mp hlt).not_gt h)⟩
  · have hzero : rawCycles clockHz us = 0 := by rw [rawCycles, hk, Nat.zero_mul]
    rw [periodCalc, hzero]
    rfl

/-- Settles O11: division with remainder of the cycles by the selected prescaler. -/
theorem realizedPeriodFallsShortByTheRemainder : Obligations.RealizedPeriodFallsShortByTheRemainder := by
  intro clockHz us hclock hlt
  obtain ⟨q, hmem, hcalc, -, -⟩ := periodCalc_of_not_saturated hlt
  obtain ⟨hpos, -, -⟩ := bounds_of_mem_prescalers q hmem
  obtain ⟨k, rfl⟩ := Nat.dvd_of_mod_eq_zero hclock
  rw [hcalc, realizedClocks, ratio_of_mem_prescalers q hmem]
  refine ⟨?_, ?_, ?_⟩
  · rw [rawCycles, Nat.mul_div_cancel_left k (by decide)]
    ring
  · calc 2 * rawCycles (2000000 * k) us
        = 2 * (q.2 * (rawCycles (2000000 * k) us / q.2) + rawCycles (2000000 * k) us % q.2) := by
          rw [Nat.div_add_mod]
      _ = _ := by ring
  · exact Nat.mul_le_mul_left 2 (Nat.le_sub_one_of_lt (Nat.mod_lt _ hpos))

/-- Settles O13: the issue and then the phases, one after the other. -/
theorem periodCommandsEndWithTheNewPeriodRunning : Obligations.PeriodCommandsEndWithTheNewPeriodRunning := by
  intro us s h
  have hidle := setTopBusy_none_of_issueEnabled h
  refine ⟨?_, ?_, periodCalc_code _ _⟩
  · rw [execChain_issue h, execChain_plain (phaseSP1 us) (State.topBusy_issue s (.setPeriod us)) rfl (Nat.le_refl 2),
      execChain_last phaseSP2 (State.topBusy_setTopBusy ..) rfl (Nat.le_refl 2)]
    simp [execChain, phaseSP1, phaseSP2, State.complete, State.issue, State.setTopBusy, State.emit, hidle]
  · rw [execChain_issue h, execChain_plain phaseIN1 (State.topBusy_issue s (.init us)) rfl (Nat.le_succ 2),
      execChain_plain (phaseSP1 us) (State.topBusy_setTopBusy ..) rfl (Nat.le_refl 3),
      execChain_last phaseSP2 (State.topBusy_setTopBusy ..) rfl (Nat.le_refl 3)]
    simp [execChain, phaseIN1, phaseSP1, phaseSP2, State.complete, State.issue, State.setTopBusy, State.emit,
      PerChannel.fill, hidle]

/-- Settles O12: each phase by its index among the command's phases. -/
theorem periodPhasesWriteTopPrescalerAndClock : Obligations.PeriodPhasesWriteTopPrescalerAndClock := fun us _ _ =>
  ⟨fun h => exec_plain_mid (phaseSP1 us) h rfl (Nat.le_refl 2),
   fun h => exec_plain_last phaseSP2 h rfl (Nat.le_refl 2),
   fun h => exec_plain_mid phaseIN1 h rfl (Nat.le_succ 2),
   fun h => exec_plain_mid (phaseSP1 us) h rfl (Nat.le_refl 3),
   fun h => exec_plain_last phaseSP2 h rfl (Nat.le_refl 3),
   periodCalc_lt _ _⟩

end Sys2Proof.Machine
end

section
/-! SUPPORT. A command whose phases are plain, from any of its phases to its completion and from its issue to its
completion, with no other move between (10_state.md R40, R41). -/

namespace Sys2Proof.Machine

/-- An effect that neither reads nor writes the context stack and the history. -/
def ControlFree (f : State → State) : Prop :=
  ∀ (s : State) (k : ContextStack) (h : List Event),
    f { s with stack := k, history := h } = { f s with stack := k, history := h }

/-- What such an effect leaves as it is. -/
theorem ControlFree.frame {f : State → State} (hf : ControlFree f) (s : State) :
    f s = { f s with stack := s.stack, history := s.history } := hf s s.stack s.history

/-- Such an effect keeps the stack. -/
theorem ControlFree.stack_eq {f : State → State} (hf : ControlFree f) (s : State) : (f s).stack = s.stack := by
  rw [hf.frame]

/-- Such an effect keeps the history. -/
theorem ControlFree.history_eq {f : State → State} (hf : ControlFree f) (s : State) :
    (f s).history = s.history := by
  rw [hf.frame]

/-- Such an effect may come before or after a write of the top context's `busy`. -/
theorem ControlFree.setTopBusy {f : State → State} (hf : ControlFree f) (s : State) (b : Option Busy) :
    f (s.setTopBusy b) = (f s).setTopBusy b := by
  rw [State.setTopBusy, State.setTopBusy, hf.stack_eq]
  exact (hf s (s.stack.setTopBusy b) s.history).trans (by rw [← hf.history_eq])

/-- The end of a command does not see what the top context's `busy` was. -/
theorem complete_setTopBusy (s : State) (b : Option Busy) (i : Instr) :
    (s.setTopBusy b).complete i = s.complete i := by
  simp [State.complete, State.setTopBusy, State.emit]

/-- Effects one after the other. -/
def effects (fs : List (State → State)) (s : State) : State := fs.foldl (fun t f => f t) s

/-- Effects that leave the stack and the history alone do so together. -/
theorem controlFree_effects {fs : List (State → State)} (h : ∀ f ∈ fs, ControlFree f) :
    ControlFree (effects fs) := by
  induction fs with
  | nil => exact fun _ _ _ => rfl
  | cons f rest ih =>
    obtain ⟨hf, hrest⟩ := List.forall_mem_cons.mp h
    intro s k hist
    calc effects rest (f { s with stack := k, history := hist })
        = effects rest { f s with stack := k, history := hist } := by rw [hf s k hist]
      _ = { effects rest (f s) with stack := k, history := hist } := ih hrest (f s) k hist

/-- Effects in two parts. -/
theorem effects_append (fs gs : List (State → State)) (s : State) :
    effects (fs ++ gs) s = effects gs (effects fs s) := List.foldl_append

/-- Every phase of a command that does not block has such an effect. -/
theorem controlFree_of_phaseAt {i : Instr} {k : Nat} {p : Phase} (h : PhaseAt i k p) (hi : isBlocking i = false)
    (l : Locals) : ControlFree fun s => (p.run l s).2 := by
  cases h
  case st1 | st2 | st3 | st4 | st5 | rd1 | rd2 | rd3 => exact absurd hi (by decide)
  all_goals exact fun _ _ _ => rfl

/-- The effects of a command with plain phases that does not block are such effects. -/
theorem controlFree_of_mem_phases {i : Instr} {fs : List (State → State)} {f : State → State}
    (hp : phasesOf i = fs.map Phase.plain) (hi : isBlocking i = false) (hf : f ∈ fs) : ControlFree f := by
  obtain ⟨k, hk⟩ := List.mem_iff_getElem?.mp hf
  have hphase : (phasesOf i)[k]? = some (.plain f) := by rw [hp, List.getElem?_map, hk]; rfl
  exact controlFree_of_phaseAt (phaseAt_of_getElem? hphase) hi Locals.empty

/-- The phases from the index `k` on, run in a row, have their effects one after the other and complete the command. -/
theorem execChain_remaining {i : Instr} {k : Nat} {l : Locals} {fs : List (State → State)} {s : State}
    (hp : (phasesOf i).drop k = fs.map Phase.plain) (hne : fs ≠ []) (hfree : ∀ f ∈ fs, ControlFree f)
    (hb : s.topBusy = some ⟨i, k, l⟩) : execChain fs.length i s = .next ((effects fs s).complete i) := by
  induction fs generalizing k s with
  | nil => exact absurd rfl hne
  | cons f rest ih =>
    obtain ⟨-, hrest⟩ := List.forall_mem_cons.mp hfree
    have hk : (phasesOf i)[k]? = some (.plain f) := by rw [← List.head?_drop, hp]; rfl
    have hlen : (phasesOf i).length - k = rest.length + 1 := by simpa using congrArg List.length hp
    have hdrop : (phasesOf i).drop (k + 1) = rest.map Phase.plain := by rw [← List.tail_drop, hp]; rfl
    by_cases hnil : rest = []
    · subst hnil
      exact execChain_last f hb hk (by simp at hlen; omega)
    · have hpos := List.length_pos_iff.mpr hnil
      rw [List.length_cons, execChain_plain f hb hk (by omega),
        ih hdrop hnil hrest (State.topBusy_setTopBusy ..), (controlFree_effects hrest).setTopBusy,
        complete_setTopBusy]
      rfl

/-- Issued into a context that accepts it and run with no other move between, a command with plain phases that does
not block has their effects one after the other and writes its two entries into the history. -/
theorem execChain_plain_phases {i : Instr} {fs : List (State → State)} {s : State}
    (hp : phasesOf i = fs.map Phase.plain) (hne : fs ≠ []) (hi : isBlocking i = false)
    (h : s.issueEnabled = true) :
    execChain (fs.length + 1) i s = .next { effects fs s with
      history := .complete s.stack.topId i :: .issue s.stack.topId i :: s.history } := by
  have hfree := fun f => controlFree_of_mem_phases (f := f) hp hi
  have hall := controlFree_effects hfree
  rw [execChain_issue h, execChain_remaining (k := 0) hp hne hfree (State.topBusy_issue ..), State.issue,
    hall.setTopBusy, complete_setTopBusy]
  have hemit : effects fs (s.emit (.issue s.stack.topId i)) =
      { effects fs s with stack := s.stack, history := .issue s.stack.topId i :: s.history } := hall ..
  rw [hemit]
  simp [State.complete, State.setTopBusy, State.emit, setTopBusy_none_of_issueEnabled h, hall.stack_eq]

/-- The phase of a command at an index counted from the end of its first phases. -/
theorem getElem?_phases_after {i : Instr} {pre fs : List (State → State)} {f : State → State} {j : Nat}
    (hp : phasesOf i = (pre ++ fs).map Phase.plain) (hj : fs[j]? = some f) :
    (phasesOf i)[pre.length + j]? = some (.plain f) := by
  rw [hp, List.getElem?_map, List.getElem?_append_right (Nat.le_add_right ..), Nat.add_sub_cancel_left, hj]
  rfl

/-- The step of a command in progress at a phase that is not its last, the index counted as above. -/
theorem exec_mid_after {i : Instr} {pre fs : List (State → State)} {f : State → State} {j : Nat} {l : Locals}
    {s : State} (hp : phasesOf i = (pre ++ fs).map Phase.plain) (hj : fs[j]? = some f) (hmid : j + 1 < fs.length)
    (hb : s.topBusy = some ⟨i, pre.length + j, l⟩) :
    exec i s = .next ((f s).setTopBusy (some ⟨i, pre.length + j + 1, l⟩)) :=
  exec_plain_mid f hb (getElem?_phases_after hp hj)
    (by rw [hp, List.length_map, List.length_append, Nat.add_assoc]; exact Nat.add_lt_add_left hmid _)

/-- The step of a command in progress at its last phase, the index counted as above. -/
theorem exec_last_after {i : Instr} {pre fs : List (State → State)} {f : State → State} {j : Nat} {l : Locals}
    {s : State} (hp : phasesOf i = (pre ++ fs).map Phase.plain) (hj : fs[j]? = some f) (hlast : fs.length ≤ j + 1)
    (hb : s.topBusy = some ⟨i, pre.length + j, l⟩) : exec i s = .next ((f s).complete i) :=
  exec_plain_last f hb (getElem?_phases_after hp hj)
    (by rw [hp, List.length_map, List.length_append, Nat.add_assoc]; exact Nat.add_le_add_left hlast _)

/-- A command in progress with no phases completes in one step and writes nothing else (41_duty_pwm.md R136). -/
theorem exec_of_no_phases {i : Instr} {k : Nat} {l : Locals} {s : State} (hp : phasesOf i = [])
    (hb : s.topBusy = some ⟨i, k, l⟩) : exec i s = .next (s.complete i) := by
  rw [exec_phase _ s hb, hp]
  rfl

end Sys2Proof.Machine
end

section
/-! SUPPORT. The phases of the duty and PWM family, and the compare value (41_duty_pwm.md R130 to R136). -/

namespace Sys2Proof

/-- A second write of the same channel's entry is the one that stays. -/
@[simp] theorem PerChannel.set_set {α} (f : PerChannel α) (c : Channel) (a b : α) :
    (f.set c a).set c b = f.set c b := by
  cases c <;> rfl

namespace Machine

/-- The compare value grows with the duty (41_duty_pwm.md R130). -/
theorem dutyCompare_mono (top : Nat) {duty duty' : Nat} (h : duty ≤ duty') :
    dutyCompare top duty ≤ dutyCompare top duty' :=
  Nat.div_le_div_right (Nat.mul_le_mul_left top h)

/-- The effects of `PWM`'s phases after those of its period (41_duty_pwm.md R133). -/
def pwmEffects (ch : Channel) (d : DutyFraction) : List (State → State) :=
  [phaseEnable ch, phaseSD1 ch d, phaseEnable ch, phaseReconnect]

/-- The effects of `PWM_ALL`'s phases after those of its period (41_duty_pwm.md R134). -/
def pwmAllEffects (d : DutyFraction) : List (State → State) :=
  [phaseEnableAll, phaseSA1 d, phaseEnableAll, phaseReconnect]

/-- The effects of the phases of an optional period operand (40_period.md R113, 30_encoding.md R83). -/
def periodEffects : Option Micros → List (State → State)
  | none => []
  | some us => [phaseSP1 us, phaseSP2]

/-- The phases of `PWM` are the period's, then its own. -/
theorem phasesOf_pwm (ch : Channel) (d : DutyFraction) (period : Option Micros) :
    phasesOf (.pwm (.channel ch) d period) = (periodEffects period ++ pwmEffects ch d).map Phase.plain := by
  cases period <;> rfl

/-- The phases of `PWM_ALL` are the period's, then its own. -/
theorem phasesOf_pwmAll (d : DutyFraction) (period : Option Micros) :
    phasesOf (.pwmAll d period) = (periodEffects period ++ pwmAllEffects d).map Phase.plain := by
  cases period <;> rfl

/-- The number of a period operand's phases. -/
theorem length_periodEffects (period : Option Micros) :
    (periodEffects period).length = if period = none then 0 else 2 := by
  cases period <;> rfl

/-- All that `PWM` writes after its period (41_duty_pwm.md R133). -/
theorem effects_pwm (ch : Channel) (d : DutyFraction) (s : State) :
    effects (pwmEffects ch d) s = { s with
      csActive := s.psSel
      ocr := s.ocr.set ch (s.compareOf d)
      duty := s.duty.set ch d
      pinDir := s.pinDir.set ch true
      comEn := s.comEn.set ch true } := by
  simp [effects, pwmEffects, phaseEnable, phaseSD1, phaseReconnect, State.compareOf]

/-- All that `PWM_ALL` writes after its period (41_duty_pwm.md R134). -/
theorem effects_pwmAll (d : DutyFraction) (s : State) :
    effects (pwmAllEffects d) s = { s with
      csActive := s.psSel
      ocr := PerChannel.fill (s.compareOf d)
      duty := PerChannel.fill d
      pinDir := PerChannel.fill true
      comEn := PerChannel.fill true } := rfl

/-- The compare value after the period's phases is taken under the new top value (41_duty_pwm.md R130, R133). -/
theorem compareOf_effects_period (us : Micros) (d : DutyFraction) (s : State) :
    (effects (periodEffects (some us)) s).compareOf d =
      BitVec.ofNat 16 ((periodCalc s.params.clockHz us.toNat).1 * d.toNat / 1024) := by
  have htop : (effects (periodEffects (some us)) s).top.toNat = (periodCalc s.params.clockHz us.toNat).1 :=
    Nat.mod_eq_of_lt (periodCalc_lt ..)
  rw [State.compareOf, htop]
  rfl

/-- `PWM` on a channel from its issue to its completion (41_duty_pwm.md R133). -/
theorem execChain_pwm (ch : Channel) (d : DutyFraction) (period : Option Micros) {s : State}
    (h : s.issueEnabled = true) :
    execChain ((periodEffects period ++ pwmEffects ch d).length + 1) (.pwm (.channel ch) d period) s =
      .next { effects (periodEffects period) s with
        csActive := (effects (periodEffects period) s).psSel
        ocr := (effects (periodEffects period) s).ocr.set ch ((effects (periodEffects period) s).compareOf d)
        duty := (effects (periodEffects period) s).duty.set ch d
        pinDir := (effects (periodEffects period) s).pinDir.set ch true
        comEn := (effects (periodEffects period) s).comEn.set ch true
        history := .complete s.stack.topId (.pwm (.channel ch) d period) ::
          .issue s.stack.topId (.pwm (.channel ch) d period) :: s.history } := by
  rw [execChain_plain_phases (phasesOf_pwm ch d period) (by simp [pwmEffects]) rfl h, effects_append, effects_pwm]

/-- `PWM_ALL` from its issue to its completion (41_duty_pwm.md R134). -/
theorem execChain_pwmAll (d : DutyFraction) (period : Option Micros) {s : State} (h : s.issueEnabled = true) :
    execChain ((periodEffects period ++ pwmAllEffects d).length + 1) (.pwmAll d period) s =
      .next { effects (periodEffects period) s with
        csActive := (effects (periodEffects period) s).psSel
        ocr := PerChannel.fill ((effects (periodEffects period) s).compareOf d)
        duty := PerChannel.fill d
        pinDir := PerChannel.fill true
        comEn := PerChannel.fill true
        history := .complete s.stack.topId (.pwmAll d period) ::
          .issue s.stack.topId (.pwmAll d period) :: s.history } := by
  rw [execChain_plain_phases (phasesOf_pwmAll d period) (by simp [pwmAllEffects]) rfl h, effects_append, effects_pwmAll]

end Machine
end Sys2Proof
end

section
/-! Proofs about the duty and PWM family (41_duty_pwm.md R130 to R136). -/

namespace Sys2Proof.Machine

/-- Settles O14: the compare value of the largest duty bounds the others. -/
theorem dutyCompareStaysBelowTheTop : Obligations.DutyCompareStaysBelowTheTop := by
  intro top duty htop hduty
  have hmono : dutyCompare top duty ≤ dutyCompare top 1023 := dutyCompare_mono top (Nat.le_of_lt_succ hduty)
  have hmax : dutyCompare top 1023 = top * 1023 / 1024 := rfl
  have hzero : dutyCompare top 0 = 0 := by simp [dutyCompare]
  refine ⟨(Nat.shiftRight_eq_div_pow ..).symm, hzero, ?_, ?_, ?_, ?_, rfl, ?_⟩ <;> omega

/-- Settles O15: each phase by its index among the command's phases. -/
theorem dutyPhasesWriteTheCompareThenEnable : Obligations.DutyPhasesWriteTheCompareThenEnable := fun ch d _ _ =>
  ⟨fun h => exec_plain_mid (phaseSD1 ch d) h rfl (Nat.le_refl 2),
   fun h => exec_plain_last (phaseEnable ch) h rfl (Nat.le_refl 2),
   fun h => exec_plain_mid (phaseSA1 d) h rfl (Nat.le_refl 2),
   fun h => exec_plain_last phaseEnableAll h rfl (Nat.le_refl 2)⟩

/-- Settles O17: the period's phases by their index, the others by their index after those of the period. -/
theorem pwmPhasesComeInTheirOrder : Obligations.PwmPhasesComeInTheirOrder := by
  refine fun ch d s l => ⟨fun us => ?_, fun period k hk => ?_⟩
  · exact ⟨fun h => exec_plain_mid (phaseSP1 us) h rfl (by decide : 1 < 6),
      fun h => exec_plain_mid phaseSP2 h rfl (by decide : 2 < 6),
      fun h => exec_plain_mid (phaseSP1 us) h rfl (by decide : 1 < 6),
      fun h => exec_plain_mid phaseSP2 h rfl (by decide : 2 < 6)⟩
  · rw [← length_periodEffects] at hk
    subst hk
    have hpwm := phasesOf_pwm ch d period
    have hall := phasesOf_pwmAll d period
    exact ⟨exec_mid_after (j := 0) hpwm rfl (by decide : 1 < 4),
      exec_mid_after (j := 1) hpwm rfl (by decide : 2 < 4),
      exec_mid_after (j := 2) hpwm rfl (by decide : 3 < 4),
      exec_last_after (j := 3) hpwm rfl (by decide : 4 ≤ 4),
      exec_mid_after (j := 0) hall rfl (by decide : 1 < 4),
      exec_mid_after (j := 1) hall rfl (by decide : 2 < 4),
      exec_mid_after (j := 2) hall rfl (by decide : 3 < 4),
      exec_last_after (j := 3) hall rfl (by decide : 4 ≤ 4)⟩

/-- Settles O16: the closed form of all that the phases write, the compare value under the period's top value. -/
theorem pwmEndsWithTheChannelDrivenAndTheClockConnected :
    Obligations.PwmEndsWithTheChannelDrivenAndTheClockConnected := by
  intro ch d us s h
  refine ⟨execChain_pwm ch d none h, ?_, execChain_pwmAll d none h, ?_⟩
  · refine (execChain_pwm ch d (some us) h).trans ?_
    rw [compareOf_effects_period]
    rfl
  · refine (execChain_pwmAll d (some us) h).trans ?_
    rw [compareOf_effects_period]
    rfl

/-- Settles O19: the command has no phases. -/
theorem unrecognizedChannelIsANoOp : Obligations.UnrecognizedChannelIsANoOp := by
  intro i d period s l hi hb
  have hnone : phasesOf i = [] := by
    rcases hi with rfl | rfl | rfl <;> rfl
  exact exec_of_no_phases hnone hb

/-- The word of `DISABLE_PWM` (41_duty_pwm.md R135). -/
theorem encode_disablePwm (ch : ChanSel) :
    encode (.disablePwm ch) = 0x0700000000000000 ||| (ch.code.zeroExtend 64 <<< 48) := by
  rcases ch with (_ | _ | _) | _ <;> rfl

/-- `DISABLE_PWM` on a channel from its issue to its completion (41_duty_pwm.md R135). -/
theorem execChain_disablePwm (ch : Channel) {s : State} (h : s.issueEnabled = true) :
    execChain 2 (.disablePwm (.channel ch)) s = .next { s with
      comEn := s.comEn.set ch false
      history := .complete s.stack.topId (.disablePwm (.channel ch)) ::
        .issue s.stack.topId (.disablePwm (.channel ch)) :: s.history } :=
  execChain_plain_phases (fs := [phaseDP1 ch]) rfl (List.cons_ne_nil _ _) rfl h

/-- The pin of a channel whose compare output is disabled (41_duty_pwm.md R138). -/
theorem pin_of_comEn_false {s : State} {ch : Channel} (h : s.comEn.get ch = false) :
    s.pin ch = if s.pinDir.get ch then .portDriven else .input := by
  unfold State.pin
  rw [h]
  cases s.pinDir.get ch <;> rfl

/-- Settles O18: the word is the encoder's, and the second time the channel's enable is already clear. -/
theorem disablePwmClearsOnlyTheOutputEnable : Obligations.DisablePwmClearsOnlyTheOutputEnable := by
  refine ⟨fun ch => ?_, fun ch s l h => exec_plain_last (phaseDP1 ch) h rfl (Nat.le_refl 1),
    fun s l => exec_of_no_phases rfl, fun ch s t u h ht hu => ?_⟩
  · rw [← encode_disablePwm]
    exact decode_encode rfl
  · have hfirst := Host.Outcome.next.inj ((execChain_disablePwm ch h).symm.trans ht)
    have hstack : t.stack = s.stack := by rw [← hfirst]
    have hcom : t.comEn = s.comEn.set ch false := by rw [← hfirst]
    have hdir : t.pinDir = s.pinDir := by rw [← hfirst]
    have haccepts : t.issueEnabled = true := by rwa [State.issueEnabled, hstack]
    obtain rfl := Host.Outcome.next.inj ((execChain_disablePwm ch haccepts).symm.trans hu)
    refine ⟨by rw [hcom, PerChannel.set_set, ← hcom], ?_⟩
    rw [pin_of_comEn_false (by simp [hcom]), hdir]

end Sys2Proof.Machine
end

section
/-! SUPPORT. Rows of ticks up and down over one cycle of the counter (42_run_state.md R161, R170). -/

namespace Sys2Proof.Machine

/-- Ticks in two rows. -/
theorem ticks_add (s : State) (m n : Nat) : s.ticks (m + n) = (s.ticks m).ticks n := by
  induction n with
  | zero => rfl
  | succ n ih => rw [← Nat.add_assoc, ticks_succ, ih, ticks_succ]

/-- Counting up to the top value at most, a row of ticks writes the counter alone. -/
theorem ticks_ascend {s : State} {k : Nat} (hdir : s.dir = .up) (htop : s.cnt.toNat + k ≤ s.top.toNat) :
    ∃ c : Half, c.toNat = s.cnt.toNat + k ∧ s.ticks k = { s with cnt := c } := by
  induction k with
  | zero => exact ⟨s.cnt, rfl, rfl⟩
  | succ k ih =>
    obtain ⟨c, hc, hk⟩ := ih (by omega)
    rw [ticks_succ, hk]
    have hlt : c.toNat < s.top.toNat := by omega
    rcases tick_cases { s with cnt := c } with ⟨-, -, htick, hcnt⟩ | ⟨hrev, -⟩ | ⟨hrev, -⟩ | ⟨hrev, -⟩
    · rw [htick] at hcnt
      exact ⟨c + 1, by rw [← Nat.add_assoc, ← hc]; exact hcnt, htick⟩
    all_goals exact absurd ⟨hdir, hlt⟩ hrev

/-- From where the counter does not count up, a row of ticks that stays above the bottom writes the counter and the
direction alone. -/
theorem ticks_descend {s : State} {k : Nat} (hrev : ¬(s.dir = .up ∧ s.cnt.toNat < s.top.toNat))
    (hpos : k + 1 < s.cnt.toNat) :
    ∃ c : Half, c.toNat = s.cnt.toNat - (k + 1) ∧ s.ticks (k + 1) = { s with cnt := c, dir := .down } := by
  induction k with
  | zero =>
    rcases tick_cases s with ⟨hdir, hlt, -⟩ | ⟨-, hzero, -⟩ | ⟨-, hone, -⟩ | ⟨-, -, htick, hcnt⟩
    · exact absurd ⟨hdir, hlt⟩ hrev
    · omega
    · omega
    · rw [htick] at hcnt
      exact ⟨s.cnt - 1, hcnt, htick⟩
  | succ k ih =>
    obtain ⟨c, hc, hk⟩ := ih (by omega)
    rw [ticks_succ, hk]
    rcases tick_cases { s with cnt := c, dir := .down } with ⟨hdir, -⟩ | ⟨-, hzero, -⟩ | ⟨-, hone, -⟩
        | ⟨-, -, htick, hcnt⟩
    · cases hdir
    · change c.toNat = 0 at hzero
      omega
    · change c.toNat = 1 at hone
      omega
    · rw [htick] at hcnt
      change (c - 1).toNat = c.toNat - 1 at hcnt
      exact ⟨c - 1, by omega, htick⟩

/-- Within one cycle from the bottom the counter is a triangle (42_run_state.md R170). -/
theorem cnt_ticks_of_lt_cycle {s : State} {k : Nat} (hcnt : s.cnt = 0) (hdir : s.dir = .up)
    (hk : k < 2 * s.top.toNat) : (s.ticks k).cnt.toNat = min k (2 * s.top.toNat - k) := by
  have hzero : s.cnt.toNat = 0 := by rw [hcnt]; rfl
  by_cases hup : k ≤ s.top.toNat
  · obtain ⟨c, hc, hticks⟩ := ticks_ascend hdir (by omega : s.cnt.toNat + k ≤ s.top.toNat)
    rw [hticks]
    change c.toNat = _
    omega
  · obtain ⟨j, rfl⟩ : ∃ j, k = s.top.toNat + (j + 1) := ⟨k - s.top.toNat - 1, by omega⟩
    obtain ⟨c, hc, hticks⟩ := ticks_ascend hdir (by omega : s.cnt.toNat + s.top.toNat ≤ s.top.toNat)
    have hrev : ¬(s.dir = .up ∧ c.toNat < s.top.toNat) := by omega
    obtain ⟨c', hc', hticks'⟩ :=
      ticks_descend (s := { s with cnt := c }) (k := j) hrev (by change j + 1 < c.toNat; omega)
    rw [ticks_add, hticks, hticks']
    change c'.toNat = c.toNat - (j + 1) at hc'
    change c'.toNat = _
    omega

/-- A tick moves the counter by one at most (42_run_state.md R161). -/
theorem tick_cnt_cases (s : State) :
    s.tick.cnt.toNat = s.cnt.toNat + 1 ∨ s.tick.cnt.toNat = s.cnt.toNat ∨
      s.tick.cnt.toNat + 1 = s.cnt.toNat := by
  rcases tick_cases s with ⟨-, -, -, hcnt⟩ | ⟨-, -, htick⟩ | ⟨-, hone, htick⟩ | ⟨-, htwo, -, hcnt⟩
  · exact .inl hcnt
  · exact .inr (.inl (by rw [htick]; rfl))
  · exact .inr (.inr (by rw [htick, hone]; rfl))
  · exact .inr (.inr (by omega))

/-- A tick leaves the compare values alone. -/
theorem tick_ocr (s : State) : s.tick.ocr = s.ocr := by
  rw [tick_frame]

/-- A row of ticks leaves the compare values alone. -/
theorem ticks_ocr (s : State) (k : Nat) : (s.ticks k).ocr = s.ocr := by
  rw [ticks_frame]

end Sys2Proof.Machine
end

section
/-! Proofs about the output levels and the pins (41_duty_pwm.md R137, R138, R140). -/

namespace Sys2Proof.Machine

/-- The level is 1 exactly below the compare value (41_duty_pwm.md R137). -/
theorem ocLevel_eq_true_iff (s : State) (ch : Channel) :
    s.ocLevel ch = true ↔ s.cnt.toNat < (s.ocr.get ch).toNat := decide_eq_true_iff

/-- The level is 0 exactly from the compare value on (41_duty_pwm.md R137). -/
theorem ocLevel_eq_false_iff (s : State) (ch : Channel) :
    s.ocLevel ch = false ↔ (s.ocr.get ch).toNat ≤ s.cnt.toNat := by
  rw [← Bool.not_eq_true, ocLevel_eq_true_iff, Nat.not_lt]

/-- Under a one-to-one `PIN_MAP` the physical pin of a channel shows the channel's pin (00_scope.md R6). -/
theorem physicalPin_pinMap {s : State} (h : s.params.wellFormed = true) (ch : Channel) :
    s.physicalPin (s.params.pinMap.get ch) = some (s.pin ch) := by
  simp only [Params.wellFormed, pinMapOneToOne, Bool.and_eq_true, bne_iff_ne] at h
  obtain ⟨-, ⟨hab, hac⟩, hbc⟩ := h
  cases ch with
  | A => simp [State.physicalPin, PerChannel.get]
  | B => simp [State.physicalPin, PerChannel.get, hab]
  | C => simp [State.physicalPin, PerChannel.get, hac, hbc]

/-- Settles O20: a tick moves the counter by one at most, so the level changes only at the compare value. -/
theorem outputLevelTogglesAtTheMatchAndDrivesThePin :
    Obligations.OutputLevelTogglesAtTheMatchAndDrivesThePin := by
  intro s ch
  have hstep := tick_cnt_cases s
  refine ⟨ocLevel_eq_true_iff s ch, ?_, ?_, fun hin => ?_, fun hout hcom => ?_, fun hout hcom => ?_,
    fun hwf => physicalPin_pinMap hwf ch⟩
  · rw [ocLevel_eq_true_iff, ocLevel_eq_false_iff, tick_ocr, ← BitVec.toNat_inj]
    omega
  · rw [ocLevel_eq_true_iff, ocLevel_eq_false_iff, tick_ocr, ← BitVec.toNat_inj]
    omega
  · simp [State.pin, hin]
  · simp [State.pin, hout, hcom]
  · simp [State.pin, hout, hcom]

/-- Within one cycle from the bottom the level is 1 at the cycle's two ends: before the match on the way up, and after
the match on the way down (41_duty_pwm.md R140). -/
theorem ocLevel_ticks_iff {s : State} {k : Nat} (ch : Channel) (hcnt : s.cnt = 0) (hdir : s.dir = .up)
    (hk : k < 2 * s.top.toNat) :
    (s.ticks k).ocLevel ch = true ↔
      k < (s.ocr.get ch).toNat ∨ 2 * s.top.toNat - k < (s.ocr.get ch).toNat := by
  rw [ocLevel_eq_true_iff, ticks_ocr, cnt_ticks_of_lt_cycle hcnt hdir hk, min_lt_iff]

/-- A predicate that holds of the first `a` numbers, of none of the next `b` and of the next `c` counts `a + c`. -/
theorem count_ends {p : Nat → Prop} [DecidablePred p] {a b c : Nat} (hfirst : ∀ k < a, p k)
    (hmiddle : ∀ k < b, ¬ p (a + k)) (hlast : ∀ k < c, p (a + b + k)) : Nat.count p (a + b + c) = a + c := by
  rw [Nat.count_add, Nat.count_add, Nat.count_of_forall hfirst, Nat.count_of_forall_not hmiddle,
    Nat.count_of_forall hlast, Nat.add_zero]

/-- The entries of a range that a test keeps, as a count. -/
theorem length_filter_range (f : Nat → Bool) (n : Nat) :
    ((List.range n).filter f).length = Nat.count (fun k => f k = true) n := by
  simp [Nat.count, List.countP_eq_length_filter]

/-- Settles O21: `C` states at the cycle's start and `C - 1` at its end. -/
theorem realisedDutyOverOneCycle : Obligations.RealisedDutyOverOneCycle := by
  intro s ch hcnt hdir htop hle
  have hlevel := fun k (hk : k < 2 * s.top.toNat) => ocLevel_ticks_iff ch hcnt hdir hk
  rw [length_filter_range]
  generalize (s.ocr.get ch).toNat = c at hle hlevel ⊢
  generalize s.top.toNat = t at htop hle hlevel ⊢
  rcases Nat.eq_zero_or_pos c with rfl | hpos
  · exact Nat.count_of_forall_not fun k hk => by rw [hlevel k hk]; omega
  · have hcycle : 2 * t = c + (2 * t - (2 * c - 1)) + (c - 1) := by omega
    rw [hcycle, count_ends]
    · omega
    · exact fun k hk => (hlevel k (by omega)).mpr (by omega)
    · exact fun k hk => by rw [hlevel _ (by omega)]; omega
    · exact fun k hk => (hlevel _ (by omega)).mpr (by omega)

end Sys2Proof.Machine
end

section
/-! SUPPORT. The four cases of a tick, and rows of ticks down to the bottom and over whole cycles of the counter
(42_run_state.md R161 to R164, R170). -/

namespace Sys2Proof.Machine

/-- `TICK` is enabled exactly while the clock is connected (42_run_state.md R160). -/
theorem tickEnabled_iff (s : State) : s.tickEnabled = true ↔ s.csActive ≠ 0 := bne_iff_ne

/-- A tick with the clock connected. -/
theorem takeMove_tick {s : State} (h : s.csActive ≠ 0) : takeMove .tick s = .next s.tick := by
  simp only [takeMove, (tickEnabled_iff s).mpr h, if_true]

/-- The counter counts up on its next tick (42_run_state.md R161). -/
def State.ascending (s : State) : Prop := s.dir = .up ∧ s.cnt.toNat < s.top.toNat

/-- A tick that counts up. -/
theorem tick_ascending {s : State} (h : s.ascending) :
    s.tick = { s with cnt := s.cnt + 1 } ∧ (s.cnt + 1).toNat = s.cnt.toNat + 1 := by
  rcases tick_cases s with ⟨-, -, htick, hcnt⟩ | ⟨hrev, -⟩ | ⟨hrev, -⟩ | ⟨hrev, -⟩
  · rw [htick] at hcnt
    exact ⟨htick, hcnt⟩
  all_goals exact absurd h hrev

/-- A tick at the bottom that does not count up is a bottom event. -/
theorem tick_at_bottom {s : State} (hrev : ¬s.ascending) (hcnt : s.cnt.toNat = 0) : s.tick = s.bottom := by
  rcases tick_cases s with ⟨hup, hlt, -⟩ | ⟨-, -, htick⟩ | ⟨-, hone, -⟩ | ⟨-, htwo, -⟩
  · exact absurd ⟨hup, hlt⟩ hrev
  · exact htick
  · omega
  · omega

/-- A tick that arrives at the bottom. -/
theorem tick_to_bottom {s : State} (hrev : ¬s.ascending) (hcnt : s.cnt.toNat = 1) :
    s.tick = { s.bottom with cnt := 0, dir := .up } := by
  rcases tick_cases s with ⟨hup, hlt, -⟩ | ⟨-, hzero, -⟩ | ⟨-, -, htick⟩ | ⟨-, htwo, -⟩
  · exact absurd ⟨hup, hlt⟩ hrev
  · omega
  · exact htick
  · omega

/-- A tick that counts down and stays above the bottom. -/
theorem tick_descending {s : State} (hrev : ¬s.ascending) (hcnt : 2 ≤ s.cnt.toNat) :
    s.tick = { s with cnt := s.cnt - 1, dir := .down } ∧ (s.cnt - 1).toNat = s.cnt.toNat - 1 := by
  rcases tick_cases s with ⟨hup, hlt, -⟩ | ⟨-, hzero, -⟩ | ⟨-, hone, -⟩ | ⟨-, -, htick, hc⟩
  · exact absurd ⟨hup, hlt⟩ hrev
  · omega
  · omega
  · rw [htick] at hc
    exact ⟨htick, hc⟩

/-- From where the counter does not count up, it is at the bottom after as many ticks as its value
(42_run_state.md R164). -/
theorem ticks_to_bottom {s : State} {n : Nat} (hrev : ¬s.ascending) (hcnt : s.cnt.toNat = n + 1) :
    s.ticks (n + 1) = { s.bottom with cnt := 0, dir := .up } := by
  rw [ticks_succ]
  cases n with
  | zero => exact tick_to_bottom hrev hcnt
  | succ n =>
    obtain ⟨c, hc, hticks⟩ := ticks_descend hrev (by omega : n + 1 < s.cnt.toNat)
    have hdown : ¬({ s with cnt := c, dir := .down } : State).ascending := fun ⟨hup, _⟩ => by cases hup
    have hone : c.toNat = 1 := by omega
    rw [hticks, tick_to_bottom hdown hone]
    rfl

/-- From the bottom the counter is at the top value after as many ticks (42_run_state.md R170). -/
theorem ticks_to_top {s : State} (hcnt : s.cnt = 0) (hdir : s.dir = .up) :
    s.ticks s.top.toNat = { s with cnt := s.top } := by
  have hzero : s.cnt.toNat = 0 := by rw [hcnt]; rfl
  obtain ⟨c, hc, hticks⟩ := ticks_ascend hdir (by omega : s.cnt.toNat + s.top.toNat ≤ s.top.toNat)
  have htop : c = s.top := BitVec.eq_of_toNat_eq (by omega)
  rw [hticks, htop]

/-- The counter does not count up at the top value. -/
theorem not_ascending_at_top (s : State) : ¬({ s with cnt := s.top } : State).ascending :=
  fun ⟨_, hlt⟩ => Nat.lt_irrefl _ hlt

/-- With `TOP ≥ 1` a cycle from the bottom is a bottom event and changes nothing else (42_run_state.md R170). -/
theorem ticks_cycle {s : State} (hcnt : s.cnt = 0) (hdir : s.dir = .up) (htop : 1 ≤ s.top.toNat) :
    s.ticks (2 * s.top.toNat) = s.bottom := by
  obtain ⟨n, hn⟩ := Nat.exists_eq_add_of_le' htop
  have hdown : ({ s with cnt := s.top } : State).ticks (n + 1) = _ :=
    ticks_to_bottom (not_ascending_at_top s) hn
  rw [Nat.two_mul, ticks_add, ticks_to_top hcnt hdir, hn, hdown, ← hcnt, ← hdir]
  rfl

/-- Before the end of its first cycle from the bottom the counter has met no bottom event (42_run_state.md R162). -/
theorem no_bottom_of_lt_cycle {s : State} {k : Nat} (hcnt : s.cnt = 0) (hdir : s.dir = .up)
    (hk : k < 2 * s.top.toNat) :
    (s.ticks k).history = s.history ∧ (s.ticks k).evtPending = s.evtPending := by
  by_cases hup : k ≤ s.top.toNat
  · have hzero : s.cnt.toNat = 0 := by rw [hcnt]; rfl
    obtain ⟨c, -, hticks⟩ := ticks_ascend hdir (by omega : s.cnt.toNat + k ≤ s.top.toNat)
    rw [hticks]
    exact ⟨rfl, rfl⟩
  · obtain ⟨j, rfl⟩ : ∃ j, k = s.top.toNat + (j + 1) := ⟨k - s.top.toNat - 1, by omega⟩
    obtain ⟨c, -, hticks⟩ := ticks_descend (k := j) (not_ascending_at_top s) (by omega : j + 1 < s.top.toNat)
    rw [ticks_add, ticks_to_top hcnt hdir, hticks]
    exact ⟨rfl, rfl⟩

/-- The state after `n` bottom events and nothing else (42_run_state.md R161, R162). -/
def State.bottoms (s : State) (n : Nat) : State :=
  { s with evtPending := s.evtPending || decide (0 < n), history := List.replicate n .bottom ++ s.history }

/-- No bottom event leaves the state as it is. -/
theorem bottoms_zero (s : State) : s.bottoms 0 = s := by
  simp [State.bottoms]

/-- One bottom event more. -/
theorem bottom_bottoms (s : State) (n : Nat) : (s.bottoms n).bottom = s.bottoms (n + 1) := by
  simp [State.bottoms, State.bottom, List.replicate_succ]

/-- Where a row of `p` ticks is a bottom event, again after any number of them, `n` such rows are `n` bottom events. -/
theorem ticks_mul_eq_bottoms {s : State} {p : Nat} (h : ∀ n, (s.bottoms n).ticks p = (s.bottoms n).bottom)
    (n : Nat) : s.ticks (p * n) = s.bottoms n := by
  induction n with
  | zero => exact (bottoms_zero s).symm
  | succ n ih => rw [Nat.mul_succ, ticks_add, ih, h, bottom_bottoms]

/-- With `TOP ≥ 1` every full cycle from the bottom is one bottom event (42_run_state.md R162, R170). -/
theorem ticks_cycles {s : State} (hcnt : s.cnt = 0) (hdir : s.dir = .up) (htop : 1 ≤ s.top.toNat) (n : Nat) :
    s.ticks (2 * s.top.toNat * n) = s.bottoms n :=
  ticks_mul_eq_bottoms (fun n => ticks_cycle (s := s.bottoms n) hcnt hdir htop) n

/-- A row of ticks from the bottom: the bottom events of its full cycles, then the ticks of the cycle it ends in. -/
theorem ticks_eq_rest_of_cycle {s : State} (hcnt : s.cnt = 0) (hdir : s.dir = .up) (htop : 1 ≤ s.top.toNat)
    (k : Nat) : s.ticks k = (s.bottoms (k / (2 * s.top.toNat))).ticks (k % (2 * s.top.toNat)) := by
  rw [← ticks_cycles hcnt hdir htop, ← ticks_add, Nat.div_add_mod]

/-- With `CNT = 0` and `TOP = 0` a tick is a bottom event and nothing else (42_run_state.md R163). -/
theorem tick_of_zero_top_zero {s : State} (hcnt : s.cnt = 0) (htop : s.top = 0) : s.tick = s.bottom :=
  tick_at_bottom (fun ⟨_, hlt⟩ => by simp [hcnt, htop] at hlt) (by simp [hcnt])

/-- With `CNT = 0` and `TOP = 0` every tick is one bottom event (42_run_state.md R163). -/
theorem ticks_of_zero_top_zero {s : State} (hcnt : s.cnt = 0) (htop : s.top = 0) (n : Nat) :
    s.ticks n = s.bottoms n := by
  rw [← ticks_mul_eq_bottoms (p := 1) (fun n => tick_of_zero_top_zero (s := s.bottoms n) hcnt htop), Nat.one_mul]

/-- A counter above the top value does not count up. -/
theorem not_ascending_of_top_lt {s : State} (h : s.top.toNat < s.cnt.toNat) : ¬s.ascending :=
  fun ⟨_, hlt⟩ => Nat.lt_asymm h hlt

end Sys2Proof.Machine
end

section
/-! Proofs about the counter (42_run_state.md R160 to R164, R170). -/

namespace Sys2Proof.Machine

/-- Settles O22: the four cases of a tick. -/
theorem tickCountsUpReversesAndCountsDown : Obligations.TickCountsUpReversesAndCountsDown := by
  refine fun s => ⟨tickEnabled_iff s, fun hc hup => ?_, fun hc hrev hcnt => ?_, fun hc hrev hcnt => ?_,
    fun hc hrev hcnt => ?_⟩ <;> rw [takeMove_tick hc]
  · obtain ⟨htick, hcnt⟩ := tick_ascending hup
    exact ⟨congrArg _ htick, hcnt⟩
  · exact congrArg _ (tick_at_bottom hrev hcnt)
  · exact congrArg _ (tick_to_bottom hrev hcnt)
  · obtain ⟨htick, hcnt'⟩ := tick_descending hrev hcnt
    exact ⟨congrArg _ htick, hcnt'⟩

/-- Settles O23: whole cycles are bottom events, and the ticks after the last one are within a cycle. -/
theorem counterIsATriangleWithOneBottomEventACycle : Obligations.CounterIsATriangleWithOneBottomEventACycle := by
  intro s k hc hcnt hdir htop
  have hpos : 0 < 2 * s.top.toNat := by omega
  have hlt := Nat.mod_lt k hpos
  have hrow := ticks_eq_rest_of_cycle hcnt hdir htop k
  have hcyc := cnt_ticks_of_lt_cycle (s := s.bottoms (k / (2 * s.top.toNat))) hcnt hdir hlt
  obtain ⟨hhist, hevt⟩ := no_bottom_of_lt_cycle (s := s.bottoms (k / (2 * s.top.toNat))) hcnt hdir hlt
  rw [← hrow] at hcyc hhist hevt
  refine ⟨_, runMoves_ticks s k hc, rfl, ?_, hhist, ?_, ticks_frame s k⟩
  · change _ = min (k % (2 * s.top.toNat)) (2 * s.top.toNat - k % (2 * s.top.toNat)) at hcyc
    rw [hcyc]
    split <;> omega
  · rw [hevt, State.bottoms]
    simp only [Nat.div_pos_iff, hpos, true_and]

/-- Settles O24: with `TOP = 0` each tick is a bottom event, and an overshot counter does not count up. -/
theorem topZeroAndOvershootReachTheBottom : Obligations.TopZeroAndOvershootReachTheBottom := by
  intro s k hc
  rw [runMoves_ticks s (k + 1) hc, runMoves_ticks s k hc]
  refine ⟨fun hcnt _ htop => ?_, fun hover hk hlt => ⟨_, rfl, ?_⟩, fun hover hk => ⟨_, rfl, ?_⟩⟩
  · rw [ticks_of_zero_top_zero hcnt htop]
    simp [State.bottoms]
  · obtain ⟨j, rfl⟩ := Nat.exists_eq_add_of_le' hk
    obtain ⟨c, hcnt, hticks⟩ := ticks_descend (not_ascending_of_top_lt hover) hlt
    rw [hticks]
    exact ⟨hcnt, rfl, rfl, rfl⟩
  · obtain ⟨j, rfl⟩ : ∃ j, k = j + 1 := Nat.exists_eq_add_of_le' (by omega)
    rw [ticks_to_bottom (not_ascending_of_top_lt hover) hk.symm]
    exact ⟨rfl, rfl, rfl, rfl⟩

end Sys2Proof.Machine
end

section
/-! SUPPORT. What a list of moves keeps, and the steps of `START` (42_run_state.md R166). -/

namespace Sys2Proof.Machine

/-- What every move keeps, every list of moves keeps. -/
theorem runMoves_keeps {P : State → Prop} (keep : ∀ m s t, P s → takeMove m s = .next t → P t) {ms : List Move}
    {s t : State} (h : P s) (hr : runMoves ms s = .next t) : P t := by
  induction ms generalizing s with
  | nil => cases hr; exact h
  | cons m ms ih =>
    obtain ⟨u, hm, hr⟩ := runMoves_cons_next hr
    exact ih (keep m s u h hm) hr

/-- The step of a phase whose `hold until` is false (10_state.md R42; log 3). -/
theorem runPhase_held {s : State} {i : Instr} {phases : List Phase} {b : Busy} {p : Phase}
    (hp : phases[b.k]? = some p) (hr : p.ready b.locals s = false) : s.runPhase i phases b = s := by
  simp [State.runPhase, hp, hr]

/-- The step of a last phase that is not held. -/
theorem runPhase_last {s : State} {i : Instr} {phases : List Phase} {b : Busy} {p : Phase}
    (hp : phases[b.k]? = some p) (hr : p.ready b.locals s = true) (hk : phases.length ≤ b.k + 1) :
    s.runPhase i phases b = (p.run b.locals s).2.complete i := by
  simp [State.runPhase, hp, hr, State.advance, Nat.not_lt.mpr hk]

/-- ST5 is held at `CNT = 0` (42_run_state.md R166). -/
theorem phaseST5_ready_of_zero {s : State} (l : Locals) (h : s.cnt = 0) : phaseST5.ready l s = false :=
  bne_eq_false_iff_eq.mpr h

/-- ST5 is not held at `CNT ≠ 0` (42_run_state.md R166). -/
theorem phaseST5_ready_of_nonzero {s : State} (l : Locals) (h : s.cnt ≠ 0) : phaseST5.ready l s = true :=
  bne_iff_ne.mpr h

/-- `START` in its wait is held at `CNT = 0`. -/
theorem start_phase_disabled {s : State} {l : Locals} (hb : s.topBusy = some ⟨.start, 4, l⟩) (hc : s.cnt = 0) :
    s.phaseEnabled = false := by
  unfold State.phaseEnabled
  rw [hb]
  exact phaseST5_ready_of_zero l hc

/-- `START` in its wait makes no step at `CNT = 0`. -/
theorem takeMove_phase_start_held {s : State} {l : Locals} (hb : s.topBusy = some ⟨.start, 4, l⟩)
    (hc : s.cnt = 0) : takeMove .phase s = .next s := by
  rw [takeMove_phase hb, runPhase_held (p := phaseST5) rfl (phaseST5_ready_of_zero l hc)]

/-- `START` in its wait completes at `CNT ≠ 0`. -/
theorem exec_start_completes {s : State} {l : Locals} (hb : s.topBusy = some ⟨.start, 4, l⟩) (hc : s.cnt ≠ 0) :
    exec .start s = .next (s.complete .start) := by
  have hrun : s.runPhase .start startPhases ⟨.start, 4, l⟩ = s.complete .start :=
    runPhase_last (p := phaseST5) rfl (phaseST5_ready_of_nonzero l hc) (Nat.le_refl 5)
  rw [← hrun]
  exact exec_phase _ s hb

end Sys2Proof.Machine
end

section
/-! Proofs about `START` between ST1 and its completion (42_run_state.md R171, 70_reset_and_hazards.md R258,
R260). -/

namespace Sys2Proof.Machine

/-- `START` waits with the interrupt masked for a counter that cannot leave 0. -/
structure StuckStart (l : Locals) (s : State) : Prop where
  waiting : s.topBusy = some ⟨.start, 4, l⟩
  masked : s.ie = false
  zero : s.cnt = 0
  noCount : s.top = 0 ∨ s.csActive = 0

/-- Every move keeps a stuck `START`: the phase is held, the interrupt is masked, and a tick does not count. -/
theorem StuckStart.move {l : Locals} {m : Move} {s t : State} (h : StuckStart l s) (hm : takeMove m s = .next t) :
    StuckStart l t := by
  obtain ⟨hb, hie, hc, hno⟩ := id h
  have hbusy : s.topBusy ≠ none := by simp [hb]
  rcases held_move hbusy (start_phase_disabled hb hc) (.inl hie) hm with e | ⟨-, hcs, e⟩
  · rwa [e]
  · rw [e, tick_of_zero_top_zero hc (hno.resolve_right hcs)]
    exact ⟨hb, hie, hc, hno⟩

/-- Settles O27: every move keeps a stuck `START`, so every list of moves does. -/
theorem startNeverCompletesWithoutACountingClock : Obligations.StartNeverCompletesWithoutACountingClock := by
  intro s t l ms hb hie hc hno hr
  obtain ⟨hb', -, hc', -⟩ := runMoves_keeps (fun _ _ _ h hm => StuckStart.move h hm) ⟨hb, hie, hc, hno⟩ hr
  exact ⟨hb', hc', by simp [hb'], start_phase_disabled hb' hc'⟩

/-- ST1 masks the interrupt, and the later phases of `START` leave it masked (42_run_state.md R166). -/
theorem phaseAt_start_masks {k : Nat} {p : Phase} {s : State} (h : PhaseAt .start k p) (l : Locals)
    (hie : 1 ≤ k → s.ie = false) : (p.run l s).2.ie = false := by
  cases h with
  | sp1 h => cases h
  | sp2 h => cases h
  | st1 => rfl
  | st2 => exact hie (by decide)
  | st3 => exact hie (by decide)
  | st4 => exact hie (by decide)
  | st5 => exact hie (by decide)

/-- An idle top context above the same suspended contexts keeps the invariant of `START`. -/
theorem StartInv.of_idle {s t : State} (h : StartInv s) (htop : t.topBusy = none)
    (hsus : t.stack.suspended = s.stack.suspended) : StartInv t where
  masked b hb := by simp [htop] at hb
  onTop b hb := h.onTop b (hsus ▸ hb)

/-- Where no `START` is past its first phase, the invariant of `START` holds. -/
theorem startInv_of_busies {s : State} (h : ∀ b, some b ∈ s.stack.busies → b.cmd = .start → b.k = 0) :
    StartInv s where
  masked b hb hs hk := absurd (h b (top_mem_busies hb) hs) (Nat.ne_of_gt hk)
  onTop b hb := h b (suspended_mem_busies hb)

/-- The sequencer's step keeps the invariant of `START`. -/
theorem startInv_runPhase {b : Busy} {s : State} (h : StartInv s) (hb : s.topBusy = some b) :
    StartInv (s.runPhase b.cmd (phasesOf b.cmd) b) := by
  obtain ⟨hsus, -, -⟩ := runPhase_sameBelowTop s b
  rcases runPhase_cases s b.cmd (phasesOf b.cmd) b with ⟨-, e⟩ | ⟨p, -, -, e⟩ | ⟨p, hp, -, -, e⟩
      | ⟨p, -, -, -, e⟩
  · exact h.of_idle (by rw [e, State.topBusy_complete]) hsus
  · rwa [e]
  · refine ⟨fun b' hb' hs _ => ?_, fun b' hb' => h.onTop b' (hsus ▸ hb')⟩
    rw [e, State.topBusy_setTopBusy] at hb'
    obtain rfl := Option.some.inj hb'
    have hphase : PhaseAt .start b.k p := hs ▸ phaseAt_of_getElem? hp
    rw [e]
    exact phaseAt_start_masks hphase b.locals (h.masked b hb hs)
  · exact h.of_idle (by rw [e, State.topBusy_complete]) hsus

/-- With the interrupt not masked, no `START` is past its first phase. -/
theorem StartInv.start_at_first {s : State} (h : StartInv s) (hie : s.ie = true) {b : Busy}
    (hb : some b ∈ s.stack.busies) (hs : b.cmd = .start) : b.k = 0 := by
  rw [ContextStack.busies_eq, List.mem_cons] at hb
  rcases hb with htop | hsus
  · by_contra hk
    have hmasked := h.masked b htop.symm hs (Nat.pos_of_ne_zero hk)
    simp [hie] at hmasked
  · exact h.onTop b hsus hs

/-- The interrupt return leaves the commands of the suspended contexts (60_exceptions.md R229). -/
theorem busies_isrReturn {s : State} (h : s.isrReturnEnabled = true) :
    s.isrReturn.stack.busies = s.stack.suspended := by
  unfold State.isrReturnEnabled at h
  unfold State.isrReturn
  cases hs : s.stack.isrs with
  | nil => simp [hs] at h
  | cons c cs => simp [ContextStack.suspended, ContextStack.busies, hs]

/-- The end of a callback comes in an idle context (60_exceptions.md R236). -/
theorem topBusy_endCallback {s : State} (h : s.cbDoneEnabled = true) : s.endCallback.topBusy = none := by
  unfold State.cbDoneEnabled at h
  unfold State.endCallback
  cases hs : s.stack.isrs with
  | nil => simp [hs] at h
  | cons c cs =>
    simp only [hs, IsrContext.mayEndCallback, Bool.and_eq_true] at h
    exact Option.isNone_iff_eq_none.mp h.1

/-- Every move keeps that a `START` past ST1 is on top with the interrupt masked. -/
theorem startInv_move {m : Move} {s t : State} (h : StartInv s) (hm : takeMove m s = .next t) : StartInv t := by
  rcases takeMove_cases hm with e | ⟨-, -, e⟩ | ⟨-, b, hb, e⟩ | ⟨-, hirq, -, e⟩ | ⟨-, he, e⟩
      | ⟨w, i, -, -, -, e⟩ | ⟨v, -, -, e⟩ | ⟨-, he, e⟩ <;> rw [e]
  · exact h
  · rw [tick_frame]
    exact ⟨h.masked, h.onTop⟩
  · exact startInv_runPhase h hb
  · have hie : s.ie = true := (Bool.and_eq_true_iff.mp hirq).2
    refine startInv_of_busies fun b hb => h.start_at_first hie ?_
    simpa [ContextStack.busies, State.newIsr] using hb
  · refine startInv_of_busies fun b hb => h.onTop b ?_
    rwa [← busies_isrReturn he]
  · refine startInv_of_busies fun b hb hs => ?_
    rw [State.issue_stack, ContextStack.busies_setTopBusy, List.mem_cons] at hb
    rcases hb with htop | hsus
    · rw [Option.some.inj htop]
    · exact h.onTop b hsus hs
  · exact ⟨h.masked, h.onTop⟩
  · exact h.of_idle (topBusy_endCallback he) (endCallback_sameBelowTop s).1

/-- Settles O55: the invariant does not speak of the schedule or the draws, and every move keeps it. -/
theorem noInterruptComesInsideStart : Obligations.NoInterruptComesInsideStart := by
  refine ⟨fun s t h hstep => ?_, fun s k h ⟨l, hb⟩ hk => ?_⟩
  · obtain ⟨m, sched, d, hm⟩ := takeMove_of_step hstep
    have h' : StartInv { s with schedule := sched, draws := d } := ⟨h.masked, h.onTop⟩
    exact startInv_move h' hm
  · have hie := h.masked _ hb rfl hk
    have hoff : s.dispatchEnabled = false := by simp [State.dispatchEnabled, State.irq, hie]
    exact ⟨hoff, by simp [takeMove, hoff]⟩

end Sys2Proof.Machine
end

section
/-! Proofs about the run-state commands (42_run_state.md R166 to R168, R171). -/

namespace Sys2Proof.Machine

/-- Settles O25: each phase by its index, the last by whether it is held. -/
theorem startPhasesRestartTheCounter : Obligations.StartPhasesRestartTheCounter := fun _ _ =>
  ⟨fun h => exec_plain_mid phaseST1 h rfl (by decide : 1 < 5),
   fun h => exec_plain_mid phaseST2 h rfl (by decide : 2 < 5),
   fun h => exec_plain_mid phaseST3 h rfl (by decide : 3 < 5),
   fun h => exec_plain_mid phaseST4 h rfl (by decide : 4 < 5),
   exec_start_completes,
   fun h hc => ⟨start_phase_disabled h hc, takeMove_phase_start_held h hc⟩⟩

/-- The state in which `START`, issued from `s` and run with no other move between, waits (42_run_state.md R166). -/
def State.startWaiting (s : State) : State :=
  { s with
    ie := false
    cnt := 0
    dir := .up
    csActive := s.psSel
    stack := s.stack.setTopBusy (some ⟨.start, 4, Locals.empty⟩)
    history := .prescalerReset :: .issue s.stack.topId .start :: s.history }

/-- `START` from its issue to its wait. -/
theorem runMoves_start_to_wait {ms : List Move} {s : State} (h : s.issueEnabled = true) :
    runMoves (.issue (encode .start) :: .phase :: .phase :: .phase :: .phase :: ms) s =
      runMoves ms s.startWaiting := by
  rw [runMoves_issue .start (decode_encode rfl) h,
    runMoves_phase phaseST1 (State.topBusy_issue s .start) rfl (by decide : 1 < 5),
    runMoves_phase (i := .start) (k := 1) phaseST2 (State.topBusy_setTopBusy ..) rfl (by decide : 2 < 5),
    runMoves_phase (i := .start) (k := 2) phaseST3 (State.topBusy_setTopBusy ..) rfl (by decide : 3 < 5),
    runMoves_phase (i := .start) (k := 3) phaseST4 (State.topBusy_setTopBusy ..) rfl (by decide : 4 < 5)]
  simp [State.startWaiting, phaseST1, phaseST2, phaseST3, phaseST4, State.issue, State.setTopBusy, State.emit]

/-- In its wait `START` is on top. -/
theorem topBusy_startWaiting (s : State) : s.startWaiting.topBusy = some ⟨.start, 4, Locals.empty⟩ :=
  ContextStack.topBusy_setTopBusy ..

/-- The first tick in the wait of `START` under `TOP ≥ 1` counts to 1. -/
theorem tick_startWaiting {s : State} (h : 1 ≤ s.top.toNat) :
    s.startWaiting.tick = { s.startWaiting with cnt := 1 } :=
  (tick_ascending (s := s.startWaiting) ⟨rfl, h⟩).1

/-- A list that begins with the completion of a `START` that is not held. -/
theorem runMoves_start_completes {ms : List Move} {s : State} {l : Locals}
    (hb : s.topBusy = some ⟨.start, 4, l⟩) (hc : s.cnt ≠ 0) :
    runMoves (.phase :: ms) s = runMoves ms (s.complete .start) := by
  apply runMoves_cons
  simp only [takeMove, phaseMove, hb]
  exact exec_start_completes hb hc

/-- Settles O26: the run to the wait, the tick that ends it, and the completion. -/
theorem startCompletesAfterOneTickWithANonzeroCounter :
    Obligations.StartCompletesAfterOneTickWithANonzeroCounter := by
  intro s h htop hsel
  have hb : ({ s.startWaiting with cnt := 1 } : State).topBusy = _ := topBusy_startWaiting s
  have hc : ({ s.startWaiting with cnt := 1 } : State).cnt ≠ 0 := (by decide : (1 : Half) ≠ 0)
  rw [runMoves_start_to_wait h, runMoves_tick hsel, tick_startWaiting htop, runMoves_start_completes hb hc]
  simp [runMoves, State.startWaiting, State.complete, State.setTopBusy, State.emit, setTopBusy_none_of_issueEnabled h]

/-- `STOP` from its issue to its completion (42_run_state.md R167). -/
theorem execChain_stop {s : State} (h : s.issueEnabled = true) :
    execChain 2 .stop s = .next { s with
      csActive := 0
      history := .complete s.stack.topId .stop :: .issue s.stack.topId .stop :: s.history } :=
  execChain_plain_phases (fs := [phaseSO1]) rfl (List.cons_ne_nil _ _) rfl h

/-- `RESUME` from its issue to its completion (42_run_state.md R168). -/
theorem execChain_resume {s : State} (h : s.issueEnabled = true) :
    execChain 2 .resume s = .next { s with
      csActive := s.psSel
      history := .complete s.stack.topId .resume :: .issue s.stack.topId .resume :: s.history } :=
  execChain_plain_phases (fs := [phaseRS1]) rfl (List.cons_ne_nil _ _) rfl h

/-- What `STOP` leaves behind. -/
theorem eq_of_execChain_stop {s t : State} (h : s.issueEnabled = true) (ht : execChain 2 .stop s = .next t) :
    t = { s with csActive := 0, history := t.history } := by
  obtain rfl := Host.Outcome.next.inj ((execChain_stop h).symm.trans ht)
  rfl

/-- What `RESUME` leaves behind. -/
theorem eq_of_execChain_resume {s t : State} (h : s.issueEnabled = true)
    (ht : execChain 2 .resume s = .next t) : t = { s with csActive := s.psSel, history := t.history } := by
  obtain rfl := Host.Outcome.next.inj ((execChain_resume h).symm.trans ht)
  rfl

/-- What `STOP` and then `RESUME` leave behind: the counter goes on from where it stood (42_run_state.md R168). -/
theorem eq_of_execChain_stop_resume {s t u : State} (h : s.issueEnabled = true)
    (ht : execChain 2 .stop s = .next t) (hu : execChain 2 .resume t = .next u) :
    u = { s with csActive := s.psSel, history := u.history } := by
  have hstop := eq_of_execChain_stop h ht
  have haccepts : t.issueEnabled = true := by rw [hstop]; exact h
  rw [eq_of_execChain_resume haccepts hu, hstop]

/-- The run state is Running exactly while a clock is connected (10_state.md R28). -/
theorem runState_eq_running_iff (s : State) : s.runState = .running ↔ s.csActive ≠ 0 := by
  unfold State.runState
  split
  · next hcs => exact ⟨nofun, fun h => absurd hcs h⟩
  · next hcs => exact ⟨fun _ => hcs, fun _ => rfl⟩

/-- Settles O28: `STOP` writes `CS_ACTIVE` and the history alone. -/
theorem stopFreezesTheCounter : Obligations.StopFreezesTheCounter := by
  refine ⟨decode_encode (i := .stop) rfl, fun s l h => exec_plain_last phaseSO1 h rfl (Nat.le_refl 1),
    fun s t h ht => ?_⟩
  have hstop := eq_of_execChain_stop h ht
  refine ⟨hstop, by rw [hstop]; rfl, fun ch => by rw [hstop]; rfl, fun hcs => hstop.trans (by rw [hcs]),
    fun u hu => ?_⟩
  rw [eq_of_execChain_stop_resume h ht hu]
  exact ⟨rfl, rfl, rfl⟩

/-- Settles O29: `RESUME` writes `CS_ACTIVE` and the history alone. -/
theorem resumeReconnectsTheSelectedPrescaler : Obligations.ResumeReconnectsTheSelectedPrescaler := by
  refine ⟨decode_encode (i := .resume) rfl, fun s l h => exec_plain_last phaseRS1 h rfl (Nat.le_refl 1),
    fun s t h ht => ?_, fun s t u h ht hu => ?_⟩
  · have hresume := eq_of_execChain_resume h ht
    exact ⟨hresume, by rw [runState_eq_running_iff, hresume], fun hcs => hresume.trans (by rw [hcs])⟩
  · rw [eq_of_execChain_stop_resume h ht hu]
    exact ⟨rfl, rfl, rfl, rfl, rfl⟩

end Sys2Proof.Machine
end

section
/-! SUPPORT. The interrupt family's phases, where a request is dispatched, and that no command reads or writes `GIE`
(43_interrupt.md R190 to R192). -/

namespace Sys2Proof.Machine

/-- With `IE = 1` every latched bottom event is a request (60_exceptions.md R224). -/
theorem irq_of_ie_set {s : State} (h : s.ie = true) : s.irq = s.evtPending := by simp [State.irq, h]

/-- With the interrupt masked, at the block or at the platform, no dispatch is enabled (60_exceptions.md R225). -/
theorem dispatch_disabled_of_masked {s : State} (h : s.ie = false ∨ s.gie = false) :
    enabled .dispatch s = false := by
  rcases h with hie | hgie
  · simp [enabled, State.dispatchEnabled, State.irq, hie]
  · simp [enabled, State.dispatchEnabled, hgie]

/-- The effects of `ATTACH_INTERRUPT`'s phases after those of its period (43_interrupt.md R190). -/
def attachEffects (cb : Option HandlerId) : List (State → State) := [phaseAT1 cb, phaseAT2]

/-- The phases of `ATTACH_INTERRUPT` are the period's, then its own. -/
theorem phasesOf_attach (cb : Option HandlerId) (period : Option Micros) :
    phasesOf (.attachInterrupt cb period) = (periodEffects period ++ attachEffects cb).map Phase.plain := by
  cases period <;> rfl

/-- `ATTACH_INTERRUPT` from its issue to its completion (43_interrupt.md R190). -/
theorem execChain_attach (cb : Option HandlerId) (period : Option Micros) {s : State}
    (h : s.issueEnabled = true) :
    execChain ((periodEffects period ++ attachEffects cb).length + 1) (.attachInterrupt cb period) s =
      .next { effects (periodEffects period) s with
        slot := cb
        ie := true
        history := .complete s.stack.topId (.attachInterrupt cb period) ::
          .issue s.stack.topId (.attachInterrupt cb period) :: s.history } := by
  rw [execChain_plain_phases (phasesOf_attach cb period) (by simp [attachEffects]) rfl h, effects_append]
  rfl

/-- `DETACH_INTERRUPT` from its issue to its completion (43_interrupt.md R191). -/
theorem execChain_detach {s : State} (h : s.issueEnabled = true) :
    execChain 2 .detachInterrupt s = .next { s with
      ie := false
      history := .complete s.stack.topId .detachInterrupt :: .issue s.stack.topId .detachInterrupt :: s.history } :=
  execChain_plain_phases (fs := [phaseDT1]) rfl (List.cons_ne_nil _ _) rfl h

/-- What `DETACH_INTERRUPT` leaves behind. -/
theorem eq_of_execChain_detach {s t : State} (h : s.issueEnabled = true)
    (ht : execChain 2 .detachInterrupt s = .next t) : t = { s with ie := false, history := t.history } := by
  obtain rfl := Host.Outcome.next.inj ((execChain_detach h).symm.trans ht)
  rfl

/-- After `ATTACH_INTERRUPT` an event latched before is a request (70_reset_and_hazards.md R262). -/
theorem irq_of_execChain_attach {s t : State} {cb : Option HandlerId} (h : s.issueEnabled = true)
    (ht : execChain 3 (.attachInterrupt cb none) s = .next t) : t.irq = s.evtPending := by
  obtain rfl := Host.Outcome.next.inj ((execChain_attach cb none h).symm.trans ht)
  exact irq_of_ie_set rfl

/-- Ticks do not write `IE`, `SLOT` and the context stack. -/
theorem ticks_keep_interrupt (s : State) (n : Nat) :
    (s.ticks n).ie = s.ie ∧ (s.ticks n).slot = s.slot ∧ (s.ticks n).stack = s.stack := by
  rw [ticks_frame]
  exact ⟨rfl, rfl, rfl⟩

/-- RD3 does not read `GIE`. -/
theorem deliverResult_setGie (s : State) (s1 s2 : Half) (v : Bool) :
    (s.setGie v).deliverResult s1 s2 = (s.deliverResult s1 s2).setGie v := by
  unfold State.deliverResult State.takeTicks
  rw [State.setGie_top]
  cases elapsedTicks s1.toNat s2.toNat s.top.toNat <;> rfl

/-- No phase reads `GIE`, in its condition or in what it writes (43_interrupt.md R192). -/
theorem phaseAt_setGie {i : Instr} {k : Nat} {p : Phase} (h : PhaseAt i k p) (l : Locals) (s : State) (v : Bool) :
    p.ready l (s.setGie v) = p.ready l s ∧ p.run l (s.setGie v) = ((p.run l s).1, (p.run l s).2.setGie v) := by
  cases h
  case rd3 =>
    refine ⟨rfl, ?_⟩
    rcases l with ⟨_ | s1, _ | s2⟩
    · rfl
    · rfl
    · rfl
    · exact congrArg (Prod.mk _) (deliverResult_setGie s s1 s2 v)
  all_goals exact ⟨rfl, rfl⟩

/-- The sequencer's step does not read `GIE`. -/
theorem runPhase_setGie (s : State) (b : Busy) (v : Bool) :
    (s.setGie v).runPhase b.cmd (phasesOf b.cmd) b = (s.runPhase b.cmd (phasesOf b.cmd) b).setGie v := by
  unfold State.runPhase
  cases hp : (phasesOf b.cmd)[b.k]? with
  | none => rfl
  | some p =>
    obtain ⟨hready, hrun⟩ := phaseAt_setGie (phaseAt_of_getElem? hp) b.locals s v
    simp only [hready, hrun, State.advance]
    split
    · split <;> rfl
    · rfl

/-- No command reads `GIE` (43_interrupt.md R192). -/
theorem exec_setGie {i : Instr} {s t : State} (h : exec i s = .next t) (v : Bool) :
    exec i (s.setGie v) = .next (t.setGie v) := by
  have hbusy : (s.setGie v).topBusy = s.topBusy := rfl
  have hissue : (s.setGie v).issueEnabled = s.issueEnabled := rfl
  rw [exec_eq_runCommand, runCommand] at h ⊢
  rw [hbusy, hissue]
  cases hb : s.topBusy with
  | none =>
    simp only [hb] at h ⊢
    split at h
    · next he => rw [if_pos he, ← Host.Outcome.next.inj h]; rfl
    · next he => rw [if_neg he, Host.Outcome.next.inj h]
  | some b =>
    simp only [hb] at h ⊢
    split at h
    · next hc => subst hc; rw [if_pos rfl, runPhase_setGie, Host.Outcome.next.inj h]
    · next hc => rw [if_neg hc, Host.Outcome.next.inj h]

/-- No command writes `GIE` (43_interrupt.md R192). -/
theorem exec_keeps_gie {i : Instr} {s t : State} (h : exec i s = .next t) : t.gie = s.gie := by
  rcases exec_cases i s with ⟨-, e⟩ | ⟨b, -, rfl, e⟩ | e <;> obtain rfl := Host.Outcome.next.inj (e.symm.trans h)
  · rfl
  · exact (runPhase_keeps_gie s b).1
  · rfl

end Sys2Proof.Machine
end

section
/-! Proofs about the interrupt family (43_interrupt.md R190 to R192). -/

namespace Sys2Proof.Machine

/-- Settles O30: the period's phases by their index, the others by their index after those of the period. -/
theorem attachStoresTheCallbackThenEnables : Obligations.AttachStoresTheCallbackThenEnables := by
  refine fun cb s l => ⟨fun us => ?_, fun period k hk => ?_⟩
  · exact ⟨fun h => exec_plain_mid (phaseSP1 us) h rfl (by decide : 1 < 4),
      fun h => exec_plain_mid phaseSP2 h rfl (by decide : 2 < 4)⟩
  · rw [← length_periodEffects] at hk
    subst hk
    have hattach := phasesOf_attach cb period
    exact ⟨exec_mid_after (j := 0) hattach rfl (by decide : 1 < 2),
      fun h => ⟨exec_last_after (j := 1) hattach rfl (by decide : 2 ≤ 2) h, irq_of_ie_set rfl⟩⟩

/-- Settles O31: `DETACH_INTERRUPT` writes `IE` and the history alone, on which what a tick does to the counter and
the event flag does not depend. -/
theorem detachStopsOnlyTheNotification : Obligations.DetachStopsOnlyTheNotification := by
  refine ⟨decode_encode (i := .detachInterrupt) rfl, fun s l h => exec_plain_last phaseDT1 h rfl (Nat.le_refl 1),
    fun s t h ht => ?_⟩
  have hdetach := eq_of_execChain_detach h ht
  have haccepts : t.issueEnabled = true := by rw [hdetach]; exact h
  have hie : t.ie = false := by rw [hdetach]
  have hslot : t.slot = s.slot := by rw [hdetach]
  refine ⟨hdetach, fun u hu => ?_, fun n => ?_⟩
  · have hagain := eq_of_execChain_detach haccepts hu
    rwa [← hie] at hagain
  · obtain ⟨hieN, hslotN, hstackN⟩ := ticks_keep_interrupt t n
    obtain ⟨hcnt, hevt⟩ :=
      ticks_congr n t s (by rw [hdetach]) (by rw [hdetach]) (by rw [hdetach]) (by rw [hdetach])
    have hacceptsN : (t.ticks n).issueEnabled = true := by rwa [State.issueEnabled, hstackN]
    exact ⟨hieN.trans hie, hslotN.trans hslot, dispatch_disabled_of_masked (.inl (hieN.trans hie)), hcnt, hevt,
      fun cb u hu => irq_of_execChain_attach hacceptsN hu⟩

/-- Settles O38: no phase reads or writes `GIE`, and neither does the acceptance of a command. -/
theorem noCommandReadsOrWritesGie : Obligations.NoCommandReadsOrWritesGie := by
  obtain ⟨-, acceptsMain, acceptsIsr, -⟩ := issuedCommandWaitsAtItsFirstPhase
  exact ⟨fun i s t v h => ⟨exec_keeps_gie h, exec_setGie h v⟩,
    fun i s hisrs hmain => exec_issue i s ((acceptsMain s hisrs).mpr hmain),
    fun i s c below hisrs hb hh hd => exec_issue i s ((acceptsIsr s c below hisrs).mpr ⟨hb, hh, hd⟩),
    fun s hgie => dispatch_disabled_of_masked (.inr hgie)⟩

end Sys2Proof.Machine
end

section
/-! SUPPORT. The elapsed ticks of `READ` and its phases (44_readback.md R200, R201). -/

namespace Sys2Proof.Machine

/-- Ascending: the ticks are the first sample (44_readback.md R200). -/
theorem elapsedTicks_of_ascending {s1 s2 top : Nat} (h : s1 < s2) : elapsedTicks s1 s2 top = some s1 := if_pos h

/-- Descending: the ticks are the whole ascent and the descent so far (44_readback.md R200). -/
theorem elapsedTicks_of_descending {s1 s2 top : Nat} (h : s2 ≤ s1) (ht : s2 ≤ 2 * top) :
    elapsedTicks s1 s2 top = some (2 * top - s2) := by
  rw [elapsedTicks, if_neg (Nat.not_lt.mpr h), if_pos ht]

/-- Descending after an overshoot, above twice the top value, the source gives no ticks (44_readback.md R201 (c)). -/
theorem elapsedTicks_of_overshoot {s1 s2 top : Nat} (h : s2 ≤ s1) (ht : 2 * top < s2) :
    elapsedTicks s1 s2 top = none := by
  rw [elapsedTicks, if_neg (Nat.not_lt.mpr h), if_neg (Nat.not_le.mpr ht)]

/-- The ticks, where they are defined, are the first sample or at most two ascents (44_readback.md R203). -/
theorem elapsedTicks_le {s1 s2 top n : Nat} (h : elapsedTicks s1 s2 top = some n) : n ≤ max s1 (2 * top) := by
  rcases Nat.lt_or_ge s1 s2 with hup | hdown
  · cases (elapsedTicks_of_ascending hup).symm.trans h
    omega
  · rcases Nat.lt_or_ge (2 * top) s2 with hover | htop
    · cases (elapsedTicks_of_overshoot hdown hover).symm.trans h
    · cases (elapsedTicks_of_descending hdown htop).symm.trans h
      omega

/-- With defined ticks RD3 writes the history alone. -/
theorem deliverResult_of_ticks {s : State} {s1 s2 : Half} {n : Nat}
    (h : elapsedTicks s1.toNat s2.toNat s.top.toNat = some n) :
    s.deliverResult s1 s2 = s.emit (.result s.stack.topId (readResult s.params n (ratio s.psSel))) := by
  rw [State.deliverResult, State.takeTicks, h]

/-- Without defined ticks RD3 draws them, and writes the history (log 10). -/
theorem deliverResult_of_draw {s : State} {s1 s2 : Half}
    (h : elapsedTicks s1.toNat s2.toNat s.top.toNat = none) :
    s.deliverResult s1 s2 = { s with draws := s.draws + 1 }.emit
      (.result s.stack.topId (readResult s.params (Config.freeTicks s.draws) (ratio s.psSel))) := by
  rw [State.deliverResult, State.takeTicks, h]

/-- The step of a command in progress whose next phase is not held and not its last. -/
theorem exec_ready_mid {s : State} {i : Instr} {k : Nat} {l : Locals} {p : Phase}
    (hb : s.topBusy = some ⟨i, k, l⟩) (hp : (phasesOf i)[k]? = some p) (hr : p.ready l s = true)
    (hk : k + 1 < (phasesOf i).length) :
    exec i s = .next ((p.run l s).2.setTopBusy (some ⟨i, k + 1, (p.run l s).1⟩)) := by
  rw [exec_phase _ s hb]
  simp [State.runPhase, State.advance, hp, hr, hk]

/-- RD2 is held exactly while the counter is at the first sample (44_readback.md R200). -/
theorem phaseRD2_ready_iff {s : State} {l : Locals} {v : Half} (hl : l.s1 = some v) :
    phaseRD2.ready l s = true ↔ s.cnt ≠ v := by
  simp [phaseRD2, hl]

/-- RD2 is held at the first sample. -/
theorem phaseRD2_held {s : State} {l : Locals} (hl : l.s1 = some s.cnt) : phaseRD2.ready l s = false := by
  rw [← Bool.not_eq_true, phaseRD2_ready_iff hl, not_not]

/-- `READ` between its samples is held while the counter has not changed. -/
theorem read_phase_disabled {s : State} {l : Locals} (hb : s.topBusy = some ⟨.read, 1, l⟩)
    (hl : l.s1 = some s.cnt) : s.phaseEnabled = false := by
  unfold State.phaseEnabled
  rw [hb]
  exact phaseRD2_held hl

/-- `READ` between its samples makes no step while the counter has not changed. -/
theorem takeMove_phase_read_held {s : State} {l : Locals} (hb : s.topBusy = some ⟨.read, 1, l⟩)
    (hl : l.s1 = some s.cnt) : takeMove .phase s = .next s := by
  rw [takeMove_phase hb, runPhase_held (p := phaseRD2) rfl (phaseRD2_held hl)]

/-- `READ` with both samples delivers its result and completes. -/
theorem exec_read_completes {s : State} {s1 s2 : Half}
    (hb : s.topBusy = some ⟨.read, 2, ⟨some s1, some s2⟩⟩) :
    exec .read s = .next ((s.deliverResult s1 s2).complete .read) := by
  have hrun : s.runPhase .read readPhases ⟨.read, 2, ⟨some s1, some s2⟩⟩ = _ :=
    runPhase_last (p := phaseRD3) rfl rfl (Nat.le_refl 3)
  exact (exec_phase _ s hb).trans (congrArg _ hrun)

/-- From the bottom the counter is a triangle, cycle after cycle (42_run_state.md R170). -/
theorem cnt_ticks {s : State} (hcnt : s.cnt = 0) (hdir : s.dir = .up) (htop : 1 ≤ s.top.toNat) (k : Nat) :
    (s.ticks k).cnt.toNat = min (k % (2 * s.top.toNat)) (2 * s.top.toNat - k % (2 * s.top.toNat)) := by
  rw [ticks_eq_rest_of_cycle hcnt hdir htop]
  exact cnt_ticks_of_lt_cycle (s := s.bottoms _) hcnt hdir (Nat.mod_lt k (by omega))

end Sys2Proof.Machine
end

section
/-! SUPPORT. Every move keeps the contexts legal and the handler ids nonzero (60_exceptions.md R226, R229, R236,
10_state.md R35, R41). -/

namespace Sys2Proof.Machine

/-- A legal interrupt context with another command in progress, none where its callback is done. -/
theorem IsrContext.Legal.withBusy {c : IsrContext} (h : c.Legal) {b : Option Busy}
    (hb : c.cbDone = true → b = none) : ({ c with busy := b } : IsrContext).Legal :=
  ⟨h.saved, h.noHandler, hb⟩

/-- A write of the top context's `busy` keeps the contexts legal, where a top context whose callback is done stays
idle. -/
theorem legal_setTopBusy {c : ContextStack} {b : Option Busy} (h : ∀ x ∈ c.isrs, x.Legal)
    (hb : ∀ y ys, c.isrs = y :: ys → y.cbDone = true → b = none) : ∀ x ∈ (c.setTopBusy b).isrs, x.Legal := by
  intro x hx
  rcases mem_isrs_setTopBusy hx with hx | ⟨y, ys, hc, rfl⟩
  · exact h x hx
  · exact (h y (hc ▸ List.mem_cons_self)).withBusy (hb y ys hc)

/-- An interrupt context that accepts a command has a callback that is not done (60_exceptions.md R236). -/
theorem cbDone_of_issueEnabled {s : State} {c : IsrContext} {cs : List IsrContext} (h : s.issueEnabled = true)
    (hs : s.stack.isrs = c :: cs) : c.cbDone = false := by
  simp only [State.issueEnabled, ContextStack.accepts, hs, Bool.and_eq_true, Bool.not_eq_true'] at h
  exact h.2

/-- The `busy` of the interrupt context on top. -/
theorem topBusy_of_isrs {s : State} {c : IsrContext} {cs : List IsrContext} (hs : s.stack.isrs = c :: cs) :
    s.topBusy = c.busy := by
  rw [State.topBusy, ContextStack.topBusy, hs]

/-- The interrupt context that a dispatch pushes is legal (60_exceptions.md R226). -/
theorem newIsr_legal {s : State} (hg : s.gie = true) : s.newIsr.Legal :=
  ⟨hg, fun hh => Option.isNone_iff_eq_none.mpr hh, fun _ => rfl⟩

/-- Every move keeps the interrupt contexts legal. -/
theorem legal_move {s t : State} (h : ∀ c ∈ s.stack.isrs, c.Legal) (hm : StackMove s t) :
    ∀ c ∈ t.stack.isrs, c.Legal := by
  cases hm with
  | same ht => rwa [ht]
  | issue i he _ ht =>
    rw [ht]
    exact legal_setTopBusy h fun c cs hs hd => by simp [cbDone_of_issueEnabled he hs] at hd
  | finish b _ ht =>
    rw [ht]
    exact legal_setTopBusy h fun _ _ _ _ => rfl
  | next b p hb _ _ _ ht =>
    rw [ht]
    refine legal_setTopBusy h fun c cs hs hd => ?_
    have hidle := (h c (hs ▸ List.mem_cons_self)).done hd
    simp [topBusy_of_isrs hs, hidle] at hb
  | push _ hg ht =>
    rw [ht]
    exact List.forall_mem_cons.mpr ⟨newIsr_legal hg, h⟩
  | pop c cs hs _ _ ht =>
    rw [ht]
    exact (List.forall_mem_cons.mp (hs ▸ h)).2
  | done c cs hs hb ht =>
    obtain ⟨hc, hcs⟩ := List.forall_mem_cons.mp (hs ▸ h)
    rw [ht]
    exact List.forall_mem_cons.mpr ⟨⟨hc.saved, fun _ => rfl, fun _ => hb⟩, hcs⟩

/-- Every move keeps the contexts legal, and every phase pointer at a phase of its command. -/
theorem contextInv_move {m : Move} {s t : State} (h : ContextInv s) (hm : takeMove m s = .next t) :
    ContextInv t where
  legal := legal_move h.legal (stack_move hm)
  pointers b hb := by
    rcases busies_move (stack_move hm) hb with hold | ⟨i, -, rfl⟩ | ⟨b', p, -, -, -, hk, rfl⟩
    · exact h.pointers b hold
    · rcases Nat.eq_zero_or_pos (phasesOf i).length with h0 | hpos
      · exact .inr ⟨List.length_eq_zero_iff.mp h0, rfl⟩
      · exact .inl hpos
    · exact .inl hk

/-- A handler of an interrupt context after a move was one before, or is the slot's (60_exceptions.md R226). -/
theorem handler_move {s t : State} (hm : StackMove s t) {c : IsrContext} (hc : c ∈ t.stack.isrs) :
    (∃ d ∈ s.stack.isrs, c.handler = d.handler) ∨ c.handler = s.slot := by
  have written : ∀ b, c ∈ (s.stack.setTopBusy b).isrs → ∃ d ∈ s.stack.isrs, c.handler = d.handler := by
    intro b hc
    rcases mem_isrs_setTopBusy hc with hc | ⟨d, ds, hs, rfl⟩
    · exact ⟨c, hc, rfl⟩
    · exact ⟨d, hs ▸ List.mem_cons_self, rfl⟩
  cases hm with
  | same ht => exact .inl ⟨c, ht ▸ hc, rfl⟩
  | issue i _ _ ht => exact .inl (written _ (ht ▸ hc))
  | finish b _ ht => exact .inl (written _ (ht ▸ hc))
  | next b p _ _ _ _ ht => exact .inl (written _ (ht ▸ hc))
  | push _ _ ht =>
    rw [ht] at hc
    rcases List.mem_cons.mp hc with rfl | hc
    · exact .inr rfl
    · exact .inl ⟨c, hc, rfl⟩
  | pop d ds hs _ _ ht =>
    rw [ht] at hc
    exact .inl ⟨c, hs ▸ List.mem_cons_of_mem _ hc, rfl⟩
  | done d ds hs _ ht =>
    rw [ht] at hc
    rw [hs]
    rcases List.mem_cons.mp hc with rfl | hc
    · exact .inl ⟨d, List.mem_cons_self, rfl⟩
    · exact .inl ⟨c, List.mem_cons_of_mem _ hc, rfl⟩

/-- Every move keeps that no handler id 0 is stored anywhere (10_state.md R35). -/
theorem handlerInv_move {m : Move} {s t : State} (h : HandlerInv s) (hm : takeMove m s = .next t) :
    HandlerInv t where
  slot := by
    by_cases hslot : t.slot = s.slot
    · rw [hslot]; exact h.slot
    · obtain ⟨-, b, cb, q, hb, hcmd, ht⟩ := slot_writers hm hslot
      have hwf := h.commands b (top_mem_busies hb)
      rw [hcmd] at hwf
      rw [ht]
      exact bne_iff_ne.mp hwf
  handlers c hc := by
    rcases handler_move (stack_move hm) hc with ⟨d, hd, e⟩ | e
    · rw [e]; exact h.handlers d hd
    · rw [e]; exact h.slot
  commands b hb := by
    rcases busies_move (stack_move hm) hb with hold | ⟨i, hwf, rfl⟩ | ⟨b', p, htop, -, -, -, rfl⟩
    · exact h.commands b hold
    · exact hwf
    · exact h.commands b' (top_mem_busies htop)

end Sys2Proof.Machine
end

section
/-! Proof of the invariant of `READ`, and with it of all the invariants together (44_readback.md R205, 10_state.md
R46). -/

namespace Sys2Proof.Machine

/-- A `READ` in progress has the samples its next phase needs, the second one different from the first
(44_readback.md R200). -/
structure Busy.Sampled (b : Busy) : Prop where
  first : 1 ≤ b.k → b.locals.s1.isSome = true
  second : 2 ≤ b.k → b.locals.s2.isSome = true ∧ b.locals.s1 ≠ b.locals.s2

/-- A `READ` in progress that has sampled nothing but a counter at 0 (44_readback.md R205). -/
def Busy.WaitsAtZero (b : Busy) : Prop := 1 ≤ b.k → b.k < 2 ∧ b.locals.s1 = some 0

/-- The samples after a phase of `READ` that is not its last: RD1 takes the first, and RD2 a different one. -/
theorem Busy.Sampled.next {k : Nat} {l : Locals} {p : Phase} {s : State} (h : (⟨.read, k, l⟩ : Busy).Sampled)
    (hp : PhaseAt .read k p) (hr : p.ready l s = true) (hk : k + 1 < 3) :
    (⟨.read, k + 1, (p.run l s).1⟩ : Busy).Sampled := by
  cases hp with
  | sp1 hp => cases hp
  | sp2 hp => cases hp
  | rd1 => exact ⟨fun _ => rfl, fun h2 => absurd h2 (by decide : ¬ 2 ≤ 1)⟩
  | rd2 =>
    obtain ⟨v, hv⟩ := Option.isSome_iff_exists.mp (h.first (Nat.le_refl 1))
    have hne : s.cnt ≠ v := (phaseRD2_ready_iff hv).mp hr
    refine ⟨fun _ => h.first (Nat.le_refl 1), fun _ => ⟨rfl, fun heq => hne ?_⟩⟩
    exact (Option.some.inj (hv.symm.trans heq)).symm
  | rd3 => omega

/-- While the counter is at 0, a `READ` that has sampled nothing else goes on to its wait alone. -/
theorem Busy.WaitsAtZero.next {k : Nat} {l : Locals} {p : Phase} {s : State}
    (h : (⟨.read, k, l⟩ : Busy).WaitsAtZero) (hp : PhaseAt .read k p) (hr : p.ready l s = true)
    (hzero : s.cnt = 0) : (⟨.read, k + 1, (p.run l s).1⟩ : Busy).WaitsAtZero := by
  cases hp with
  | sp1 hp => cases hp
  | sp2 hp => cases hp
  | rd1 => exact fun _ => ⟨Nat.one_lt_two, congrArg some hzero⟩
  | rd2 => exact absurd hzero ((phaseRD2_ready_iff (h (Nat.le_refl 1)).2).mp hr)
  | rd3 => exact absurd (h one_le_two).1 (Nat.lt_irrefl 2)

/-- What holds of every `READ` in progress holds after a move, where it holds of one just issued and the next phase
of `READ` keeps it. -/
theorem read_busies_move {m : Move} {s t : State} {P : Busy → Prop} (hm : takeMove m s = .next t)
    (h : ∀ b, some b ∈ s.stack.busies → b.cmd = .read → P b) (hissue : P ⟨.read, 0, Locals.empty⟩)
    (hnext : ∀ k l p, P ⟨.read, k, l⟩ → PhaseAt .read k p → p.ready l s = true → k + 1 < 3 →
      P ⟨.read, k + 1, (p.run l s).1⟩) :
    ∀ b, some b ∈ t.stack.busies → b.cmd = .read → P b := by
  intro b hb hread
  rcases busies_move (stack_move hm) hb with hold | ⟨i, -, rfl⟩ | ⟨⟨i, k, l⟩, p, htop, hp, hr, hk, rfl⟩
  · exact h b hold hread
  · obtain rfl : i = .read := hread
    exact hissue
  · obtain rfl : i = .read := hread
    exact hnext k l p (h _ (top_mem_busies htop) rfl) (phaseAt_of_getElem? hp) hr hk

/-- `PS_SEL` never becomes 0 (10_state.md R27). -/
theorem psSel_eq_zero_before {m : Move} {s t : State} (hm : takeMove m s = .next t) (h0 : t.psSel = 0) :
    s.psSel = 0 := by
  by_contra hne
  obtain ⟨hw, -⟩ := onlyPeriodPhasesWriteTopAndPrescaler m s t hm
  obtain ⟨-, -, h1, -⟩ := hw (.inr fun e => hne (e.symm.trans h0))
  simp [h0] at h1

/-- Without a selected prescaler the counter stays at 0: no clock is connected, and ST3 writes 0. -/
theorem cnt_eq_zero_move {m : Move} {s t : State} (hclock : ClockInv s) (hsel : s.psSel = 0) (hc : s.cnt = 0)
    (hm : takeMove m s = .next t) : t.cnt = 0 := by
  by_cases hw : t.cnt = s.cnt
  · rw [hw, hc]
  · obtain ⟨-, -, hconnected⟩ := hclock
    rcases onlyTicksAndStartWriteTheCounter m s t hm (.inl hw) with ⟨-, hcs⟩ | ⟨-, -, hzero, -⟩
    · exact absurd hsel (hconnected hcs)
    · exact hzero

/-- Every move from a state with a legal clock keeps the invariant of `READ`. -/
theorem readInv_move {m : Move} {s t : State} (h : ReadInv s) (hclock : ClockInv s)
    (hm : takeMove m s = .next t) : ReadInv t := by
  have hsampled : ∀ b, some b ∈ t.stack.busies → b.cmd = .read → b.Sampled :=
    read_busies_move hm (fun b hb hr => ⟨h.sampled b hb hr, h.changed b hb hr⟩)
      ⟨fun hk => absurd hk (by decide), fun hk => absurd hk (by decide)⟩
      fun _ _ _ hs hp hr hk => hs.next hp hr hk
  refine ⟨fun b hb hr => (hsampled b hb hr).first, fun b hb hr => (hsampled b hb hr).second, fun h0 => ?_,
    fun h0 => ?_⟩
  · have hsel := psSel_eq_zero_before hm h0
    exact cnt_eq_zero_move hclock hsel (h.stillZero hsel) hm
  · have hsel := psSel_eq_zero_before hm h0
    exact read_busies_move (P := Busy.WaitsAtZero) hm (h.noPrescaler hsel) (fun hk => absurd hk (by decide))
      fun _ _ _ hw hp hr _ => hw.next hp hr (h.stillZero hsel)

/-- Every move keeps all the invariants. -/
theorem inv_move {m : Move} {s t : State} (h : Inv s) (hm : takeMove m s = .next t) : Inv t where
  registers := registerInv_move h.registers hm
  handlers := handlerInv_move h.handlers hm
  contexts := contextInv_move h.contexts hm
  start := startInv_move h.start hm
  read := readInv_move h.read h.registers.clock hm

/-- The invariants do not speak of the schedule or the draws. -/
theorem Inv.withScheduleDraws {s : State} (h : Inv s) (l : List Move) (d : Nat) :
    Inv { s with schedule := l, draws := d } where
  registers := ⟨h.registers.counter, h.registers.clock, h.registers.channels⟩
  handlers := ⟨h.handlers.slot, h.handlers.handlers, h.handlers.commands⟩
  contexts := ⟨h.contexts.legal, h.contexts.pointers⟩
  start := ⟨h.start.masked, h.start.onTop⟩
  read := ⟨h.read.sampled, h.read.changed, h.read.stillZero, h.read.noPrescaler⟩

/-- A prescaler that is selected has one of the ratios of `PRESCALERS` (10_state.md R27). -/
theorem ratio_mem_of_selected {s : State} (h : ClockInv s) (hsel : s.psSel ≠ 0) :
    ratio s.psSel ∈ [1, 8, 64, 256, 1024] := by
  have hpos : 1 ≤ s.psSel.toNat := Nat.pos_of_ne_zero fun h0 => hsel (BitVec.eq_of_toNat_eq h0)
  simpa using ratio_cases s.psSel hpos h.1

/-- Settles O56: every move keeps every invariant, and that of `READ` says what its last phase computes with. -/
theorem readComputesWithASelectedPrescaler : Obligations.ReadComputesWithASelectedPrescaler := by
  refine ⟨fun s t h hstep => ?_, fun s h ⟨l, hb⟩ => ?_⟩
  · obtain ⟨m, sched, d, hm⟩ := takeMove_of_step hstep
    exact inv_move (h.withScheduleDraws sched d) hm
  · have hmem := top_mem_busies hb
    have hsel : s.psSel ≠ 0 := fun h0 =>
      absurd (h.read.noPrescaler h0 _ hmem rfl one_le_two).1 (Nat.lt_irrefl 2)
    obtain ⟨v1, hv1⟩ := Option.isSome_iff_exists.mp (h.read.sampled _ hmem rfl one_le_two)
    obtain ⟨hsome, hne⟩ := h.read.changed _ hmem rfl (Nat.le_refl 2)
    obtain ⟨v2, hv2⟩ := Option.isSome_iff_exists.mp hsome
    exact ⟨hsel, ratio_mem_of_selected h.registers.clock hsel, l, v1, v2, hb, hv1, hv2,
      fun e => hne (by rw [hv1, hv2, e])⟩

end Sys2Proof.Machine
end

section
/-! Proofs about the elapsed-time readback (44_readback.md R200 to R205). -/

namespace Sys2Proof.Machine

/-- `READ` waits between its samples, with no dispatch possible, for a counter that cannot leave the value `v`. -/
structure StuckRead (l : Locals) (v : Half) (s : State) : Prop where
  waiting : s.topBusy = some ⟨.read, 1, l⟩
  masked : s.ie = false ∨ s.gie = false
  sampled : l.s1 = some s.cnt
  unchanged : s.cnt = v
  noCount : s.csActive = 0 ∨ (s.top = 0 ∧ s.cnt = 0)

/-- Every move keeps a stuck `READ`: the phase is held, no dispatch comes, and a tick does not count. -/
theorem StuckRead.move {l : Locals} {v : Half} {m : Move} {s t : State} (h : StuckRead l v s)
    (hm : takeMove m s = .next t) : StuckRead l v t := by
  obtain ⟨hb, hmask, hl, hv, hno⟩ := id h
  have hbusy : s.topBusy ≠ none := by simp [hb]
  rcases held_move hbusy (read_phase_disabled hb hl) hmask hm with e | ⟨-, hcs, e⟩
  · rwa [e]
  · obtain ⟨htop, hc⟩ := hno.resolve_left hcs
    rw [e, tick_of_zero_top_zero hc htop]
    exact ⟨hb, hmask, hl, hv, hno⟩

/-- Settles O44: every move keeps a stuck `READ`, so every list of moves does. -/
theorem readNeverCompletesOnAStandingCounter : Obligations.ReadNeverCompletesOnAStandingCounter := by
  intro s t l ms hb hl hmask hno hr
  obtain ⟨hb', -, hl', hv, -⟩ :=
    runMoves_keeps (fun _ _ _ h hm => StuckRead.move h hm) ⟨hb, hmask, hl, rfl, hno⟩ hr
  exact ⟨hb', hv, by simp [hb'], read_phase_disabled hb' hl'⟩

/-- Settles O42: below the top value the next tick counts up, from there on it counts down. -/
theorem readTicksGrowThroughTheCycle : Obligations.ReadTicksGrowThroughTheCycle := by
  intro s k hcnt hdir htop
  have hlt : k % (2 * s.top.toNat) < 2 * s.top.toNat := Nat.mod_lt k (by omega)
  have hfirst := cnt_ticks hcnt hdir htop k
  have hsecond := cnt_ticks hcnt hdir htop (k + 1)
  rw [← Nat.mod_add_mod] at hsecond
  generalize k % (2 * s.top.toNat) = m at hlt hfirst hsecond ⊢
  by_cases hup : m < s.top.toNat
  · rw [Nat.mod_eq_of_lt (by omega)] at hsecond
    rw [elapsedTicks_of_ascending (by omega), if_pos hup]
    exact congrArg some (by omega)
  · have hdown : (s.ticks (k + 1)).cnt.toNat = 2 * s.top.toNat - (m + 1) := by
      by_cases hend : m + 1 = 2 * s.top.toNat
      · rw [hend, Nat.mod_self] at hsecond
        omega
      · rw [Nat.mod_eq_of_lt (by omega)] at hsecond
        omega
    rw [elapsedTicks_of_descending (by omega) (by omega), if_neg hup]
    exact congrArg some (by omega)

/-- From 31250 Hz on no defined ticks at a selected prescaler convert to more than 32 bits (44_readback.md R203). -/
theorem ticksToUsExact_lt {n p clockHz : Nat} (hn : n ≤ 131070) (hp : p ≤ 1024) (hf : 31250 ≤ clockHz) :
    ticksToUsExact n p clockHz < 2 ^ 32 :=
  calc n * p * 1000000 / clockHz
    _ ≤ 131070 * 1024 * 1000000 / 31250 :=
      Nat.div_le_div (Nat.mul_le_mul_right _ (Nat.mul_le_mul hn hp)) hf (by decide)
    _ < 2 ^ 32 := by decide

/-- Settles O43: the ticks are at most `2 * 65535` and the ratio at most 1024, so the conversion fits 32 bits. -/
theorem readResultDoesNotWrap : Obligations.ReadResultDoesNotWrap := by
  intro par s1 s2 top code n hexact hclock h1 h5 hticks
  have hn : n ≤ 131070 := by
    have hle := elapsedTicks_le hticks
    have hs1 := s1.isLt
    have htop := top.isLt
    omega
  have hp : ratio code ≤ 1024 := by
    rcases ratio_cases code h1 h5 with e | e | e | e | e <;> rw [e] <;> decide
  have hconv : ticksToUs par n (ratio code) = ticksToUsExact n (ratio code) par.clockHz := by
    rw [ticksToUs, hexact]
  rw [readResult, BitVec.toNat_ofNat, hconv, Nat.mod_eq_of_lt (ticksToUsExact_lt hn hp hclock), ticksToUsExact]

/-- Settles O41: each phase by its index, the second by whether it is held, the last by the case of its ticks. -/
theorem readSamplesTwiceAndDeliversTheElapsedTime : Obligations.ReadSamplesTwiceAndDeliversTheElapsedTime := by
  intro s l s1 s2
  refine ⟨fun hb => exec_ready_mid (p := phaseRD1) hb rfl rfl (by decide : 1 < 3),
    fun hb hc => exec_ready_mid (p := phaseRD2) hb rfl ((phaseRD2_ready_iff rfl).mpr hc) (by decide : 2 < 3),
    fun hb hc => ?_, fun hb hup => ?_, fun hb hdown htop => ?_, fun hb hdown hover => ?_⟩
  · subst hc
    exact ⟨read_phase_disabled hb rfl, takeMove_phase_read_held hb rfl⟩
  · rw [exec_read_completes hb, deliverResult_of_ticks (elapsedTicks_of_ascending hup)]
    rfl
  · rw [exec_read_completes hb, deliverResult_of_ticks (elapsedTicks_of_descending hdown htop)]
    rfl
  · rw [exec_read_completes hb, deliverResult_of_draw (elapsedTicks_of_overshoot hdown hover)]
    rfl

end Sys2Proof.Machine
end

section
/-! SUPPORT. The outcome of a move, of an enabled interrupt entry, return or environment move, and of a move that is
not enabled (60_exceptions.md R221 to R229, R236). -/

namespace Sys2Proof.Machine

/-- A move answers a next state, or it issues a word that the decoder refuses and is refused (60_exceptions.md R220,
R221). -/
theorem takeMove_next_or_refused (m : Move) (s : State) :
    (∃ t, takeMove m s = .next t) ∨
    ∃ w e, (m = .issue w ∨ ∃ bytes, m = .deliver bytes ∧ wordOfBytes bytes = some w) ∧ decode w = .error e ∧
      takeMove m s = .refused (refusalOf e) := by
  have issued : ∀ w, (∃ t, issueMove w s = .next t) ∨
      ∃ e, decode w = .error e ∧ issueMove w s = .refused (refusalOf e) := by
    intro w
    unfold issueMove
    cases s.issueEnabled with
    | false => exact .inl ⟨s, rfl⟩
    | true =>
      cases decode w with
      | ok i => exact .inl (exec_next i s)
      | error e => exact .inr ⟨e, rfl, rfl⟩
  cases m with
  | phase =>
    cases hb : s.topBusy with
    | none => exact .inl ⟨s, by simp only [takeMove, phaseMove, hb]⟩
    | some b => exact .inl ⟨_, takeMove_phase hb⟩
  | issue w => exact (issued w).imp_right fun ⟨e, hd, he⟩ => ⟨w, e, .inl rfl, hd, he⟩
  | deliver bytes =>
    cases hw : wordOfBytes bytes with
    | none => exact .inl ⟨s, by simp only [takeMove, deliverMove, hw]⟩
    | some w =>
      rw [takeMove_deliver_eq_issue hw]
      exact (issued w).imp_right fun ⟨e, hd, he⟩ => ⟨w, e, .inr ⟨bytes, rfl, hw⟩, hd, he⟩
  | _ => exact .inl ⟨_, rfl⟩

/-- A sequencer's step that is not enabled changes nothing: no command is in progress, or its phase is held. -/
theorem takeMove_phase_disabled {s : State} (h : s.phaseEnabled = false) : takeMove .phase s = .next s := by
  unfold State.phaseEnabled at h
  cases hb : s.topBusy with
  | none => simp only [takeMove, phaseMove, hb]
  | some b =>
    cases hp : (phasesOf b.cmd)[b.k]? with
    | none => simp [hb, hp] at h
    | some p =>
      simp only [hb, hp] at h
      rw [takeMove_phase hb, runPhase_held hp h]

/-- A move that is not enabled changes nothing (log 3). -/
theorem takeMove_of_disabled {m : Move} {s : State} (h : enabled m s = false) : takeMove m s = .next s := by
  have notIssued : ∀ w, s.issueEnabled = false → issueMove w s = .next s := fun w h => by simp [issueMove, h]
  cases m with
  | phase => exact takeMove_phase_disabled h
  | issue w => exact notIssued w h
  | deliver bytes =>
    cases hw : wordOfBytes bytes with
    | none => simp only [takeMove, deliverMove, hw]
    | some w =>
      rw [takeMove_deliver_eq_issue hw]
      exact notIssued w (by simpa [enabled, hw] using h)
  | _ => exact congrArg Host.Outcome.next (if_neg (Bool.eq_false_iff.mp h))

/-- An enabled interrupt entry (60_exceptions.md R225). -/
theorem takeMove_dispatch {s : State} (hi : s.irq = true) (hg : s.gie = true) :
    takeMove .dispatch s = .next s.dispatch := by
  simp [takeMove, State.dispatchEnabled, hi, hg]

/-- The interrupt entry where it is enabled: the saved `GIE` is 1 (60_exceptions.md R226). -/
theorem dispatch_of_gie {s : State} (hg : s.gie = true) :
    s.dispatch = { s with
      evtPending := false
      gie := false
      stack := { s.stack with isrs := ⟨none, true, s.slot, s.slot.isNone⟩ :: s.stack.isrs }
      history := dispatchEvents s.slot ++ s.history } := by
  rw [State.dispatch, State.newIsr, hg]

/-- In an interrupt context `SET_GIE` is enabled while it is idle and its callback runs (60_exceptions.md R236). -/
theorem setGieEnabled_iff_of_isrs {s : State} {c : IsrContext} {below : List IsrContext}
    (hs : s.stack.isrs = c :: below) : s.setGieEnabled = true ↔ c.busy = none ∧ c.cbDone = false := by
  simp [State.setGieEnabled, ContextStack.topOpen, hs]

/-- `CB_DONE` is enabled while the interrupt context on top is idle and its callback runs (60_exceptions.md R236). -/
theorem cbDoneEnabled_iff_of_isrs {s : State} {c : IsrContext} {below : List IsrContext}
    (hs : s.stack.isrs = c :: below) : s.cbDoneEnabled = true ↔ c.busy = none ∧ c.cbDone = false := by
  simp [State.cbDoneEnabled, IsrContext.mayEndCallback, hs]

/-- The interrupt return is enabled when the interrupt context on top is idle and its callback is done
(60_exceptions.md R229). -/
theorem isrReturnEnabled_iff_of_isrs {s : State} {c : IsrContext} {below : List IsrContext}
    (hs : s.stack.isrs = c :: below) : s.isrReturnEnabled = true ↔ c.busy = none ∧ c.cbDone = true := by
  simp [State.isrReturnEnabled, IsrContext.mayReturn, hs]

/-- Without an interrupt context there is no interrupt return (60_exceptions.md R229). -/
theorem isrReturn_disabled_of_main {s : State} (hs : s.stack.isrs = []) : s.isrReturnEnabled = false := by
  rw [State.isrReturnEnabled, hs]

/-- The end of the callback of the interrupt context on top (60_exceptions.md R236). -/
theorem endCallback_of_isrs {s : State} {c : IsrContext} {below : List IsrContext} (hs : s.stack.isrs = c :: below) :
    s.endCallback = { s with stack := { s.stack with isrs := { c with cbDone := true } :: below } } := by
  rw [State.endCallback, hs]

/-- The return of the interrupt context on top (60_exceptions.md R229). -/
theorem isrReturn_of_isrs {s : State} {c : IsrContext} {below : List IsrContext} (hs : s.stack.isrs = c :: below) :
    s.isrReturn = { s with
      gie := c.savedGie
      stack := { s.stack with isrs := below }
      history := .isrReturn :: s.history } := by
  rw [State.isrReturn, hs]

/-- The state after an interrupt has been served by the handler `x`: the flag is cleared and the call is recorded. -/
def State.served (s : State) (x : HandlerId) : State :=
  { s with evtPending := false, history := .isrReturn :: .call x :: .dispatch (some x) :: s.history }

/-- Entry, the end of the callback and the return come back to the suspended state (60_exceptions.md R226, R229). -/
theorem runMoves_serve {ms : List Move} {s : State} {x : HandlerId} (hi : s.irq = true) (hg : s.gie = true)
    (hx : s.slot = some x) : runMoves (.dispatch :: .cbDone :: .isrReturn :: ms) s = runMoves ms (s.served x) := by
  have hentry : s.dispatch.stack.isrs = ⟨none, true, some x, false⟩ :: s.stack.isrs := by
    rw [dispatch_of_gie hg, hx]
    rfl
  have hend := endCallback_of_isrs hentry
  have hdone : s.dispatch.endCallback.stack.isrs = ⟨none, true, some x, true⟩ :: s.stack.isrs := by rw [hend]
  have hserved : s.dispatch.endCallback.isrReturn = s.served x := by
    rw [isrReturn_of_isrs hdone, hend, dispatch_of_gie hg, State.served, hx, hg]
    rfl
  rw [runMoves_dispatch hi hg, runMoves_cbDone ((cbDoneEnabled_iff_of_isrs hentry).mpr ⟨rfl, rfl⟩),
    runMoves_isrReturn ((isrReturnEnabled_iff_of_isrs hdone).mpr ⟨rfl, rfl⟩), hserved]

/-- Right after an interrupt has been served no event is pending, so no dispatch is enabled (60_exceptions.md R223). -/
theorem dispatch_disabled_served (s : State) (x : HandlerId) : enabled .dispatch (s.served x) = false := rfl

end Sys2Proof.Machine
end

section
/-! Proofs about exceptions: the outcomes of a step, the interrupt entry and return, and the environment's moves
(60_exceptions.md R220 to R236). -/

namespace Sys2Proof.Machine

/-- Settles O54: the invariants do not speak of the schedule or the draws, and every move keeps them. -/
theorem everyStepKeepsTheContextsLegal : Obligations.EveryStepKeepsTheContextsLegal := by
  intro s t hcontexts hhandlers hstep
  obtain ⟨m, l, d, hm⟩ := takeMove_of_step hstep
  have hcontexts' : ContextInv { s with schedule := l, draws := d } := ⟨hcontexts.legal, hcontexts.pointers⟩
  have hhandlers' : HandlerInv { s with schedule := l, draws := d } :=
    ⟨hhandlers.slot, hhandlers.handlers, hhandlers.commands⟩
  exact ⟨contextInv_move hcontexts' hm, handlerInv_move hhandlers' hm⟩

/-- Settles O7: a step is a move, and the only move without a next state issues a refused word. -/
theorem onlyARefusedWordStopsTheMachine : Obligations.OnlyARefusedWordStopsTheMachine := by
  refine ⟨exec_next, fun _ r => (nomatch r), fun s r hr => ?_⟩
  rcases takeMove_next_or_refused s.nextMove.1 s.nextMove.2 with ⟨t, ht⟩ | ⟨w, e, hm, hd, he⟩
  · cases hr.symm.trans ht
  · exact ⟨w, e, hd, Host.Outcome.refused.inj (hr.symm.trans he), hm⟩

/-- Settles O34. -/
theorem entryAndReturnResumeTheSuspendedContext : Obligations.EntryAndReturnResumeTheSuspendedContext :=
  fun _ _ hi hg hx => runMoves_serve hi hg hx

/-- Settles O35: the ticks latch one event, it is served, and then no dispatch is enabled. -/
theorem bottomEventsCoalesceIntoOneDispatch : Obligations.BottomEventsCoalesceIntoOneDispatch := by
  intro s x n hcs hie hg hx hevt
  obtain ⟨hie', hslot', hstack'⟩ := ticks_keep_interrupt s n
  have hg' : (s.ticks n).gie = true := by rw [ticks_frame]; exact hg
  have hirq : (s.ticks n).irq = true := (irq_of_ie_set (hie'.trans hie)).trans hevt
  refine ⟨(s.ticks n).served x, ?_, rfl, hstack', rfl, hg'⟩
  rw [runMoves_append (runMoves_ticks s n hcs), runMoves_serve hirq hg' (hslot'.trans hx),
    runMoves_cons (takeMove_of_disabled (dispatch_disabled_served _ x)), runMoves]

/-- Settles O32: the entry where it is enabled, by what `SLOT` holds. -/
theorem interruptEntrySavesMasksAndCalls : Obligations.InterruptEntrySavesMasksAndCalls := by
  refine fun s => ⟨Bool.and_eq_true_iff, Bool.and_eq_true_iff, fun hi hg => ⟨fun hslot => ?_, fun x hslot => ?_⟩⟩
  · rw [takeMove_dispatch hi hg, dispatch_of_gie hg, hslot]
    rfl
  · rw [takeMove_dispatch hi hg, dispatch_of_gie hg, hslot]
    rfl

/-- Settles O33: the return by the context on top, whose saved `GIE` is 1 where it is legal. -/
theorem interruptReturnPopsAndRestoresGie : Obligations.InterruptReturnPopsAndRestoresGie := by
  refine fun s => ⟨?_, fun c below hs hb hd => ?_⟩
  · cases hs : s.stack.isrs with
    | nil => simp [enabled, isrReturn_disabled_of_main hs]
    | cons c below => simp [enabled, isrReturnEnabled_iff_of_isrs hs]
  · refine ⟨s.isrReturn, ?_, isrReturn_of_isrs hs, fun hinv => ?_⟩
    · simp [takeMove, (isrReturnEnabled_iff_of_isrs hs).mpr ⟨hb, hd⟩]
    · have hsaved : c.savedGie = true := (hinv.legal c (hs ▸ List.mem_cons_self)).saved
      rw [isrReturn_of_isrs hs, hsaved]
      exact ⟨rfl, fun hi => Bool.and_eq_true_iff.mpr ⟨hi, rfl⟩⟩

/-- Settles O36: masked no dispatch is enabled, and once the callback sets `GIE` the entry pushes a context. -/
theorem nestedEntryNeedsTheCallbackToEnableGie : Obligations.NestedEntryNeedsTheCallbackToEnableGie := by
  intro s c below hs hb hd hi hg
  refine ⟨dispatch_disabled_of_masked (.inr hg), (s.setGie true).dispatch, ?_, ?_, rfl, rfl⟩
  · have hset : takeMove (.setGie true) s = .next (s.setGie true) := by
      simp [takeMove, (setGieEnabled_iff_of_isrs hs).mpr ⟨hb, hd⟩]
    rw [runMoves_cons hset, runMoves_dispatch (s := s.setGie true) hi rfl, runMoves]
  · rw [dispatch_of_gie rfl, State.setGie_stack, hs]
    rfl

/-- Settles O37: without an interrupt context, and by the interrupt context on top. -/
theorem environmentMovesChangeOnlyGieAndTheCallback : Obligations.EnvironmentMovesChangeOnlyGieAndTheCallback := by
  refine fun s => ⟨fun v hv => congrArg Host.Outcome.next (if_pos hv), fun m => takeMove_of_disabled,
    fun v hs => ?_, fun hs => ?_, fun c below hs => ⟨fun v => setGieEnabled_iff_of_isrs hs,
    cbDoneEnabled_iff_of_isrs hs, fun he => ?_⟩⟩
  · simp [enabled, State.setGieEnabled, ContextStack.topOpen, hs]
  · simp [enabled, State.cbDoneEnabled, hs]
  · rw [← endCallback_of_isrs hs]
    exact congrArg Host.Outcome.next (if_pos he)

end Sys2Proof.Machine
end

section
/-! Proof that only `START` and `READ` block, and with it the moves that run another command from its issue to its
completion (70_reset_and_hazards.md R258). -/

namespace Sys2Proof.Machine

/-- Only the phases of `READ` write locals. -/
theorem phaseAt_keeps_locals {i : Instr} {k : Nat} {p : Phase} (h : PhaseAt i k p) (hi : isBlocking i = false)
    (l : Locals) (s : State) : (p.run l s).1 = l := by
  cases h
  case rd1 | rd2 | rd3 => exact absurd hi (by decide)
  all_goals rfl

/-- Settles O57, by what a sequencer's step can do: it is not held, and it keeps the locals and the history. -/
theorem onlyStartAndReadBlock : Obligations.OnlyStartAndReadBlock := by
  intro i k l s hi hb
  refine ⟨phase_enabled hi hb, _, exec_phase _ s hb, ?_⟩
  rcases runPhase_cases s i (phasesOf i) ⟨i, k, l⟩ with ⟨hp, e⟩ | ⟨p, hp, hheld, -⟩ | ⟨p, hp, -, hk, e⟩
      | ⟨p, hp, -, hk, e⟩
  · have hpast : (phasesOf i).length ≤ k := List.getElem?_eq_none_iff.mp hp
    rw [e]
    exact .inr ⟨by omega, State.topBusy_complete .., rfl⟩
  · cases (phaseAt_ready (phaseAt_of_getElem? hp) hi l s).symm.trans hheld
  · have hphase := phaseAt_of_getElem? hp
    rw [e, phaseAt_keeps_locals hphase hi]
    exact .inl ⟨hk, State.topBusy_setTopBusy .., (controlFree_of_phaseAt hphase hi l).history_eq s⟩
  · have hfree := controlFree_of_phaseAt (phaseAt_of_getElem? hp) hi l
    rw [e, State.complete_history, hfree.stack_eq, hfree.history_eq]
    exact .inr ⟨Nat.not_lt.mpr hk, State.topBusy_complete .., rfl⟩

/-- While a command that does not block has phases left, the sequencer's moves in a row are its steps in a row. -/
theorem runMoves_phases_eq_execChain {i : Instr} {k n : Nat} {l : Locals} {s : State} (hi : isBlocking i = false)
    (hb : s.topBusy = some ⟨i, k, l⟩) (hk : k + n ≤ (phasesOf i).length) :
    runMoves (List.replicate n .phase) s = execChain n i s := by
  induction n generalizing k s with
  | zero => rfl
  | succ n ih =>
    obtain ⟨-, t, ht, hprogress⟩ := onlyStartAndReadBlock i k l s hi hb
    have hmove : takeMove .phase s = .next t := by rw [takeMove_phase hb, ← exec_phase _ s hb, ht]
    rw [List.replicate_succ, runMoves_cons hmove, execChain_cons ht]
    rcases hprogress with ⟨-, hnext, -⟩ | ⟨hlast, -⟩
    · exact ih hnext (by omega)
    · obtain rfl : n = 0 := by omega
      rfl

/-- The moves that issue a command that does not block and run its phases are its steps in a row. -/
theorem runMoves_issue_phases_eq_execChain {i : Instr} {n : Nat} {s : State} (hwf : i.wellFormed = true)
    (hi : isBlocking i = false) (h : s.issueEnabled = true) (hn : n ≤ (phasesOf i).length) :
    runMoves (.issue (encode i) :: List.replicate n .phase) s = execChain (n + 1) i s := by
  rw [runMoves_issue i (decode_encode hwf) h, execChain_issue h]
  exact runMoves_phases_eq_execChain hi (State.topBusy_issue ..) (by omega)

end Sys2Proof.Machine
end

section
/-! Proofs about reset and about the hazards of interrupts between phases (70_reset_and_hazards.md R250, R251, R260,
R262). -/

namespace Sys2Proof.Machine

/-- Settles O51: the registers by their reset values; no clock is connected, no command is in progress and the
interrupt is masked. -/
theorem resetLeavesTheTableOfTheSpec : Obligations.ResetLeavesTheTableOfTheSpec := fun p =>
  ⟨rfl, rfl, rfl, rfl, rfl, if_pos rfl, rfl, rfl, rfl, rfl, rfl, rfl, rfl, rfl, rfl, rfl, rfl, rfl, rfl, rfl,
    dispatch_disabled_of_masked (s := State.resetWith p) (.inl rfl)⟩

/-- Settles O39: `START` with a tick in its wait keeps the event flag, and `ATTACH_INTERRUPT` makes it a request. -/
theorem staleEventIsRequestedAfterAttach : Obligations.StaleEventIsRequestedAfterAttach := by
  intro s cb h hevt htop hsel hcb
  have hwf : (Instr.attachInterrupt cb none).wellFormed = true := bne_iff_ne.mpr hcb
  obtain ⟨u, hstart, haccepts, hevt', hg'⟩ :
      ∃ u, runMoves [.issue (encode .start), .phase, .phase, .phase, .phase, .tick, .phase] s = .next u ∧
        u.issueEnabled = true ∧ u.evtPending = true ∧ u.gie = s.gie :=
    ⟨_, startCompletesAfterOneTickWithANonzeroCounter s h htop hsel, h, hevt, rfl⟩
  have hattach := (runMoves_issue_phases_eq_execChain (n := 2) hwf rfl haccepts (Nat.le_refl 2)).trans
    (execChain_attach cb none haccepts)
  exact ⟨_, (runMoves_append hstart).trans hattach, (irq_of_ie_set rfl).trans hevt', rfl,
    fun hg => Bool.and_eq_true_iff.mpr ⟨(irq_of_ie_set rfl).trans hevt', hg'.trans hg⟩⟩

/-- The interrupt context that an entry with the handler `x` puts on top (60_exceptions.md R226). -/
theorem isrs_dispatch {s : State} {x : HandlerId} (hg : s.gie = true) (hx : s.slot = some x) :
    s.dispatch.stack.isrs = ⟨none, true, some x, false⟩ :: s.stack.isrs := by
  rw [dispatch_of_gie hg, hx]
  rfl

/-- A list that begins with the end of a callback and the return of its context (60_exceptions.md R229, R236). -/
theorem runMoves_cbDone_isrReturn {ms : List Move} {s : State} {c : IsrContext} {below : List IsrContext}
    (hs : s.stack.isrs = c :: below) (hb : c.busy = none) (hd : c.cbDone = false) :
    runMoves (.cbDone :: .isrReturn :: ms) s = runMoves ms { s with
      gie := c.savedGie
      stack := { s.stack with isrs := below }
      history := .isrReturn :: s.history } := by
  have hend := endCallback_of_isrs hs
  have hdone : s.endCallback.stack.isrs = { c with cbDone := true } :: below := by rw [hend]
  rw [runMoves_cbDone ((cbDoneEnabled_iff_of_isrs hs).mpr ⟨hb, hd⟩),
    runMoves_isrReturn ((isrReturnEnabled_iff_of_isrs hdone).mpr ⟨hb, rfl⟩), isrReturn_of_isrs hdone, hend]

/-- A list that begins with a whole `STOP` (42_run_state.md R167). -/
theorem runMoves_stop {ms : List Move} {s : State} (h : s.issueEnabled = true) :
    runMoves (.issue (encode .stop) :: .phase :: ms) s = runMoves ms { s with
      csActive := 0
      history := .complete s.stack.topId .stop :: .issue s.stack.topId .stop :: s.history } :=
  runMoves_append ((runMoves_issue_phases_eq_execChain (i := .stop) (n := 1) rfl rfl h (Nat.le_refl 1)).trans
    (execChain_stop h))

/-- The state after an interrupt has been served by the handler `x` whose callback issued a `STOP`: beside the flag
and the history, the clock is disconnected. -/
def State.servedWithStop (s : State) (x : HandlerId) : State :=
  { s with
    csActive := 0
    evtPending := false
    history := .isrReturn :: .complete s.dispatch.stack.topId .stop :: .issue s.dispatch.stack.topId .stop ::
      .call x :: .dispatch (some x) :: s.history }

/-- Entry, a `STOP` in the callback and the return come back to the suspended context (70_reset_and_hazards.md
R260). -/
theorem runMoves_serve_with_stop {s : State} {x : HandlerId} (hi : s.irq = true) (hg : s.gie = true)
    (hx : s.slot = some x) :
    runMoves [.dispatch, .issue (encode .stop), .phase, .cbDone, .isrReturn] s = .next (s.servedWithStop x) := by
  obtain ⟨-, -, acceptsIsr, -⟩ := issuedCommandWaitsAtItsFirstPhase
  have hentry := isrs_dispatch hg hx
  have haccepts : s.dispatch.issueEnabled = true :=
    (acceptsIsr _ _ _ hentry).mpr ⟨rfl, Option.some_ne_none x, rfl⟩
  rw [runMoves_dispatch hi hg, runMoves_stop haccepts,
    runMoves_cbDone_isrReturn (c := ⟨none, true, some x, false⟩) (below := s.stack.isrs) ?_ rfl rfl]
  · simp [runMoves, State.servedWithStop, dispatchEvents, hx, hg]
  · exact hentry

/-- Settles O40: the return leaves the period command before SP2, which reconnects the clock and completes it. -/
theorem stopInsideAPeriodCommandIsUndone : Obligations.StopInsideAPeriodCommandIsUndone := by
  intro s us l x hb hi hg hx
  have hresumed : (s.servedWithStop x).topBusy = some ⟨.setPeriod us, 1, l⟩ := hb
  exact ⟨s.servedWithStop x, _, runMoves_serve_with_stop hi hg hx, rfl, hresumed,
    runMoves_last phaseSP2 hresumed rfl (Nat.le_refl 2), rfl, State.topBusy_complete ..⟩

end Sys2Proof.Machine
end
